-- ==== Sys2Proof/Word.lean ====
section
/-! DEFINITION. The machine's word types: the widths the spec gives its registers, samples, commands and descriptors
(spec/10_state.md R21, spec/30_encoding.md R81, R82, R88, R90). -/

namespace Sys2Proof

/-- One byte of the external buffer memory (R50). -/
abbrev Byte := BitVec 8

/-- A 16-bit sample pattern (R88) or a format K command word (R81). -/
abbrev Half := BitVec 16

/-- A 32-bit register (R21) or a 32-bit operand field of a descriptor (R82). -/
abbrev Word := BitVec 32

/-- An IEEE 754 binary64 value as its 64 bits: sign 63, exponent 62:52, fraction 51:0 (R90). -/
abbrev F64 := BitVec 64

/-- A format A descriptor `AD[127:0]` (R82). -/
abbrev Descriptor := BitVec 128

end Sys2Proof
end

