-- ==== Sys2Proof/Config.lean ====
section
/-! DEFINITION. What is fixed when the hardware is built: Table P of spec/00_scope.md R6, the parameters the spec leaves
open (as plain data), and the free values, which have no body so that nothing can be proved of the value they give. -/

namespace Sys2Proof

namespace Config

/-! ## Table P (R6): the parameters with a fixed or a decided value -/

/-- `N` (`TABLE_LEN`): the number of wavetable entries. -/
abbrev tableLen : Nat := 1024
/-- `AMP`: the peak value of the table. -/
abbrev amp : Int := 32767
/-- `SAMPLE_BITS`: the bits of a sample. -/
abbrev sampleBits : Nat := 16
/-- `CHANNELS`: the channels of a frame. -/
abbrev channels : Nat := 2
/-- `FRAME_BYTES = CHANNELS * SAMPLE_BITS / 8`. -/
abbrev frameBytes : Nat := channels * sampleBits / 8
/-- Numerator of `ATTEN`, the exact rational 3/10. -/
abbrev attenNum : Int := 3
/-- Denominator of `ATTEN`. -/
abbrev attenDen : Int := 10
/-- The default of `SAMPLE_RATE`, frames per second. -/
abbrev sampleRateDefault : Nat := 44100
/-- `CHUNK`: the frames of one chunk of a `FILL`. -/
abbrev chunk : Nat := 64
/-- `REQ_FRAMES`: what the host asks its device for. Informative: no command reads it. -/
abbrev reqFrames : Nat := 4096
/-- `REF_NOTE`: the semitone index of the reference pitch. -/
abbrev refNote : Int := 57
/-- `REF_HZ`: the reference pitch in hertz. -/
abbrev refHz : Nat := 440
/-- `OCTAVE_MIN`. -/
abbrev octaveMin : Int := 0
/-- `OCTAVE_MAX`. -/
abbrev octaveMax : Int := 6
/-- `DISP_OCT_MIN`. -/
abbrev dispOctMin : Int := 0
/-- `DISP_OCT_MAX`. -/
abbrev dispOctMax : Int := 9
/-- `MIN_NOTE`, derived as R7 says. -/
abbrev minNote : Int := (dispOctMin + 1) * 12
/-- `MAX_NOTE`, derived as R7 says. -/
abbrev maxNote : Int := (dispOctMax + 2) * 12 - 1
/-- `KEY_OFF_MIN`. -/
abbrev keyOffMin : Nat := 12
/-- `KEY_OFF_MAX`. -/
abbrev keyOffMax : Nat := 40
/-- `AW`: the width of a buffer byte address (D11). -/
abbrev addrWidth : Nat := 32
/-- `2^AW`: the bytes of the buffer address space (R50). -/
abbrev addrSpace : Nat := 2 ^ addrWidth
/-- `NOTE_RESET` (D8). -/
abbrev noteReset : Word := 0

/-! ## Free values

The spec gives the operation and states no result for these operands. No supported configuration meets one in a state a
run reaches (R195, R199, R21). -/

/-- The binary64 operations, to say which one a free result belongs to. -/
inductive F64Op
  | add | sub | mul | div
  deriving DecidableEq, Repr

/-- The result of a binary64 operation that meets a NaN, an infinity, a zero divisor or an overflow: "no rule is given
for those" (R14). Log entry 1. -/
opaque f64Unstated : F64Op → F64 → F64 → F64

/-- `f64(k)` for `|k| > 2^53`, where R14 does not define it. Log entry 1. -/
opaque f64OfIntUnstated : Int → F64

/-- The answer of `fge` when an operand is a NaN or an infinity (R14 gives no rule). Log entry 1. -/
opaque fgeUnstated : F64 → F64 → Bool

/-- The value `idx` takes when `ffloor(acc)` is not a 32-bit integer: "where this spec gives no meaning" (R199, F11).
Log entry 2. -/
opaque idxUnstated : F64 → Word

/-- The value a 32-bit register takes when the rule's integer does not fit it; R21 says that it always fits, and no
state a run reaches shows otherwise. Log entry 3. -/
opaque registerUnstated : Int → Word

/-- `PITCH(n)` where `RN64(440 * 2^((n-57)/12))` would be a subnormal or overflow (R14 gives no rule): any positive finite
value, since `PITCH` gives no other (R132). It is that value's place among the `2047 * 2^52 - 1` positive finite ones.
Log entry 4. -/
opaque pitchUnstated : Int → Fin 9218868437227405311

/-- What a byte of the buffer of a command that reset cut short holds: "the host must treat the region as undefined"
(R260, F3 "any value"). The first argument is the machine's free-value counter, the second the address. Log entry 5. -/
opaque abandonedByte : Nat → Nat → Byte

end Config

/-- The parameters the spec leaves open or configurable at build time (R6: `OCTAVE_RESET` OPEN, `SAMPLE_RATE`
configurable, `PITCH` a configuration function). Plain data: `PITCH` is the default instance of R134 but where
`pitchTable` lists another value for a note. -/
structure BuildParams where
  /-- `OCTAVE_RESET`, in `[OCTAVE_MIN, OCTAVE_MAX] = [0, 6]` (R23). -/
  octaveReset : Fin 7
  /-- `SAMPLE_RATE` (D23). -/
  sampleRate : Nat
  /-- The notes at which this build's `PITCH` differs from the default instance, with its value there (R132, D2). -/
  pitchTable : List (Int × F64)
  deriving DecidableEq, Repr

end Sys2Proof
end

