-- ==== Sys2Proof/Machine/Float.lean ====
section
/-! DEFINITION. The binary64 functions of spec/00_scope.md R14 on the bit layout of spec/30_encoding.md R90, rounding to
nearest, ties to even (D1). A finite value is held exactly as an integer multiple of `2^-1074`, the unit every finite
binary64 value is a multiple of; each operation computes exactly and rounds once. -/

namespace Sys2Proof.Machine

/-- How many units of `2^-1074` make 1. (Irreducible: no tactic should write the number out.) -/
@[irreducible] def unitsPerOne : Nat := 2 ^ 1074

/-- The exponent field, bits 62:52 (R90). -/
def expField (a : F64) : Nat := a.toNat / 2 ^ 52 % 2048

/-- The fraction field, bits 51:0 (R90). -/
def fracField (a : F64) : Nat := a.toNat % 2 ^ 52

/-- The sign, bit 63 (R90). -/
def signBit (a : F64) : Bool := a.msb

/-- Neither a NaN nor an infinity. -/
def isFinite (a : F64) : Bool := decide (expField a ≠ 2047)

/-- The magnitude, in units of `2^-1074`, of a value whose exponent and fraction fields together are `bits`. -/
def magOfBits (bits : Nat) : Nat :=
  if bits / 2 ^ 52 = 0 then bits % 2 ^ 52 else (2 ^ 52 + bits % 2 ^ 52) * 2 ^ (bits / 2 ^ 52 - 1)

/-- The magnitude of a finite value, in units of `2^-1074`. -/
def magUnits (a : F64) : Nat := magOfBits (a.toNat % 2 ^ 63)

/-- The exact value of a finite binary64, in units of `2^-1074`. -/
def units (a : F64) : Int := if signBit a then -(magUnits a : Int) else magUnits a

/-- The exponent and fraction fields of the binary64 nearest `num / den` units, ties to even; `0x7FF * 2^52` or more
when that overflows. -/
def roundMag (num den : Nat) : Nat :=
  let e := (num / den).log2 - 52
  let d := den * 2 ^ e
  let m := num / d
  let r := num % d
  e * 2 ^ 52 + (if 2 * r < d then m else if d < 2 * r then m + 1 else m + m % 2)

/-- A signed result from its rounded fields; the free value where it overflows, which R14 gives no rule for. -/
def packF64 (negative : Bool) (bits : Nat) (unstated : F64) : F64 :=
  if bits < 2047 * 2 ^ 52 then BitVec.ofNat 64 (bits + if negative then 2 ^ 63 else 0) else unstated

/-- `-a`: the sign bit flipped, which adding `2^63` modulo `2^64` does. -/
def fneg (a : F64) : F64 := a + 0x8000000000000000#64

/-- The correctly rounded sum of two finite values whose exact sum is `units a + units b`. A zero sum is `-0.0` only when
both operands carry the sign (IEEE 754, round to nearest). -/
def addFinite (a b unstated : F64) : F64 :=
  let k := units a + units b
  if k = 0 then (if signBit a && signBit b then 0x8000000000000000#64 else 0#64)
  else packF64 (decide (k < 0)) (roundMag k.natAbs 1) unstated

/-- `fadd(a, b)` (R14). -/
def fadd (a b : F64) : F64 :=
  if isFinite a && isFinite b then addFinite a b (Config.f64Unstated .add a b) else Config.f64Unstated .add a b

/-- `fsub(a, b)` (R14). -/
def fsub (a b : F64) : F64 :=
  if isFinite a && isFinite b then addFinite a (fneg b) (Config.f64Unstated .sub a b) else Config.f64Unstated .sub a b

/-- `fmul(a, b)` (R14). -/
def fmul (a b : F64) : F64 :=
  if isFinite a && isFinite b then
    packF64 (signBit a ^^ signBit b) (roundMag (magUnits a * magUnits b) unitsPerOne) (Config.f64Unstated .mul a b)
  else Config.f64Unstated .mul a b

/-- `fdiv(a, b)` (R14). -/
def fdiv (a b : F64) : F64 :=
  if isFinite a && isFinite b && decide (magUnits b ≠ 0) then
    packF64 (signBit a ^^ signBit b) (roundMag (magUnits a * unitsPerOne) (magUnits b)) (Config.f64Unstated .div a b)
  else Config.f64Unstated .div a b

/-- `fge(a, b)`: `a >= b` on the exact values (R14). -/
def fge (a b : F64) : Bool :=
  if isFinite a && isFinite b then decide (units b ≤ units a) else Config.fgeUnstated a b

/-- `ffloor(a)`: the greatest integer not above the exact value of a finite `a` (R14). -/
def ffloor (a : F64) : Option Int :=
  if isFinite a then some (units a / (unitsPerOne : Int)) else none

/-- `f64(k)`: the binary64 value of an integer `k` with `|k| <= 2^53`, which is exact (R14). -/
def f64 (k : Int) : F64 :=
  if k.natAbs ≤ 2 ^ 53 then
    packF64 (decide (k < 0)) (roundMag (k.natAbs * unitsPerOne) 1) (Config.f64OfIntUnstated k)
  else Config.f64OfIntUnstated k

end Sys2Proof.Machine
end

