-- ==== Sys2Proof/Machine/Pitch.lean ====
section
/-! DEFINITION. The pitch mapper and the phase increment (spec/41_pitch_mapper.md), and the two conditions a build must
meet: the properties R132 assumes of `PITCH` and the support condition of spec/00_scope.md R8. -/

namespace Sys2Proof.Machine

/-- The fraction field of `RN64(440 * 2^((n-57)/12))` by the residue of `n` modulo 12 (R134). Twelve values serve every
note, because `PITCH(n + 12) = 2 * PITCH(n)` exactly (R133). -/
def pitchFraction : List Nat :=
  [0x05a0250c2b956, 0x152ec0e758e6f, 0x25aa2e3af0b21, 0x3720820155764, 0x49a0a791e127b, 0x5d3a6d600cabc,
   0x71fe927ca0de9, 0x87fed4e47adff, 0x9f4e00a91d08e, 0xb800000000000, 0xd229ec465c8a2, 0xede22007f791a]

/-- The default instance of `PITCH`, `RN64(440 * 2^((n-57)/12))` (R132, R134): the binary exponent of note `n` is
`4 + n div 12`. Where that leaves the range of normal numbers R14 gives no rule, and the value is some positive finite
one (R132). -/
def defaultPitch (n : Int) : F64 :=
  let e := 4 + n / 12 + 1023
  if 1 ≤ e ∧ e ≤ 2046 then BitVec.ofNat 64 (e.toNat * 2 ^ 52 + pitchFraction.getD (n % 12).toNat 0)
  else BitVec.ofNat 64 ((Config.pitchUnstated n).val + 1)

/-- `PITCH(n)` of a build: total over the integers, and a function of `n` alone (R130, R132 P4, R135). -/
def PITCH (p : BuildParams) (n : Int) : F64 :=
  match p.pitchTable.lookup n with
  | some v => v
  | none => defaultPitch n

/-- `PINC(n) = fmul( fdiv( PITCH(n), f64(SAMPLE_RATE) ), f64(N) )` (R136). -/
def PINC (p : BuildParams) (n : Int) : F64 :=
  fmul (fdiv (PITCH p n) (f64 p.sampleRate)) (f64 Config.tableLen)

/-- A positive finite value. -/
def isPositive (a : F64) : Bool := isFinite a && decide (0 < units a)

/-- The codomain of `PITCH`: "positive finite binary64 values" at every integer (R132). The default instance has it, so it
is a condition on the notes at which the build differs. -/
def pitchPositive (p : BuildParams) : Bool := p.pitchTable.all fun e => isPositive e.2

/-- P1 of R132: `PITCH(57) = 440.0` exactly. -/
def pitchP1 (p : BuildParams) : Bool := decide (PITCH p 57 = 0x407B800000000000#64)

/-- P2 of R132 for one note `n >= 1`: the relative error is at most `1e-12`. Both sides are raised to the 12th power,
where `(440 * 2^((n-57)/12))^12 = 440^12 * 2^(n-57)`, and scaled to integers. -/
def pitchNear (p : BuildParams) (n : Nat) : Bool :=
  let lhs := (10 ^ 12 * magUnits (PITCH p n)) ^ 12 * 2 ^ 57
  let ref := 440 ^ 12 * 2 ^ n * unitsPerOne ^ 12
  isPositive (PITCH p n) && decide ((10 ^ 12 - 1) ^ 12 * ref ≤ lhs) && decide (lhs ≤ (10 ^ 12 + 1) ^ 12 * ref)

/-- P2 of R132: on `[1, 131]`. -/
def pitchP2 (p : BuildParams) : Bool := (List.range 131).all fun k => pitchNear p (k + 1)

/-- P3 of R132: `PITCH` is strictly increasing on `[1, 131]`. -/
def pitchP3 (p : BuildParams) : Bool :=
  (List.range 130).all fun k => decide (units (PITCH p (k + 1 : Nat)) < units (PITCH p (k + 2 : Nat)))

/-- The condition `0 < PINC(n) < N` (R8). -/
def incrementFits (p : BuildParams) (n : Int) : Bool :=
  isPositive (PINC p n) && decide (units (PINC p n) < Config.tableLen * unitsPerOne)

/-- The support condition of R8 for the fixed parameters: `SAMPLE_RATE` is positive (and one `f64` is defined for), and
`0 < PINC(n) < N` for every reachable note but 0, that is `12 .. 112` (R163). The other conjuncts of R8 are facts about
Table P and the type of `octaveReset`. -/
def supported (p : BuildParams) : Bool :=
  decide (0 < p.sampleRate ∧ p.sampleRate ≤ 2 ^ 53) && (List.range 101).all fun k => incrementFits p (k + 12 : Nat)

/-- A build the rules give a meaning to: supported (R8) and with a `PITCH` as R132 requires. -/
def legalBuild (p : BuildParams) : Bool := supported p && pitchP1 p && pitchP2 p && pitchP3 p && pitchPositive p

/-- The default build: `SAMPLE_RATE = 44100`, the default `PITCH`, and `OCTAVE_RESET = 0` (a choice of the model: the
parameter is OPEN, log entry 6). -/
def defaultParams : BuildParams :=
  { octaveReset := 0, sampleRate := Config.sampleRateDefault, pitchTable := [] }

end Sys2Proof.Machine
end

