-- ==== Sys2Proof/Syntax.lean ====
section
/-! DEFINITION. The commands of the block, one constructor per row of the opcode table (spec/30_encoding.md R83, R84),
and the two ports they arrive on (R80). -/

namespace Sys2Proof

/-- The two command ports, one per agent (R17, R80). -/
inductive Port
  | control
  | audio
  deriving DecidableEq, Repr

/-- The eight commands. Every operand is an unsigned field taken as it stands (R85). -/
inductive Instr
  /-- `OCTUP` (R150). -/
  | octup
  /-- `OCTDN` (R151). -/
  | octdn
  /-- `NOTEKEY off` (R152): `off` is the mapped semitone offset. -/
  | notekey (off : Byte)
  /-- `KEYOTHER` (R153). -/
  | keyother
  /-- `KEYUP` (R154). -/
  | keyup
  /-- `SHUTDOWN` (R219). -/
  | shutdown
  /-- `FILL dest, byte_length` (R210). -/
  | fill (dest byteLength : Word)
  /-- `WRS buf, start, count` (R180): `start` and `count` are in frames (R85). -/
  | wrs (buf start count : Word)
  deriving DecidableEq, Repr

/-- The port a command is issued on (R17, R80). -/
def Instr.port : Instr → Port
  | .octup => .control
  | .octdn => .control
  | .notekey _ => .control
  | .keyother => .control
  | .keyup => .control
  | .shutdown => .control
  | .fill _ _ => .audio
  | .wrs _ _ _ => .audio

/-- The command's mnemonic as the opcode table spells it (R83, R84, R92). -/
def Instr.mnemonic : Instr → String
  | .octup => "OCTUP"
  | .octdn => "OCTDN"
  | .notekey _ => "NOTEKEY"
  | .keyother => "KEYOTHER"
  | .keyup => "KEYUP"
  | .shutdown => "SHUTDOWN"
  | .fill _ _ => "FILL"
  | .wrs _ _ _ => "WRS"

end Sys2Proof
end

