-- ==== Sys2Proof/Machine/State.lean ====
section
/-! DEFINITION. The state of the block (spec/10_state.md, Table S), as plain data, with what stands outside the block and a
step needs: the buffer memory, the commands waiting on the two ports, and the schedule. The wavetable is the constant of
Machine/Wavetable.lean (R29). -/

namespace Sys2Proof.Machine

/-- Why a step stops with no next state. -/
inductive Fault
  /-- `FILL` and `WRS`: the region named is inside the address space and not inside the launch memory, so the command
  gets no step, "stuck" (R56, D28). Safe: less is provable than on hardware where the memory is there. -/
  | unwritableRegion
  deriving DecidableEq, Repr

/-- What the model gives no meaning to. No command is refused. -/
inductive Refusal
  /-- An instruction whose arm of `exec` is not written: none is left. Safe. -/
  | notModelled (mnemonic : String)
  /-- The host touches the buffer region of an audio command issued and not completed: "a model should refuse such a
  schedule" (R59, F4). Safe. -/
  | hostTouchesBorrowedBuffer
  /-- The host touches addresses outside the buffer memory's `2^AW` bytes, where there is no memory (R50). Safe. -/
  | hostOutsideMemory
  deriving DecidableEq, Repr

/-- The two kinds of audio command, `fill.kind` (R28). -/
inductive AudioKind
  | fill
  | wrs
  deriving DecidableEq, Repr

/-- The transient record of an audio command in progress (R28), with the two things the position between step Z and
step C of a `FILL` needs (R62, R216): the byte length and whether step C is done. -/
structure FillRecord where
  /-- `fill.busy`: an audio command is in progress. -/
  busy : Bool
  /-- `fill.kind`. -/
  kind : AudioKind
  /-- `fill.base`: the buffer base address of the command. -/
  base : Word
  /-- The byte length of the command: an operand. -/
  byteLength : Word
  /-- Step C (length check, read of `shut`) is done. -/
  checked : Bool
  /-- `fill.frames`: the number of frames of the command, known from step C on. -/
  frames : Nat
  /-- `fill.cursor`: the frame offset of the next chunk. -/
  cursor : Nat
  deriving DecidableEq, Repr

/-- The record when no audio command runs: `busy = 0`, "and the other fields have no meaning" (R28). The model writes
them as zeros whenever a command completes (log entry 7). -/
def FillRecord.idle : FillRecord :=
  { busy := false, kind := .fill, base := 0, byteLength := 0, checked := false, frames := 0, cursor := 0 }

/-- `dir` of an `OctaveReport` (R32). -/
inductive Direction
  | up
  | down
  deriving DecidableEq, Repr

/-- An event of the output stream (R32, R158, R159). -/
inductive Event
  | noteReport (note : Word) (pitch : F64)
  | octaveReport (dir : Direction) (octave : Word)
  deriving DecidableEq, Repr

/-- The external buffer memory (R50): the bytes known, by strictly rising address. An address not listed has no known
value: the block never reads memory, and what the host's memory holds before a store the spec does not say
(log entry 8). -/
abbrev Memory := List Host.Cell

/-- A range of writable launch memory (R56). -/
structure Region where
  base : Nat
  size : Nat
  deriving DecidableEq, Repr

/-- A build of the hardware: its parameters, and that they are legal. An unsupported configuration is so refused once,
where a machine is made, and no state has one (R8, R199, D25). -/
structure Build where
  params : BuildParams
  legal : legalBuild params = true
  deriving DecidableEq, Repr

/-- The default build. -/
def Build.default : Build := { params := defaultParams, legal := by decide +kernel }

/-- What acts next: the schedule of the two agents is not fixed by the block (R38, R62), so it is an input. -/
inductive Turn
  /-- The control port: the next control command takes effect (R62). -/
  | control
  /-- The audio port: the next atomic step of the audio command in progress, or the first step of the next one (R62). -/
  | audio
  /-- The reset event (R260). `struck` says which port's next step it cuts short: none, when it falls between steps. -/
  | reset (struck : Option Port)
  /-- The control agent issues a command word: it waits on the control port from then on (R17, R66). -/
  | issueControl (word : Half)
  /-- The audio agent issues a descriptor: it waits on the audio port, and its buffer is borrowed, from then on (R17, R59,
  R66). -/
  | issueAudio (desc : Descriptor)
  /-- The host reads `len` bytes of the buffer memory at `addr` (R59). -/
  | hostRead (addr len : Nat)
  /-- The host writes bytes of the buffer memory from `addr` on (R59, R264). -/
  | hostWrite (addr : Nat) (bytes : List Byte)
  deriving DecidableEq, Repr

/-- The machine's state. -/
structure State where
  /-- `note`: the semitone index of the one voice, a signed 32-bit register (R22). -/
  note : Word
  /-- `octave`: the Note Controller's octave shift, a signed 32-bit register (R23). -/
  octave : Word
  /-- `acc`: the phase accumulator, binary64 (R24). -/
  acc : F64
  /-- `idx`: the phase index, a signed 32-bit register (R25). -/
  idx : Word
  /-- `fault`: sticky bits `LEN` 0, `ADDR` 1, `ILL` 2 (R26). -/
  fault : BitVec 3
  /-- `shut`: the shutting-down flag (R27). -/
  shut : Bool
  /-- `fill`: the transient record of an audio command in progress (R28). -/
  fill : FillRecord
  /-- The event stream, oldest first (R32). -/
  events : List Event
  /-- The external buffer memory (R50). -/
  mem : Memory
  /-- The launch memory's writable regions (R56). -/
  writable : List Region
  /-- Commands issued on the control port and not yet accepted, oldest first (R66). -/
  controlPort : List Half
  /-- Descriptors issued on the audio port and not yet accepted, oldest first (R66, R268). -/
  audioPort : List Descriptor
  /-- The schedule still to come (R38, R62). -/
  schedule : List Turn
  /-- The build's parameters, which nothing writes (R31, R38). -/
  build : Build
  /-- The model's own counter of free values used (log entry 5). -/
  freeCount : Nat
  deriving DecidableEq, Repr

/-- `octave` after reset: `OCTAVE_RESET` (R23). -/
def Build.octaveReset (b : Build) : Word := BitVec.ofNat 32 b.params.octaveReset.val

/-- The state right after reset (R36) of a build `b` on a launch memory `w`, with nothing issued and nothing scheduled. -/
def State.resetOf (b : Build) (w : List Region) : State :=
  { note := Config.noteReset, octave := b.octaveReset, acc := 0#64, idx := 0, fault := 0, shut := false,
    fill := FillRecord.idle, events := [], mem := [], writable := w, controlPort := [], audioPort := [],
    schedule := [], build := b, freeCount := 0 }

/-- The state right after reset of the default build, with the whole address space writable (log entries 6 and 9). -/
def State.reset : State := State.resetOf Build.default [{ base := 0, size := Config.addrSpace }]

end Sys2Proof.Machine
end

