-- ==== Sys2Proof/Machine/Flags.lean ====
section
/-! DEFINITION. The block's one-bit status values: the three sticky bits of `fault` (spec/10_state.md R26,
spec/60_exceptions.md R231). It has no condition codes and no command sets a flag as a side effect of arithmetic (R30);
`shut` is a field of its own (R27). -/

namespace Sys2Proof.Machine

/-- The three fault causes of Table F (R231). -/
inductive FaultCause
  | lenFault
  | addrFault
  | illegalCommand
  deriving DecidableEq, Repr

/-- The code of a cause, which is its bit number in `fault` (R231). -/
def FaultCause.code : FaultCause → Nat
  | .lenFault => 0
  | .addrFault => 1
  | .illegalCommand => 2

/-- `fault` with the bit of `c` set; it stays set if already set (R26, R232). -/
def setFaultBit (c : FaultCause) (f : BitVec 3) : BitVec 3 := f ||| 1#3 <<< c.code

end Sys2Proof.Machine
end

