-- ==== Sys2Proof/Machine/Operands.lean ====
section
/-! DEFINITION. How operands and results are formed: integers to register patterns, samples, buffer addresses and the
range checks (spec/00_scope.md R9, R13; spec/20_memory.md R51, R52, R55; spec/30_encoding.md R85). -/

namespace Sys2Proof.Machine

/-- A 32-bit two's complement register's pattern for an integer (R9, R21). The rules treat the registers as integers and
R21 shows that no result leaves the width; outside it the value is free. -/
def toRegister (v : Int) : Word :=
  if -2 ^ 31 ≤ v ∧ v < 2 ^ 31 then BitVec.ofInt 32 v else Config.registerUnstated v

/-- `s16(v)`: the 16-bit pattern of an integer (R9). -/
def s16 (v : Int) : Half := BitVec.ofInt 16 v

/-- `tdiv(3 * s, 10)`: the exact product by 3/10, truncated toward zero (R13, R186). -/
def attenuate (s : Int) : Int := Int.tdiv (Config.attenNum * s) Config.attenDen

/-- The byte address of frame `start + f` of a buffer: `buf + 4 * (start + f)` (R85, R187). -/
def frameAddr (buf start : Word) (f : Nat) : Nat :=
  buf.toNat + Config.frameBytes * (start.toNat + f)

/-- The range check of `FILL` (R55): the region ends inside the address space. -/
abbrev fillInRange (dest byteLength : Word) : Prop := dest.toNat + byteLength.toNat ≤ Config.addrSpace

/-- The range check of `WRS` (R55, R190). -/
abbrev wrsInRange (buf start count : Word) : Prop :=
  buf.toNat + Config.frameBytes * (start.toNat + count.toNat) ≤ Config.addrSpace

/-- One byte lies in a writable region. -/
def byteWritable (w : List Region) (a : Nat) : Bool :=
  w.any fun r => decide (r.base ≤ a ∧ a < r.base + r.size)

/-- What a region leaves of an interval `[lo, hi)`. -/
def Region.cut (r : Region) (iv : Nat × Nat) : List (Nat × Nat) :=
  [(iv.1, min iv.2 r.base), (max iv.1 (r.base + r.size), iv.2)].filter fun p => decide (p.1 < p.2)

/-- The parts of an interval that no region covers. -/
def uncovered (w : List Region) (ivs : List (Nat × Nat)) : List (Nat × Nat) :=
  w.foldl (fun rest r => rest.flatMap r.cut) ivs

/-- Every byte of `addr .. addr + len - 1` lies in the launch memory (R56). -/
def regionWritable (w : List Region) (addr len : Nat) : Bool :=
  decide (len = 0) || (uncovered w [(addr, addr + len)]).isEmpty

/-- The region of the bytes a `WRS` may write: frames `start .. start + count - 1` (R180, R194). -/
def wrsRegion (buf start count : Word) : Nat × Nat := (frameAddr buf start 0, Config.frameBytes * count.toNat)

end Sys2Proof.Machine
end

