-- ==== Sys2Proof/Machine/Ops.lean ====
section
/-! DEFINITION. The named operations over memory and registers (spec/00_scope.md R10 to R12, spec/20_memory.md R50 to
R54), and the one shared operation that raises a fault (R12, R232). A fault of this block saves nothing, masks nothing and
goes nowhere, and there is no return from one (R235, R236). -/

namespace Sys2Proof.Machine

/-! ## Memory -/

/-- The byte at an address, where it is known. -/
def Memory.read (m : Memory) (a : Nat) : Option Byte := List.lookup a m

/-- The cells of consecutive addresses from `a` on. -/
def cellsFrom : Nat → List Byte → Memory
  | _, [] => []
  | a, b :: bs => (a, b) :: cellsFrom (a + 1) bs

/-- Consecutive bytes stored from address `a` on; every other address keeps its cell (R51, R54). -/
def Memory.store (m : Memory) (a : Nat) (bs : List Byte) : Memory :=
  m.filter (fun c => decide (c.1 < a)) ++ cellsFrom a bs ++ m.filter (fun c => decide (a + bs.length ≤ c.1))

/-- The canonical form: addresses strictly rising, all inside the address space. An address not listed reads as no
value, so no listed cell can repeat what an unlisted one reads as. -/
abbrev Memory.wf (m : Memory) : Prop :=
  m.Pairwise (fun x y => x.1 < y.1) ∧ ∀ c ∈ m, c.1 < Config.addrSpace

/-- The `n` low-order bytes of a number, least significant first (R11, R51). -/
def leBytes : Nat → Nat → List Byte
  | 0, _ => []
  | n + 1, v => BitVec.ofNat 8 v :: leBytes n (v / 256)

/-- `MemWrite(addr, n, v)` (R11, R51). -/
def Memory.memWrite (m : Memory) (addr n : Nat) (v : Nat) : Memory := m.store addr (leBytes n v)

/-- `MemRead(addr, n)`, "defined for completeness and no rule of this spec uses it" (R11): no value where a byte is not
known. -/
def Memory.memRead (m : Memory) (addr : Nat) : Nat → Option Nat
  | 0 => some 0
  | n + 1 =>
    match m.read addr, m.memRead (addr + 1) n with
    | some b, some hi => some (b.toNat + 256 * hi)
    | _, _ => none

/-! ## Registers -/

/-- `x[note] <- v`. -/
def State.setNote (s : State) (v : Word) : State := { s with note := v }
/-- `x[octave] <- v`. -/
def State.setOctave (s : State) (v : Word) : State := { s with octave := v }
/-- `x[acc] <- v`. -/
def State.setAcc (s : State) (v : F64) : State := { s with acc := v }
/-- `x[idx] <- v`. -/
def State.setIdx (s : State) (v : Word) : State := { s with idx := v }
/-- `x[shut] <- v`. -/
def State.setShut (s : State) (v : Bool) : State := { s with shut := v }
/-- The transient record of the audio command in progress. -/
def State.setFill (s : State) (r : FillRecord) : State := { s with fill := r }
/-- The buffer memory. -/
def State.setMem (s : State) (m : Memory) : State := { s with mem := m }
/-- `emit E` (R15): append to the event stream. -/
def State.emit (s : State) (e : Event) : State := { s with events := s.events ++ [e] }
/-- `raise <Fault>` (R12, R232): set the cause's bit; the raising command then completes. -/
def State.raise (s : State) (c : FaultCause) : State := { s with fault := setFaultBit c s.fault }

end Sys2Proof.Machine
end

