-- ==== Sys2Proof/Machine/Oscillator.lean ====
section
/-! DEFINITION. The oscillator and sample writer (spec/43_oscillator.md): the phase accumulator, the wavetable indexer, the
stereo interleaver, and the command `WRS`. -/

namespace Sys2Proof.Machine

/-- `x[idx] <- ffloor(acc)` as a register pattern; free where the floor is no 32-bit integer (R199, F11). -/
def phaseIndex (acc : F64) : Word :=
  match ffloor acc with
  | some k => if -2 ^ 31 ≤ k ∧ k < 2 ^ 31 then BitVec.ofInt 32 k else Config.idxUnstated acc
  | none => Config.idxUnstated acc

/-- Steps 3a and 3b, the phase accumulator (R183, R184): advance, then wrap by at most one subtraction of `N`. -/
def advancePhase (inc acc : F64) : F64 :=
  let sum := fadd acc inc
  if fge sum (f64 Config.tableLen) then fsub sum (f64 Config.tableLen) else sum

/-- Step 4a, the guarded lookup (R185); no entry where the index is out of range (R188). -/
def lookupEntry (idx : Word) : Option Int :=
  if 0 ≤ idx.toInt ∧ idx.toInt < Config.tableLen then wave? idx.toInt.toNat else none

/-- Step 4c, the stereo interleaver (R187): the same sample in the left and the right slot of the frame at `a`. -/
def stereoStore (m : Memory) (a : Nat) (v : Int) : Memory :=
  (m.memWrite a 2 (s16 v).toNat).memWrite (a + 2) 2 (s16 v).toNat

/-- Steps 4 and 5 for the frame at `a` (R185 to R188): scaled entry stored in both slots, or the frame skipped. -/
def writeFrame (m : Memory) (a : Nat) (idx : Word) : Memory :=
  match lookupEntry idx with
  | some e => stereoStore m a (attenuate e)
  | none => m

/-- One turn of the loop of R189, for the frame at `a`. -/
def frameStep (inc : F64) (a : Nat) (s : State) : State :=
  let acc := advancePhase inc s.acc
  let idx := phaseIndex acc
  ((s.setAcc acc).setIdx idx).setMem (writeFrame s.mem a idx)

/-- The loop of R189: `count` frames from address `a` on. -/
def frameLoop (inc : F64) : Nat → Nat → State → State
  | 0, _, s => s
  | k + 1, a, s => frameLoop inc k (a + Config.frameBytes) (frameStep inc a s)

/-- The body of `WRS` after its range check (R189), for `count` frames from address `a` on: the one read of `note`, voice
off (R181), the increment (R182), the loop. -/
def wrsBody (a count : Nat) (s : State) : State :=
  if s.note.toInt ≤ 0 then s else frameLoop (PINC s.build.params s.note.toInt) count a s

/-- `WRS buf, start, count` (R180, R189, R190). -/
def execWrs (buf start count : Word) (s : State) : Host.Outcome State Fault Refusal :=
  if wrsInRange buf start count then
    if regionWritable s.writable (wrsRegion buf start count).1 (wrsRegion buf start count).2 then
      .next (wrsBody (frameAddr buf start 0) count.toNat s)
    else .fault .unwritableRegion
  else .next (s.raise .addrFault)

end Sys2Proof.Machine
end

