-- ==== Sys2Proof/Machine/AudioCallback.lean ====
section
/-! DEFINITION. The audio callback buffer writer and shutdown (spec/44_audio_callback.md): `FILL` and `SHUTDOWN`. A `FILL` is
a sequence of atomic steps (spec/20_memory.md R62): step Z is `exec` of the command; step C and one step per chunk follow,
each on a later turn of the audio agent. -/

namespace Sys2Proof.Machine

/-- Part (a), the zero-fill (R211). -/
def zeroFill (m : Memory) (dest byteLength : Word) : Memory :=
  m.store dest.toNat (List.replicate byteLength.toNat 0#8)

/-- The transient record of a `FILL` whose step Z is done (R28, R62). -/
def fillStarted (dest byteLength : Word) : FillRecord :=
  { busy := true, kind := .fill, base := dest, byteLength := byteLength, checked := false, frames := 0, cursor := 0 }

/-- `FILL dest, byte_length`, step Z (R210, R211, R216): the range check and the zero-fill. -/
def execFill (dest byteLength : Word) (s : State) : Host.Outcome State Fault Refusal :=
  if fillInRange dest byteLength then
    if regionWritable s.writable dest.toNat byteLength.toNat then
      .next ((s.setMem (zeroFill s.mem dest byteLength)).setFill (fillStarted dest byteLength))
    else .fault .unwritableRegion
  else .next (s.raise .addrFault)

/-- The command in progress completes (R28: `fill.busy = 0`). -/
def completeAudio (s : State) : State := s.setFill FillRecord.idle

/-- Goes on to the chunk at `cursor`, or completes when `cursor` has reached `fill.frames` (R28, R216). -/
def continueAt (frames cursor : Nat) (s : State) : State :=
  if cursor < frames then s.setFill { s.fill with checked := true, frames := frames, cursor := cursor }
  else completeAudio s

/-- Step C of a `FILL` (R212, R213, R216): the length check, then the one read of `shut`. -/
def fillCheck (s : State) : State :=
  if s.fill.byteLength.toNat % Config.frameBytes ≠ 0 then completeAudio (s.raise .lenFault)
  else if s.shut then completeAudio s
  else continueAt (s.fill.byteLength.toNat / Config.frameBytes) 0 s

/-- The frames of the next chunk: `min(CHUNK, frames - cursor)` (R214, R215). -/
def chunkFrames (r : FillRecord) : Nat := min Config.chunk (r.frames - r.cursor)

/-- One chunk of a `FILL` (R214, R215): the body of `WRS dest, cursor, c` with no second range check, then the cursor. -/
def fillChunk (s : State) : State :=
  let c := chunkFrames s.fill
  continueAt s.fill.frames (s.fill.cursor + c)
    (wrsBody (s.fill.base.toNat + Config.frameBytes * s.fill.cursor) c s)

/-- The next atomic step of the audio command in progress (R62). -/
def audioContinue (s : State) : State := if s.fill.checked then fillChunk s else fillCheck s

/-- `SHUTDOWN` (R219). -/
def execShutdown (s : State) : Host.Outcome State Fault Refusal := .next (s.setShut true)

end Sys2Proof.Machine
end

