-- ==== Sys2Proof/Machine/NoteController.lean ====
section
/-! DEFINITION. The note controller's commands (spec/42_note_controller.md): `OCTUP`, `OCTDN`, `NOTEKEY`, `KEYOTHER`,
`KEYUP`. Each is one atomic step and none can fault once decoded. -/

namespace Sys2Proof.Machine

/-- `OCTUP` (R150, R156, R159): the note shift is tied to the octave actually changing, and the report is emitted on
every press. -/
def execOctup (s : State) : Host.Outcome State Fault Refusal :=
  if s.octave.toInt < Config.octaveMax then
    let s1 := s.setOctave (toRegister (s.octave.toInt + 1))
    let s2 := s1.setNote (toRegister (min (s.note.toInt + 12) Config.maxNote))
    .next (s2.emit (.octaveReport .up s2.octave))
  else .next (s.emit (.octaveReport .up s.octave))

/-- `OCTDN` (R151, R156, R159). -/
def execOctdn (s : State) : Host.Outcome State Fault Refusal :=
  if Config.octaveMin < s.octave.toInt then
    let s1 := s.setOctave (toRegister (s.octave.toInt - 1))
    let s2 := s1.setNote (toRegister (max (s.note.toInt - 12) Config.minNote))
    .next (s2.emit (.octaveReport .down s2.octave))
  else .next (s.emit (.octaveReport .down s.octave))

/-- `NOTEKEY off` (R152, R158): no clamp, and a report with the new note and its pitch. -/
def execNotekey (off : Byte) (s : State) : Host.Outcome State Fault Refusal :=
  let s1 := s.setNote (toRegister ((off.toNat : Int) + 12 * s.octave.toInt))
  .next (s1.emit (.noteReport s1.note (PITCH s.build.params s1.note.toInt)))

/-- `KEYOTHER` (R153): the identity. -/
def execKeyother (s : State) : Host.Outcome State Fault Refusal := .next s

/-- `KEYUP` (R154): accepted and ignored. -/
def execKeyup (s : State) : Host.Outcome State Fault Refusal := .next s

end Sys2Proof.Machine
end

