-- ==== Sys2Proof/Machine/Dispatch.lean ====
section
/-! DEFINITION. One arm per command: its meaning in a state whose port has accepted it. -/

namespace Sys2Proof.Machine

/-- The meaning of a command. For `FILL` it is the command's first atomic step, step Z (R62). -/
def exec (i : Instr) (s : State) : Host.Outcome State Fault Refusal :=
  match i with
  | .octup => Sys2Proof.Machine.execOctup s
  | .octdn => Sys2Proof.Machine.execOctdn s
  | .notekey off => Sys2Proof.Machine.execNotekey off s
  | .keyother => Sys2Proof.Machine.execKeyother s
  | .keyup => Sys2Proof.Machine.execKeyup s
  | .shutdown => Sys2Proof.Machine.execShutdown s
  | .fill dest byteLength => Sys2Proof.Machine.execFill dest byteLength s
  | .wrs buf start count => Sys2Proof.Machine.execWrs buf start count s

end Sys2Proof.Machine
end

