-- ==== Sys2Proof/WellFormed.lean ====
section
/-! DEFINITION. Which terms of `Instr` are legal commands: the one operand restriction that is part of the encoding is
`NOTEKEY`'s (spec/30_encoding.md R83, R87, D22). The range and length checks belong to execution (R86). -/

namespace Sys2Proof

/-- A semitone offset a note key may carry: `KEY_OFF_MIN <= off <= KEY_OFF_MAX`, that is `12 .. 40` (R87). -/
abbrev legalOffset (off : Byte) : Prop :=
  Config.keyOffMin ≤ off.toNat ∧ off.toNat ≤ Config.keyOffMax

/-- The legal commands (R87). -/
def Instr.wellFormed : Instr → Bool
  | .octup => true
  | .octdn => true
  | .notekey off => decide (legalOffset off)
  | .keyother => true
  | .keyup => true
  | .shutdown => true
  | .fill _ _ => true
  | .wrs _ _ _ => true

end Sys2Proof
end

