-- ==== Sys2Proof/Decode.lean ====
section
/-! DEFINITION. The decoder, total on any word of either port and rejecting by name, and the encoder, both written from
the formats and opcode maps of spec/30_encoding.md (R81 to R87). -/

namespace Sys2Proof

/-- What arrives on a port: a 16-bit word of format K or a 128-bit descriptor of format A (R80). -/
inductive CommandWord
  | control (word : Half)
  | audio (desc : Descriptor)
  deriving DecidableEq, Repr

/-- Why a word or a descriptor matches no row of the opcode tables (R87). The block answers each of them alike, with
`IllegalCommand`. -/
inductive DecodeError
  /-- `op` is no opcode of the port's table. -/
  | unknownOpcode
  /-- A format K word other than `NOTEKEY` with `arg != 0`. -/
  | nonzeroArg
  /-- `NOTEKEY` with `off` outside `12 .. 40`. -/
  | offsetOutOfRange
  /-- A format A descriptor with `zero != 0`. -/
  | nonzeroReserved
  /-- `FILL` with `C != 0`. -/
  | nonzeroC
  /-- A byte sequence that is not the sixteen bytes of a descriptor. -/
  | wrongLength
  deriving DecidableEq, Repr

/-! ## Fields -/

/-- Field `op` of format K, bits 15:8 (R81). -/
def opK (w : Half) : Byte := w.extractLsb' 8 8
/-- Field `arg` of format K, bits 7:0 (R81). -/
def argK (w : Half) : Byte := w.extractLsb' 0 8
/-- Field `op` of format A, bits 7:0 (R82). -/
def opA (d : Descriptor) : Byte := d.extractLsb' 0 8
/-- Field `zero` of format A, bits 31:8 (R82). -/
def zeroA (d : Descriptor) : BitVec 24 := d.extractLsb' 8 24
/-- Field `A` of format A, bits 63:32 (R82). -/
def fieldA (d : Descriptor) : Word := d.extractLsb' 32 32
/-- Field `B` of format A, bits 95:64 (R82). -/
def fieldB (d : Descriptor) : Word := d.extractLsb' 64 32
/-- Field `C` of format A, bits 127:96 (R82). -/
def fieldC (d : Descriptor) : Word := d.extractLsb' 96 32

/-! ## Decoding -/

/-- A row of Table K whose `arg` must be 0 (R83, R87). -/
def needZeroArg (arg : Byte) (i : Instr) : Except DecodeError Instr :=
  if arg = 0 then .ok i else .error .nonzeroArg

/-- Decoding of a format K word by Table K (R83, R87). -/
def decodeK (w : Half) : Except DecodeError Instr :=
  if opK w = 0x01#8 then needZeroArg (argK w) .octup
  else if opK w = 0x02#8 then needZeroArg (argK w) .octdn
  else if opK w = 0x03#8 then
    if legalOffset (argK w) then .ok (.notekey (argK w)) else .error .offsetOutOfRange
  else if opK w = 0x04#8 then needZeroArg (argK w) .keyother
  else if opK w = 0x05#8 then needZeroArg (argK w) .keyup
  else if opK w = 0x0F#8 then needZeroArg (argK w) .shutdown
  else .error .unknownOpcode

/-- Decoding of a format A descriptor by Table A (R84, R87). -/
def decodeA (d : Descriptor) : Except DecodeError Instr :=
  if opA d = 0x10#8 then
    if zeroA d ≠ 0 then .error .nonzeroReserved
    else if fieldC d ≠ 0 then .error .nonzeroC
    else .ok (.fill (fieldA d) (fieldB d))
  else if opA d = 0x11#8 then
    if zeroA d ≠ 0 then .error .nonzeroReserved
    else .ok (.wrs (fieldA d) (fieldB d) (fieldC d))
  else .error .unknownOpcode

/-- Decoding of whatever arrives on a port: the port tells the format (R80). -/
def decode : CommandWord → Except DecodeError Instr
  | .control w => decodeK w
  | .audio d => decodeA d

/-- A descriptor carried as four 32-bit words, `w0 = AD[31:0]` first (R82). -/
def descriptorOfWords (w0 w1 w2 w3 : Word) : Descriptor := w3 ++ w2 ++ w1 ++ w0

/-- Little-endian value of a sequence of bytes. -/
def leValue : List Byte → Nat
  | [] => 0
  | b :: bs => b.toNat + 256 * leValue bs

/-- Decoding of a descriptor carried as bytes: four words in order, each word little-endian, so the whole is one
little-endian number of sixteen bytes (R82). -/
def decodeAudioBytes (bs : List Byte) : Except DecodeError Instr :=
  if bs.length = 16 then decodeA (BitVec.ofNat 128 (leValue bs)) else .error .wrongLength

/-! ## Encoding -/

/-- A format K word from its fields (R81). -/
def wordK (op arg : Byte) : Half := op ++ arg

/-- A format A descriptor from its fields (R82). -/
def descriptorA (op : Byte) (a b c : Word) : Descriptor := c ++ b ++ a ++ (0#24 ++ op)

/-- The encoding of a command by Tables K and A (R83, R84). -/
def encode : Instr → CommandWord
  | .octup => .control (wordK 0x01#8 0)
  | .octdn => .control (wordK 0x02#8 0)
  | .notekey off => .control (wordK 0x03#8 off)
  | .keyother => .control (wordK 0x04#8 0)
  | .keyup => .control (wordK 0x05#8 0)
  | .shutdown => .control (wordK 0x0F#8 0)
  | .fill dest byteLength => .audio (descriptorA 0x10#8 dest byteLength 0)
  | .wrs buf start count => .audio (descriptorA 0x11#8 buf start count)

/-! ## The opcode table's own numbering -/

/-- The word of a table row as it arrives on its port: a row of at most 16 bits is a format K word, a longer one a
format A descriptor whose bits above `nbits` are 0 (R80, R82). -/
def tableCommandWord (nbits w : Nat) : CommandWord :=
  if nbits ≤ 16 then .control (BitVec.ofNat 16 (w % 2 ^ nbits))
  else .audio (BitVec.ofNat 128 (w % 2 ^ nbits))

/-- The instruction the decoder reads from the word of a table row. -/
def decodeTableWord (nbits w : Nat) : Option Instr :=
  match decode (tableCommandWord nbits w) with
  | .ok i => some i
  | .error _ => none

/-! ## Tables K and A as the spec prints them -/

/-- A row of the opcode table: a word selects it when `match = word AND mask` (R83, R84). -/
structure TableRow (n : Nat) where
  mnemonic : String
  pattern : BitVec n
  mask : BitVec n
  deriving DecidableEq, Repr

/-- Table K (R83). -/
def tableK : List (TableRow 16) :=
  [⟨"OCTUP", 0x0100, 0xFFFF⟩, ⟨"OCTDN", 0x0200, 0xFFFF⟩, ⟨"NOTEKEY", 0x0300, 0xFF00⟩,
   ⟨"KEYOTHER", 0x0400, 0xFFFF⟩, ⟨"KEYUP", 0x0500, 0xFFFF⟩, ⟨"SHUTDOWN", 0x0F00, 0xFFFF⟩]

/-- Table A (R84). -/
def tableA : List (TableRow 128) :=
  [⟨"FILL", 0x00000000000000000000000000000010, 0xFFFFFFFF0000000000000000FFFFFFFF⟩,
   ⟨"WRS", 0x00000000000000000000000000000011, 0x000000000000000000000000FFFFFFFF⟩]

/-- The row a word selects. -/
def TableRow.selects {n : Nat} (r : TableRow n) (w : BitVec n) : Bool := decide (w &&& r.mask = r.pattern)

end Sys2Proof
end

