-- ==== Sys2Proof/Machine/Reset.lean ====
section
/-! DEFINITION. The reset event (spec/70_reset_and_hazards.md R260): every register at its reset value, the event stream
empty, the commands in progress abandoned, memory untouched but for the region of an audio command cut short, whose bytes
are then free. -/

namespace Sys2Proof.Machine

/-- The buffer region a descriptor's command names, as its first address and its length; none where it is illegal
(R180, R210). -/
def namedRegion (d : Descriptor) : Option (Nat × Nat) :=
  match decodeA d with
  | .ok (.fill dest byteLength) => some (dest.toNat, byteLength.toNat)
  | .ok (.wrs buf start count) => some (wrsRegion buf start count)
  | _ => none

/-- The region an accepted descriptor's command may write, where it gets that far (R55, R56). -/
def regionOf (w : List Region) (d : Descriptor) : Option (Nat × Nat) :=
  match namedRegion d with
  | some r => if r.1 + r.2 ≤ Config.addrSpace ∧ regionWritable w r.1 r.2 = true then some r else none
  | none => none

/-- The buffer region of the audio command that reset abandons: that of the command in progress (R28), or, where reset
cuts short the first step of the next audio command, that command's. -/
def abandonedRegion (struck : Option Port) (s : State) : Option (Nat × Nat) :=
  if s.fill.busy then some (s.fill.base.toNat, s.fill.byteLength.toNat)
  else if struck = some .audio then
    match s.audioPort with
    | d :: _ => regionOf s.writable d
    | [] => none
  else none

/-- The free bytes of an abandoned region (R260, F3). -/
def abandonedBytes (counter addr len : Nat) : List Byte :=
  (List.range len).map fun k => Config.abandonedByte counter (addr + k)

/-- Memory after reset (R260). -/
def memoryAfterReset (struck : Option Port) (s : State) : Memory :=
  match abandonedRegion struck s with
  | some r => s.mem.store r.1 (abandonedBytes s.freeCount r.1 r.2)
  | none => s.mem

/-- The control port after reset: a command cut short is gone, those not yet accepted wait on. -/
def controlPortAfterReset (struck : Option Port) (s : State) : List Half :=
  if struck = some .control then s.controlPort.tail else s.controlPort

/-- The audio port after reset: a command cut short in its first step is gone (one in progress had left the port). -/
def audioPortAfterReset (struck : Option Port) (s : State) : List Descriptor :=
  if struck = some .audio ∧ s.fill.busy = false then s.audioPort.tail else s.audioPort

/-- The reset event (R36, R260). -/
def resetEvent (struck : Option Port) (s : State) : State :=
  { State.resetOf s.build s.writable with
    mem := memoryAfterReset struck s
    controlPort := controlPortAfterReset struck s
    audioPort := audioPortAfterReset struck s
    schedule := s.schedule
    freeCount := s.freeCount + 1 }

end Sys2Proof.Machine
end

