-- ==== Sys2Proof/Machine/Ports.lean ====
section
/-! DEFINITION. One turn of the schedule (spec/20_memory.md R62, R66, spec/70_reset_and_hazards.md R268): the control port,
the audio port, reset, the issue of a command, and the host's own accesses to the buffer memory (R59). -/

namespace Sys2Proof.Machine

/-- A word or descriptor that matches no row: `IllegalCommand`, and nothing else changes (R87, R231). -/
def illegalCommand (s : State) : State := s.raise .illegalCommand

/-- A turn of the control port: the oldest waiting word is accepted, decoded and executed in one atomic step (R62, R66).
With none waiting the block holds its state (R244). -/
def controlTurn (s : State) : Host.Outcome State Fault Refusal :=
  match s.controlPort with
  | [] => .next s
  | w :: ws =>
    match decodeK w with
    | .ok i => exec i { s with controlPort := ws }
    | .error _ => .next (illegalCommand { s with controlPort := ws })

/-- A turn of the audio port with no command in progress: the oldest waiting descriptor is accepted (R66). -/
def audioAccept (s : State) : Host.Outcome State Fault Refusal :=
  match s.audioPort with
  | [] => .next s
  | d :: ds =>
    match decodeA d with
    | .ok i => exec i { s with audioPort := ds }
    | .error _ => .next (illegalCommand { s with audioPort := ds })

/-- A turn of the audio port: while a command is in progress, its next step, and no other command gets one (R268). -/
def audioTurn (s : State) : Host.Outcome State Fault Refusal :=
  if s.fill.busy then .next (audioContinue s) else audioAccept s

/-- A command word issued on the control port (R66). -/
def issueControl (w : Half) (s : State) : State := { s with controlPort := s.controlPort ++ [w] }

/-- A descriptor issued on the audio port (R66, R268). -/
def issueAudio (d : Descriptor) (s : State) : State := { s with audioPort := s.audioPort ++ [d] }

/-- The buffer regions that belong to the block: each "from the moment an audio command is issued until it completes"
(R59), so that of the command in progress and those of the commands that wait on the audio port. -/
def borrowedRegions (s : State) : List (Nat × Nat) :=
  (if s.fill.busy then [(s.fill.base.toNat, s.fill.byteLength.toNat)] else []) ++ s.audioPort.filterMap namedRegion

/-- The addresses `addr .. addr + len - 1` meet a region. -/
def meets (addr len : Nat) (r : Nat × Nat) : Bool :=
  decide (0 < len ∧ 0 < r.2 ∧ addr < r.1 + r.2 ∧ r.1 < addr + len)

/-- The addresses `addr .. addr + len - 1` meet a borrowed region. -/
def borrowed (s : State) (addr len : Nat) : Bool := (borrowedRegions s).any (meets addr len)

/-- The host reads the buffer memory: nothing changes (R54: no read side effects). -/
def hostRead (addr len : Nat) (s : State) : Host.Outcome State Fault Refusal :=
  if borrowed s addr len then .refused .hostTouchesBorrowedBuffer
  else if addr + len ≤ Config.addrSpace then .next s else .refused .hostOutsideMemory

/-- The host writes the buffer memory. -/
def hostWrite (addr : Nat) (bytes : List Byte) (s : State) : Host.Outcome State Fault Refusal :=
  if borrowed s addr bytes.length then .refused .hostTouchesBorrowedBuffer
  else if addr + bytes.length ≤ Config.addrSpace then .next (s.setMem (s.mem.store addr bytes))
  else .refused .hostOutsideMemory

/-- One turn. -/
def takeTurn (t : Turn) (s : State) : Host.Outcome State Fault Refusal :=
  match t with
  | .control => controlTurn s
  | .audio => audioTurn s
  | .reset struck => .next (resetEvent struck s)
  | .issueControl w => .next (issueControl w s)
  | .issueAudio d => .next (issueAudio d s)
  | .hostRead addr len => hostRead addr len s
  | .hostWrite addr bytes => hostWrite addr bytes s

/-- A command word put on its port, ahead of those that wait there. -/
def placeCommand (s : State) : CommandWord → State
  | .control w => { s with controlPort := w :: s.controlPort, schedule := .control :: s.schedule }
  | .audio d =>
    { s with
      audioPort := d :: s.audioPort
      schedule := .audio :: s.schedule
      fill := if s.fill.busy then FillRecord.idle else s.fill }

end Sys2Proof.Machine
end

