-- ==== Sys2Proof/Machine/Step.lean ====
section
/-! DEFINITION. One step: the next turn of the schedule. The block has no program counter and fetches nothing (R28); a
command comes from its port. -/

namespace Sys2Proof.Machine

/-- One step. With nothing scheduled the block holds its state (R244). -/
def step (s : State) : Host.Outcome State Fault Refusal :=
  match s.schedule with
  | [] => .next s
  | t :: ts => takeTurn t { s with schedule := ts }

/-- `s` with the word of a table row waiting first on its port, that port's turn next, and the audio port idle where the
word is a descriptor, so that the next step accepts and runs exactly it (log entry 10). -/
def State.withFetchWord (s : State) (nbits w : Nat) : State := placeCommand s (tableCommandWord nbits w)

end Sys2Proof.Machine
end

