-- ==== Sys2Proof/Safety.lean ====
section
/-! DEFINITION. What counts as a safe state, and the invariants of the block that the spec states, in the terms the
statements use. -/

namespace Sys2Proof.Machine

/-- Not gone wrong: "every claim about the block takes `fault = 0` as a premise and should show it preserved" (R26,
R232). -/
abbrev State.clean (s : State) : Prop := s.fault = 0

/-- The Note Controller's reachable states (R163): `octave` in `[0, 6]`, and `note` 0 or in `[12, 40 + 12 * octave]`. -/
abbrev State.controllerInv (s : State) : Prop :=
  0 ≤ s.octave.toInt ∧ s.octave.toInt ≤ Config.octaveMax ∧
    (s.note.toInt = 0 ∨
      (Config.minNote ≤ s.note.toInt ∧ s.note.toInt ≤ Config.keyOffMax + 12 * s.octave.toInt))

/-- A binary64 value in `[0, N)` (R24, R193). -/
abbrev inTable (a : F64) : Prop :=
  isFinite a = true ∧ 0 ≤ units a ∧ units a < (Config.tableLen : Int) * unitsPerOne

/-- The phase invariants (R24, R25, R35 a and b, R193): `0 <= acc < N` and `idx = ffloor(acc)`. -/
abbrev State.phaseInv (s : State) : Prop := inTable s.acc ∧ ffloor s.acc = some s.idx.toInt

/-- What the transient record says (R28, R62): idle, or a `FILL` whose region passed the checks of step Z, before step C
or between two chunks. The idle record's zeros, the `FILL` alone, and the test of the whole region are the model's (log
entries 7, 18 and 14). -/
abbrev State.fillInv (s : State) : Prop :=
  (s.fill.busy = false → s.fill = FillRecord.idle) ∧
  (s.fill.busy = true →
    s.fill.kind = .fill ∧ fillInRange s.fill.base s.fill.byteLength ∧
    regionWritable s.writable s.fill.base.toNat s.fill.byteLength.toNat = true ∧
    (s.fill.checked = false → s.fill.frames = 0 ∧ s.fill.cursor = 0) ∧
    (s.fill.checked = true →
      s.fill.byteLength.toNat = Config.frameBytes * s.fill.frames ∧ s.fill.cursor < s.fill.frames ∧
      s.fill.cursor % Config.chunk = 0))

/-- Every invariant together. -/
abbrev State.inv (s : State) : Prop :=
  s.mem.wf ∧ s.controllerInv ∧ s.phaseInv ∧ s.fillInv

/-- The turns the audio command in progress still needs (R222): step C and one per chunk. -/
def turnsLeft (r : FillRecord) : Nat :=
  if r.busy then
    if r.checked then (r.frames - r.cursor + (Config.chunk - 1)) / Config.chunk
    else 1 + (r.byteLength.toNat / Config.frameBytes + (Config.chunk - 1)) / Config.chunk
  else 0

/-- The phase after `k` frame steps of increment `inc` (R183, R184, R191). -/
def phaseAfter (inc : F64) : Nat → F64 → F64
  | 0, acc => acc
  | k + 1, acc => phaseAfter inc k (advancePhase inc acc)

/-- The sample of frame `f` of a run of frames that starts at phase `acc`: read at the phase after `f + 1` advances
(R183, R185, R186); none where the index is out of range (R188). -/
def sampleOfFrame (inc acc : F64) (f : Nat) : Option Int :=
  (lookupEntry (phaseIndex (phaseAfter inc (f + 1) acc))).map attenuate

/-- Byte `j` of a frame that holds the sample `v` twice, little-endian (R51, R52, R187). -/
def sampleByte (v : Int) (j : Nat) : Byte :=
  if j % 2 = 0 then (s16 v).extractLsb' 0 8 else (s16 v).extractLsb' 8 8

/-- A command's operands are legal when it executes (R86, R230): nothing in it can then raise a fault. -/
def operandsLegal : Instr → Bool
  | .fill dest byteLength =>
    decide (fillInRange dest byteLength) && decide (byteLength.toNat % Config.frameBytes = 0)
  | .wrs buf start count => decide (wrsInRange buf start count)
  | .octup => true
  | .octdn => true
  | .notekey off => decide (legalOffset off)
  | .keyother => true
  | .keyup => true
  | .shutdown => true

end Sys2Proof.Machine
end

