-- ==== Sys2Proof/Certificates/Slice0/Obligations.lean ====
section
/-! DEFINITION. The statements for the provers, each `def Obligations.<Name> : Prop`. A statement about an instruction is an
equation for what `exec` answers, so it says the result, the frame and that the instruction completes at once; a statement
about memory is said through `Memory.read`. -/

open Sys2Proof
open Sys2Proof.Machine

/-! ## Reset -/

/-- R36: the values every register has after the reset event, from any state, on any build, whichever command it cuts
short. `octave` is `OCTAVE_RESET`, any integer in `[0, 6]`. With no command in progress and none cut short, memory is not
touched. -/
def Obligations.ResetGivesTheResetValues : Prop :=
  ∀ (s : State) (struck : Option Port),
    let t := resetEvent struck s
    t.note = 0 ∧ t.octave.toInt = (s.build.params.octaveReset.val : Int) ∧
    0 ≤ t.octave.toInt ∧ t.octave.toInt ≤ 6 ∧
    t.acc = 0#64 ∧ units t.acc = 0 ∧ signBit t.acc = false ∧
    t.idx = 0 ∧ t.fault = 0 ∧ t.shut = false ∧ t.fill.busy = false ∧ t.events = [] ∧
    (s.fill.busy = false → struck ≠ some .audio → t.mem = s.mem)

/-- R260: reset, wherever it falls, changes no byte outside the buffer region of the audio command it abandons: that of the
command in progress, `fill.base .. fill.base + byte_length - 1`, or, where it cuts short the first step of the next audio
command, that command's; with neither, no byte. It keeps the build and the launch memory. Derived: what waits on the ports stays there, less
the command cut short (the control port's oldest word, or the audio port's oldest descriptor where none is in progress),
which is the model's choice (log entry 5). -/
def Obligations.ResetTouchesOnlyTheAbandonedRegion : Prop :=
  ∀ (s : State) (struck : Option Port) (ts : List Turn), s.schedule = .reset struck :: ts →
    ∃ t, step s = .next t ∧ t.schedule = ts ∧ t.build = s.build ∧ t.writable = s.writable ∧
      (struck = none → t.controlPort = s.controlPort ∧ t.audioPort = s.audioPort) ∧
      (struck = some .control → t.controlPort = s.controlPort.tail ∧ t.audioPort = s.audioPort) ∧
      (struck = some .audio → t.controlPort = s.controlPort ∧
        t.audioPort = if s.fill.busy then s.audioPort else s.audioPort.tail) ∧
      (s.fill.busy = true → ∀ a,
        a < s.fill.base.toNat ∨ s.fill.base.toNat + s.fill.byteLength.toNat ≤ a → t.mem.read a = s.mem.read a) ∧
      (s.fill.busy = false → ∀ a,
        (∀ d ds r, struck = some .audio → s.audioPort = d :: ds → regionOf s.writable d = some r →
          a < r.1 ∨ r.1 + r.2 ≤ a) → t.mem.read a = s.mem.read a)

/-- Every invariant holds right after reset, for every build and every launch memory (R36, R163, R193); `State.reset` is
one of these states, with the model's choice of octave and of launch memory (log entries 6 and 9). The idle record's zeros
are log entry 7's. -/
def Obligations.InvariantsHoldAtReset : Prop :=
  (∀ (b : Build) (w : List Region), (State.resetOf b w).inv ∧ (State.resetOf b w).clean) ∧
  State.reset = State.resetOf Build.default [{ base := 0, size := 2 ^ 32 }]

/-! ## Encoding -/

/-- Decoding the encoding of a well-formed command gives it back, with every operand at every value (R81 to R85). -/
def Obligations.DecodeOfEncode : Prop :=
  ∀ i : Instr, i.wellFormed = true → decode (encode i) = .ok i

/-- A word decodes only to a well-formed command that encodes to that very word: no bit of an encoding is dropped. -/
def Obligations.EncodeOfDecode : Prop :=
  ∀ (w : CommandWord) (i : Instr), decode w = .ok i → i.wellFormed = true ∧ encode i = w

/-- R83: a format K word selects the command of the row of Table K whose `match` equals `word AND mask`; `NOTEKEY` takes its
operand from bits 7:0 and needs it in `12 .. 40`. At most one row is selected. -/
def Obligations.ControlOpcodeTable : Prop :=
  (∀ (w : Half) (m : String),
    (∃ i, decodeK w = .ok i ∧ i.mnemonic = m) ↔
      ∃ r ∈ tableK, r.selects w = true ∧ r.mnemonic = m ∧
        (m = "NOTEKEY" → 12 ≤ (w.setWidth 8).toNat ∧ (w.setWidth 8).toNat ≤ 40)) ∧
  (∀ (w : Half) (off : Byte), decodeK w = .ok (.notekey off) → off = w.setWidth 8) ∧
  (∀ r₁ ∈ tableK, ∀ r₂ ∈ tableK, ∀ w : Half, r₁.selects w = true → r₂.selects w = true → r₁ = r₂)

/-- R84: a format A descriptor selects the command of the row of Table A whose `match` equals `AD AND mask`; the operands
are the fields `A`, `B`, `C` of R82. At most one row is selected. -/
def Obligations.AudioOpcodeTable : Prop :=
  (∀ (d : Descriptor) (m : String),
    (∃ i, decodeA d = .ok i ∧ i.mnemonic = m) ↔ ∃ r ∈ tableA, r.selects d = true ∧ r.mnemonic = m) ∧
  (∀ (d : Descriptor) (dest len : Word), decodeA d = .ok (.fill dest len) →
    dest.toNat = d.toNat / 2 ^ 32 % 2 ^ 32 ∧ len.toNat = d.toNat / 2 ^ 64 % 2 ^ 32) ∧
  (∀ (d : Descriptor) (buf start count : Word), decodeA d = .ok (.wrs buf start count) →
    buf.toNat = d.toNat / 2 ^ 32 % 2 ^ 32 ∧ start.toNat = d.toNat / 2 ^ 64 % 2 ^ 32 ∧
    count.toNat = d.toNat / 2 ^ 96) ∧
  (∀ r₁ ∈ tableA, ∀ r₂ ∈ tableA, ∀ d : Descriptor, r₁.selects d = true → r₂.selects d = true → r₁ = r₂)

/-- R94: the worked encodings, written out from the spec. -/
def Obligations.WorkedEncodings : Prop :=
  decodeK 0x0315 = .ok (.notekey 21) ∧ decodeK 0x0100 = .ok .octup ∧ decodeK 0x0F00 = .ok .shutdown ∧
  decodeA (descriptorOfWords 0x00000010 0x00001000 0x00000200 0x00000000) = .ok (.fill 0x1000 512) ∧
  descriptorOfWords 0x00000010 0x00001000 0x00000200 0x00000000 = 0x00000000000002000000100000000010#128 ∧
  decodeA (descriptorOfWords 0x00000011 0x00001000 0x00000000 0x00000080) = .ok (.wrs 0x1000 0 128) ∧
  decodeK 0x0329 = .error .offsetOutOfRange

/-- R87: which words and descriptors are illegal, and what the block does with one: `IllegalCommand` sets bit 2 of
`fault`, nothing else changes but the command being gone from its port, and it completes. -/
def Obligations.IllegalEncodings : Prop :=
  (∀ w : Half, (∀ i, decodeK w ≠ .ok i) ↔
    (opK w ∉ [0x01#8, 0x02#8, 0x03#8, 0x04#8, 0x05#8, 0x0F#8] ∨ (opK w ≠ 0x03#8 ∧ argK w ≠ 0) ∨
      (opK w = 0x03#8 ∧ ((argK w).toNat < 12 ∨ 40 < (argK w).toNat)))) ∧
  (∀ d : Descriptor, (∀ i, decodeA d ≠ .ok i) ↔
    (opA d ∉ [0x10#8, 0x11#8] ∨ zeroA d ≠ 0 ∨ (opA d = 0x10#8 ∧ fieldC d ≠ 0))) ∧
  (∀ (s : State) (ts : List Turn) (w : Half) (ws : List Half),
    s.schedule = .control :: ts → s.controlPort = w :: ws → (∀ i, decodeK w ≠ .ok i) →
    step s = .next { s with schedule := ts, controlPort := ws, fault := s.fault ||| 0b100#3 }) ∧
  (∀ (s : State) (ts : List Turn) (d : Descriptor) (ds : List Descriptor),
    s.schedule = .audio :: ts → s.fill.busy = false → s.audioPort = d :: ds → (∀ i, decodeA d ≠ .ok i) →
    step s = .next { s with schedule := ts, audioPort := ds, fault := s.fault ||| 0b100#3 })

/-! ## A step runs the decoded command -/

/-- On a turn of the control port, the oldest waiting word is accepted, and where it decodes the step is `exec` of what it
decodes to (R62, R66). -/
def Obligations.ControlTurnRunsTheDecodedCommand : Prop :=
  ∀ (s : State) (ts : List Turn) (w : Half) (ws : List Half) (i : Instr),
    s.schedule = .control :: ts → s.controlPort = w :: ws → decodeK w = .ok i →
    step s = exec i { s with schedule := ts, controlPort := ws }

/-- On a turn of the audio port with no command in progress, the oldest waiting descriptor is accepted, and where it
decodes the step is `exec` of what it decodes to (R62, R66). -/
def Obligations.AudioTurnRunsTheDecodedCommand : Prop :=
  ∀ (s : State) (ts : List Turn) (d : Descriptor) (ds : List Descriptor) (i : Instr),
    s.schedule = .audio :: ts → s.fill.busy = false → s.audioPort = d :: ds → decodeA d = .ok i →
    step s = exec i { s with schedule := ts, audioPort := ds }

/-- R268: while an audio command is in progress, a turn of the audio port is the next step of that command, and a
descriptor waiting on the port stays there. -/
def Obligations.BusyAudioPortAcceptsNothing : Prop :=
  ∀ (s : State) (ts : List Turn), s.schedule = .audio :: ts → s.fill.busy = true →
    step s = .next (audioContinue { s with schedule := ts }) ∧
    (audioContinue { s with schedule := ts }).audioPort = s.audioPort

/-- R244: with nothing scheduled, or with nothing waiting on the port whose turn it is, the block holds its state. Derived:
the schedule as an input is the model's form (log entry 11). -/
def Obligations.IdleBlockHoldsItsState : Prop :=
  ∀ s : State,
    (s.schedule = [] → step s = .next s) ∧
    (∀ ts, s.schedule = .control :: ts → s.controlPort = [] → step s = .next { s with schedule := ts }) ∧
    (∀ ts, s.schedule = .audio :: ts → s.fill.busy = false → s.audioPort = [] →
      step s = .next { s with schedule := ts })

/-! ## The note controller -/

/-- R150: `OCTUP` in every state: below the maximum, `octave` goes up by one and `note` to `min(note + 12, 131)`; at the
maximum both keep their values; the new octave is reported in both cases; nothing else changes, no flag and no fault. The
word is `0x0100`. With `note = 0` below the maximum the voice turns on at 12; the upper clamp takes no effect in a
reachable state; and the spec's example. -/
def Obligations.OctaveUp : Prop :=
  (∀ s : State, ∃ o n : Word,
    exec .octup s = .next { s with octave := o, note := n, events := s.events ++ [.octaveReport .up o] } ∧
    (s.octave.toInt < 6 → o.toInt = s.octave.toInt + 1 ∧ n.toInt = min (s.note.toInt + 12) 131 ∧
      (s.note = 0 → n.toInt = 12) ∧
      (s.controllerInv → n.toInt = s.note.toInt + 12)) ∧
    (6 ≤ s.octave.toInt → o = s.octave ∧ n = s.note) ∧
    (s.octave = 2 → s.note = 45 → o = 3 ∧ n = 57)) ∧
  decodeK 0x0100 = .ok .octup

/-- R151: `OCTDN` in every state: above the minimum, `octave` goes down by one and `note` to `max(note - 12, 12)`; at the
minimum both keep their values; the new octave is reported in both cases; nothing else changes, no flag and no fault. The
word is `0x0200`. With `note = 0` above the minimum the voice turns on at 12; where the clamp takes effect and the spec's
examples of it; and `OCTDN` then `OCTUP` from `octave = 1, note = 20` ends at note 24. -/
def Obligations.OctaveDown : Prop :=
  (∀ s : State, ∃ o n : Word,
    exec .octdn s = .next { s with octave := o, note := n, events := s.events ++ [.octaveReport .down o] } ∧
    (0 < s.octave.toInt →
      o.toInt = s.octave.toInt - 1 ∧ n.toInt = max (s.note.toInt - 12) 12 ∧ (s.note = 0 → n.toInt = 12)) ∧
    (s.octave.toInt ≤ 0 → o = s.octave ∧ n = s.note) ∧
    (s.octave = 6 → s.note = 12 → o = 5 ∧ n = 12) ∧
    (s.octave = 1 → s.note = 20 → o = 0 ∧ n = 12) ∧
    (s.octave = 4 → s.note = 69 → o = 3 ∧ n = 57)) ∧
  (∀ s t : State, s.octave = 1 → s.note = 20 → exec .octdn s = .next t →
    ∃ u, exec .octup t = .next u ∧ u.octave = 1 ∧ u.note = 24) ∧
  decodeK 0x0200 = .ok .octdn

/-- R152: `NOTEKEY off` in every state: `note` becomes `off + 12 * octave` with no clamp, whatever it was; the report
carries the new `note` and `PITCH` of it; nothing else changes (`octave`, `acc` and `idx` among them), no flag and no
fault. Where the integer does not fit the 32-bit register, which R21 excludes of reachable states, the command completes
the same way with a free value in `note` (the model's choice, log entry 3). For a legal operand in a reachable state the
result lies in `[12, 112]`. The same key again writes the same value and emits the report again. The word is
`0x0300 + off`. -/
def Obligations.NoteKey : Prop :=
  (∀ (s : State) (off : Byte), ∃ n : Word,
    exec (.notekey off) s =
      .next { s with note := n, events := s.events ++ [.noteReport n (PITCH s.build.params n.toInt)] } ∧
    (-2 ^ 31 ≤ (off.toNat : Int) + 12 * s.octave.toInt → (off.toNat : Int) + 12 * s.octave.toInt < 2 ^ 31 →
      n.toInt = off.toNat + 12 * s.octave.toInt) ∧
    (s.controllerInv → legalOffset off → 12 ≤ n.toInt ∧ n.toInt ≤ 112) ∧
    (s.octave = 3 → off = 21 → n = 57 ∧ PITCH s.build.params n.toInt = 0x407B800000000000#64) ∧
    (s.octave = 6 → off = 40 → n = 112) ∧
    (∀ e, e = Event.noteReport n (PITCH s.build.params n.toInt) →
      exec (.notekey off) { s with note := n, events := s.events ++ [e] } =
        .next { s with note := n, events := s.events ++ [e] ++ [e] })) ∧
  (∀ off : Byte, decodeK (BitVec.ofNat 16 (0x0300 + off.toNat)) = .ok (.notekey off) ↔
    12 ≤ off.toNat ∧ off.toNat ≤ 40)

/-- R153 and R154: `KEYOTHER` and `KEYUP` complete and change nothing at all: no register, no event, no fault, and the
voice stays on. The words are `0x0400` and `0x0500`. -/
def Obligations.OtherKeysAndReleasesDoNothing : Prop :=
  (∀ s : State, exec .keyother s = .next s ∧ exec .keyup s = .next s) ∧
  decodeK 0x0400 = .ok .keyother ∧ decodeK 0x0500 = .ok .keyup

/-- R219: `SHUTDOWN` sets `shut` and touches nothing else; issuing it again changes nothing; and once it is set no step but
reset clears it. The word is `0x0F00`. -/
def Obligations.ShutdownSetsTheFlag : Prop :=
  (∀ s : State, exec .shutdown s = .next { s with shut := true }) ∧
  (∀ s t : State, exec .shutdown s = .next t → exec .shutdown t = .next t) ∧
  (∀ (s t : State) (u : Turn) (ts : List Turn), s.schedule = u :: ts → (∀ p, u ≠ .reset p) → step s = .next t →
    s.shut = true → t.shut = true) ∧
  decodeK 0x0F00 = .ok .shutdown

/-- R157: the controller accepts commands in every state, also after `SHUTDOWN`: a control command answers the same next
state whatever `shut` is, but for `shut` itself. -/
def Obligations.ShutdownDoesNotDisableTheControlPort : Prop :=
  ∀ (s : State) (i : Instr), i.port = .control →
    ∃ t, exec i s = .next t ∧ exec i { s with shut := true } = .next { t with shut := true }

/-- R163: the reachable set of the controller is kept by every step, whatever its turn: `0 <= octave <= 6`, and `note` is 0
or in `[12, 40 + 12 * octave]`. -/
def Obligations.ControllerRangeIsKept : Prop :=
  ∀ s t : State, s.controllerInv → step s = .next t → t.controllerInv

/-- R163: every value of `{0} ∪ [12, 112]` occurs: 0 at reset, and each note of `[12, 112]` after one legal note key from a
reset state with some `OCTAVE_RESET`. -/
def Obligations.EveryNoteOfTheRangeOccurs : Prop :=
  (∀ (b : Build) (w : List Region), (State.resetOf b w).note.toInt = 0) ∧
  ∀ n : Int, 12 ≤ n → n ≤ 112 → ∃ (b : Build) (off : Byte) (t : State), legalOffset off ∧
    exec (.notekey off) (State.resetOf b []) = .next t ∧ t.note.toInt = n

/-- R163, R272: once the voice is on in a reachable state, no step but reset turns it off. -/
def Obligations.VoiceNeverTurnsOffByItself : Prop :=
  ∀ (s t : State) (u : Turn) (ts : List Turn), s.schedule = u :: ts → (∀ p, u ≠ .reset p) →
    s.controllerInv → 0 < s.note.toInt → step s = .next t → 0 < t.note.toInt

/-- R32: the event stream is append-only but for reset, and only a control turn appends, at most one event. -/
def Obligations.EventStreamIsAppendOnly : Prop :=
  ∀ (s t : State) (u : Turn) (ts : List Turn), s.schedule = u :: ts → step s = .next t →
    (u = .control → t.events = s.events ∨ ∃ e, t.events = s.events ++ [e]) ∧
    (u ≠ .control → (∀ p, u ≠ .reset p) → t.events = s.events)

/-! ## The binary64 functions, the pitch mapper and the wavetable -/

/-- R14: `fadd`, `fsub`, `fmul` and `fdiv` of finite values round the exact result to nearest: where it is not above the
largest finite magnitude the result is finite, no finite value is nearer, and of two equally near values the one with an
even fraction is taken. Values are in units of `2^-1074`; products and quotients are compared after multiplying out. Derived: R14 gives no rule where
an operand or the result is subnormal; that those are rounded like the others is the model's choice (log entry 13). -/
def Obligations.ArithmeticRoundsToNearestEven : Prop :=
  let M : Int := magOfBits (2047 * 2 ^ 52 - 1)
  let U : Int := unitsPerOne
  ∀ a b c : F64, isFinite a = true → isFinite b = true → isFinite c = true →
    (|units a + units b| ≤ M →
      isFinite (fadd a b) = true ∧
      |units (fadd a b) - (units a + units b)| ≤ |units c - (units a + units b)| ∧
      (|units (fadd a b) - (units a + units b)| = |units c - (units a + units b)| →
        units c ≠ units (fadd a b) → (fadd a b).toNat % 2 = 0)) ∧
    (|units a - units b| ≤ M →
      isFinite (fsub a b) = true ∧
      |units (fsub a b) - (units a - units b)| ≤ |units c - (units a - units b)| ∧
      (|units (fsub a b) - (units a - units b)| = |units c - (units a - units b)| →
        units c ≠ units (fsub a b) → (fsub a b).toNat % 2 = 0)) ∧
    (|units a * units b| ≤ M * U →
      isFinite (fmul a b) = true ∧
      |units (fmul a b) * U - units a * units b| ≤ |units c * U - units a * units b| ∧
      (|units (fmul a b) * U - units a * units b| = |units c * U - units a * units b| →
        units c ≠ units (fmul a b) → (fmul a b).toNat % 2 = 0)) ∧
    (units b ≠ 0 → |units a| * U ≤ M * |units b| →
      isFinite (fdiv a b) = true ∧
      |units (fdiv a b) * units b - units a * U| ≤ |units c * units b - units a * U| ∧
      (|units (fdiv a b) * units b - units a * U| = |units c * units b - units a * U| →
        units c ≠ units (fdiv a b) → (fdiv a b).toNat % 2 = 0))

/-- R14: `fge` compares and `ffloor` floors the exact values, and `f64(k)` is exact for every integer `k` with
`|k| <= 2^53`. -/
def Obligations.ComparisonFloorAndConversionAreExact : Prop :=
  (∀ a b : F64, isFinite a = true → isFinite b = true → (fge a b = true ↔ units b ≤ units a)) ∧
  (∀ a : F64, isFinite a = true →
    ∃ k : Int, ffloor a = some k ∧ ∀ j : Int, j ≤ k ↔ j * unitsPerOne ≤ units a) ∧
  (∀ k : Int, |k| ≤ 2 ^ 53 → isFinite (f64 k) = true ∧ units (f64 k) = k * unitsPerOne)

/-- R110: the wavetable is the sine: every entry is within one half of `32767 * sin(2πi/1024)`, which has no tie (R111),
so it is the nearest integer; and there is no entry at or above `N`. -/
def Obligations.WavetableIsTheRoundedSine : Prop :=
  (∀ i : Nat, i < 1024 → ∃ w : Int, wave? i = some w ∧
    |(w : ℝ) - 32767 * Real.sin (2 * Real.pi * i / 1024)| < 1 / 2) ∧
  (∀ i : Nat, 1024 ≤ i → wave? i = none) ∧ wave? 0 = some 0

/-- R112 (a) to (h): the table's zero and peak entries, its range, its symmetries, that it rises strictly on `[0, 256]`,
its sum and the sum of its magnitudes. -/
def Obligations.WavetableSymmetriesAndSums : Prop :=
  wave? 0 = some 0 ∧ wave? 256 = some 32767 ∧ wave? 512 = some 0 ∧ wave? 768 = some (-32767) ∧
  (∀ i < 1024, ∃ w, wave? i = some w ∧ -32767 ≤ w ∧ w ≤ 32767) ∧
  (∀ i < 512, wave? (i + 512) = (wave? i).map (fun w => -w)) ∧
  (∀ i ≤ 256, wave? (512 - i) = wave? i) ∧
  (∀ i < 1024, wave? ((1024 - i) % 1024) = (wave? i).map (fun w => -w)) ∧
  (∀ i < 256, ∃ w w', wave? i = some w ∧ wave? (i + 1) = some w' ∧ w < w') ∧
  ((List.range 1024).filterMap wave?).sum = 0 ∧
  (((List.range 1024).filterMap wave?).map Int.natAbs).sum = 21360666

/-- R132: `PITCH` of every build is positive and finite at every integer, and has the properties P1, P2 and P3 (P4 is that it
is a function of the build and the note). -/
def Obligations.PitchHasItsNamedProperties : Prop :=
  ∀ b : Build,
    (∀ n : Int, isFinite (PITCH b.params n) = true ∧ 0 < units (PITCH b.params n)) ∧
    PITCH b.params 57 = 0x407B800000000000#64 ∧ units (PITCH b.params 57) = 440 * unitsPerOne ∧
    (∀ n : Int, 1 ≤ n → n ≤ 131 →
      |(units (PITCH b.params n) : ℝ) / unitsPerOne - 440 * (2 : ℝ) ^ (((n : ℝ) - 57) / 12)| ≤
        1 / 10 ^ 12 * (440 * (2 : ℝ) ^ (((n : ℝ) - 57) / 12))) ∧
    (∀ n m : Int, 1 ≤ n → n < m → m ≤ 131 → units (PITCH b.params n) < units (PITCH b.params m))

/-- R132, R134: the default instance is correctly rounded wherever its value is a normal number: no finite binary64 value
is nearer to `440 * 2^((n-57)/12)`. -/
def Obligations.DefaultPitchIsCorrectlyRounded : Prop :=
  ∀ (n : Int) (c : F64), -1026 ≤ n / 12 → n / 12 ≤ 1019 → isFinite c = true →
    isFinite (defaultPitch n) = true ∧
    |(units (defaultPitch n) : ℝ) / unitsPerOne - 440 * (2 : ℝ) ^ (((n : ℝ) - 57) / 12)| ≤
      |(units c : ℝ) / unitsPerOne - 440 * (2 : ℝ) ^ (((n : ℝ) - 57) / 12)|

/-- R133: in the default instance an octave up is exactly twice the pitch, `PITCH(69) = 880` and `PITCH(45) = 220`. -/
def Obligations.DefaultPitchDoublesPerOctave : Prop :=
  (∀ n : Int, -1026 ≤ n / 12 → n / 12 ≤ 1018 → units (defaultPitch (n + 12)) = 2 * units (defaultPitch n)) ∧
  defaultPitch 69 = 0x408B800000000000#64 ∧ defaultPitch 45 = 0x406B800000000000#64

/-- R134: the `PINC` column of the table for the default build: the fraction fields of `PINC(5) .. PINC(16)` as the table
prints them serve every row, one binary exponent up per octave. -/
def Obligations.DefaultIncrementTable : Prop :=
  ∀ k : Nat, k < 131 →
    PINC defaultParams ((k : Int) + 1) = BitVec.ofNat 64 ((1021 + (k + 8) / 12) * 2 ^ 52 +
      [0x037d7325dcb18, 0x12eb8ce9809c7, 0x2344894a147ad, 0x34965fd4fcf00, 0x46efdcb4a6b82, 0x5a60ad550b6e3,
       0x6ef96dc8aa649, 0x84cbb6f967329, 0x9bea2db16dcd1, 0xb4689288f4908, 0xce5bd2c6782d2, 0xe9da1a3fdc908].getD
        ((k + 8) % 12) 0)

/-- R138: for any `PITCH` with the named properties and `SAMPLE_RATE = 44100`, `0 < PINC(n) < N` for every note of
`[1, 131]`. -/
def Obligations.IncrementBelowTableLength : Prop :=
  ∀ (p : BuildParams) (n : Int), p.sampleRate = 44100 → pitchP1 p = true → pitchP2 p = true → pitchP3 p = true →
    1 ≤ n → n ≤ 131 →
    isFinite (PINC p n) = true ∧ 0 < units (PINC p n) ∧ units (PINC p n) < 1024 * (unitsPerOne : Int)

/-! ## The oscillator -/

/-- R186: the attenuation is `3 * s / 10` truncated toward zero, is the truncation of the binary64 product by 0.3 for every
16-bit `s`, and stays in `[-9830, 9830]` for them; and the rule's examples. -/
def Obligations.AttenuationTruncatesTheExactProduct : Prop :=
  (∀ s : Int, 0 ≤ s → attenuate s = 3 * s / 10 ∧ attenuate (-s) = -(3 * s / 10)) ∧
  (∀ s : Int, -32768 ≤ s → s ≤ 32768 →
    attenuate s = Int.tdiv (units (fmul (f64 s) 0x3FD3333333333333#64)) unitsPerOne) ∧
  (∀ s : Int, -32768 ≤ s → s ≤ 32767 → -9830 ≤ attenuate s ∧ attenuate s ≤ 9830) ∧
  [2009, -2611, 32767, -32767, 3, -3].map attenuate = [602, -783, 9830, -9830, 0, 0]

/-- R193: the wrap is correct: from a phase in `[0, N)` and an increment in `(0, N)`, the phase after one frame step is in
`[0, N)`, the index is its floor and is in `[0, N - 1]`, and the wrap subtracts `N` exactly from the rounded sum when, and
only when, that is `N` or more. How a subnormal phase or increment, which no run meets, is added is the model's choice (log
entry 13). -/
def Obligations.WrapKeepsThePhaseInTheTable : Prop :=
  ∀ acc inc : F64, inTable acc → inTable inc → 0 < units inc →
    inTable (advancePhase inc acc) ∧
    ffloor (advancePhase inc acc) = some (phaseIndex (advancePhase inc acc)).toInt ∧
    0 ≤ (phaseIndex (advancePhase inc acc)).toInt ∧ (phaseIndex (advancePhase inc acc)).toInt ≤ 1023 ∧
    isFinite (fadd acc inc) = true ∧
    units (advancePhase inc acc) =
      if 1024 * (unitsPerOne : Int) ≤ units (fadd acc inc) then units (fadd acc inc) - 1024 * unitsPerOne
      else units (fadd acc inc)

/-- R193, R24, R25: every step, whatever its turn, keeps `0 <= acc < N` and `idx = ffloor(acc)`, in the controller's
reachable states. How a subnormal phase, which no run meets, is added is the model's choice (log entry 13). -/
def Obligations.PhaseInvariantIsKept : Prop :=
  ∀ s t : State, s.controllerInv → s.phaseInv → step s = .next t → t.phaseInv

/-- R180, R183 to R189: `WRS` with the voice on completes; frame `f` of the run holds the sample read after `f + 1`
advances of the phase, little-endian in both slots, or is left as it was where the index is out of range; every other byte
reads as before; `acc` has advanced by `count` frame steps and `idx` is its index; nothing else changes. `note` is read
once, so one increment serves every frame. -/
def Obligations.WriteSamplesVoiced : Prop :=
  ∀ (s : State) (buf start count : Word), 0 < s.note.toInt → wrsInRange buf start count →
    regionWritable s.writable (buf.toNat + 4 * start.toNat) (4 * count.toNat) = true →
    ∃ t, exec (.wrs buf start count) s = .next t ∧
      t = { s with acc := t.acc, idx := t.idx, mem := t.mem } ∧
      t.acc = phaseAfter (PINC s.build.params s.note.toInt) count.toNat s.acc ∧
      (count = 0 → t.idx = s.idx ∧ t.mem = s.mem) ∧ (count ≠ 0 → t.idx = phaseIndex t.acc) ∧
      (∀ f < count.toNat, ∀ j < 4,
        t.mem.read (buf.toNat + 4 * (start.toNat + f) + j) =
          match sampleOfFrame (PINC s.build.params s.note.toInt) s.acc f with
          | some v => some (sampleByte v j)
          | none => s.mem.read (buf.toNat + 4 * (start.toNat + f) + j)) ∧
      (∀ a, a < buf.toNat + 4 * start.toNat ∨ buf.toNat + 4 * (start.toNat + count.toNat) ≤ a →
        t.mem.read a = s.mem.read a)

/-- R185, R193: in a reachable state with the voice on no frame is skipped, and every sample lies in `[-9830, 9830]`. -/
def Obligations.NoFrameIsSkipped : Prop :=
  ∀ (s : State) (f : Nat), s.controllerInv → s.phaseInv → 0 < s.note.toInt →
    ∃ v, sampleOfFrame (PINC s.build.params s.note.toInt) s.acc f = some v ∧ -9830 ≤ v ∧ v ≤ 9830

/-- R181: `WRS` with the voice off completes at once and changes nothing. -/
def Obligations.WriteSamplesVoiceOff : Prop :=
  ∀ (s : State) (buf start count : Word), s.note.toInt ≤ 0 → wrsInRange buf start count →
    regionWritable s.writable (buf.toNat + 4 * start.toNat) (4 * count.toNat) = true →
    exec (.wrs buf start count) s = .next s

/-- R190: `WRS` raises `AddrFault`, and does nothing else, when `buf + 4 * (start + count) > 2^32`; inside the range it
leaves `fault` alone. -/
def Obligations.WriteSamplesAddressFault : Prop :=
  ∀ (s : State) (buf start count : Word),
    (2 ^ 32 < buf.toNat + 4 * (start.toNat + count.toNat) →
      exec (.wrs buf start count) s = .next { s with fault := s.fault ||| 0b010#3 }) ∧
    (buf.toNat + 4 * (start.toNat + count.toNat) ≤ 2 ^ 32 → ∀ t, exec (.wrs buf start count) s = .next t →
      t.fault = s.fault)

/-- R191: a `WRS` of `c1 + c2` frames is a `WRS` of `c1` frames and then one of `c2` frames further on: the same `acc`,
`idx`, memory and everything else. -/
def Obligations.SplitEqualsWhole : Prop :=
  ∀ (s t : State) (buf start c1 c2 : Word), start.toNat + c1.toNat + c2.toNat < 2 ^ 32 →
    wrsInRange buf start (c1 + c2) → exec (.wrs buf start (c1 + c2)) s = .next t →
    ∃ u, exec (.wrs buf start c1) s = .next u ∧ exec (.wrs buf (start + c1) c2) u = .next t

/-! ## The audio callback -/

/-- R210, R211: step Z of `FILL` in range completes: every byte of the buffer reads as zero, every other byte as before,
and the command is in progress with its operands; nothing else changes. -/
def Obligations.FillZeroesTheBuffer : Prop :=
  ∀ (s : State) (dest len : Word), fillInRange dest len →
    regionWritable s.writable dest.toNat len.toNat = true →
    ∃ t, exec (.fill dest len) s = .next t ∧ t = { s with mem := t.mem, fill := t.fill } ∧
      t.fill.busy = true ∧ t.fill.kind = .fill ∧ t.fill.base = dest ∧ t.fill.byteLength = len ∧
      t.fill.cursor = 0 ∧ t.fill.checked = false ∧
      (∀ a, dest.toNat ≤ a → a < dest.toNat + len.toNat → t.mem.read a = some 0#8) ∧
      (∀ a, a < dest.toNat ∨ dest.toNat + len.toNat ≤ a → t.mem.read a = s.mem.read a)

/-- R210, R55: `FILL` raises `AddrFault` and does nothing else when `dest + byte_length > 2^32`: it is not in progress
afterwards and zeroes nothing. -/
def Obligations.FillAddressFault : Prop :=
  ∀ (s : State) (dest len : Word), 2 ^ 32 < dest.toNat + len.toNat →
    exec (.fill dest len) s = .next { s with fault := s.fault ||| 0b010#3 }

/-- R212, R213: step C of a `FILL`. A length that is no multiple of 4 raises `LenFault` and completes the command, with
memory, `acc` and `idx` as step Z left them; otherwise, with `shut` set, the command completes with nothing changed;
otherwise it goes on to its chunks from cursor 0, or completes when it has no frame. The record of a command that completes
is the model's idle one (log entry 7), and what the record holds in between is log entry 18's. -/
def Obligations.FillChecksLengthThenShutdown : Prop :=
  ∀ (s : State) (ts : List Turn), s.schedule = .audio :: ts → s.fill.busy = true → s.fill.checked = false →
    (s.fill.byteLength.toNat % 4 ≠ 0 →
      step s = .next { s with schedule := ts, fault := s.fault ||| 0b001#3, fill := FillRecord.idle }) ∧
    (s.fill.byteLength.toNat % 4 = 0 → s.shut = true →
      step s = .next { s with schedule := ts, fill := FillRecord.idle }) ∧
    (s.fill.byteLength.toNat % 4 = 0 → s.shut = false → s.fill.byteLength ≠ 0 →
      step s = .next { s with
        schedule := ts
        fill := { s.fill with checked := true, frames := s.fill.byteLength.toNat / 4, cursor := 0 } }) ∧
    (s.fill.byteLength = 0 → s.shut = false → step s = .next { s with schedule := ts, fill := FillRecord.idle })

/-- R214, R215: a chunk of a `FILL` is the body of `WRS dest, cursor, c` with `c = min(64, frames - cursor)`, after which
the cursor has advanced by `c`, or the command completes when it has reached the last frame. `note` is read afresh. What the record holds is the model's
(log entries 7 and 18). -/
def Obligations.FillChunkIsAWriteSamples : Prop :=
  ∀ (s : State) (ts : List Turn), s.schedule = .audio :: ts → s.fillInv → s.fill.busy = true →
    s.fill.checked = true →
    ∃ t, exec (.wrs s.fill.base (BitVec.ofNat 32 s.fill.cursor)
          (BitVec.ofNat 32 (min 64 (s.fill.frames - s.fill.cursor)))) { s with schedule := ts } = .next t ∧
      step s = .next { t with
        fill := if s.fill.cursor + min 64 (s.fill.frames - s.fill.cursor) < s.fill.frames then
            { s.fill with cursor := s.fill.cursor + min 64 (s.fill.frames - s.fill.cursor) }
          else FillRecord.idle }

/-- R217: chunking is transparent. With no control command between its steps and `shut = 0`, a `FILL` of a multiple of 4
bytes that is in range completes, after step Z, step C and one turn for each chunk, in the very state that zero-filling
the buffer and one `WRS dest, 0, byte_length / 4` give, its idle record included, which is the model's (log entry 7). -/
def Obligations.FillEqualsZeroFillThenWriteSamples : Prop :=
  ∀ (s : State) (dest len : Word) (d : Descriptor) (ds : List Descriptor) (ts : List Turn),
    s.fill = FillRecord.idle → s.audioPort = d :: ds → decodeA d = .ok (.fill dest len) →
    s.schedule = List.replicate (2 + (len.toNat / 4 + 63) / 64) .audio ++ ts →
    s.shut = false → len.toNat % 4 = 0 → fillInRange dest len →
    regionWritable s.writable dest.toNat len.toNat = true →
    ∃ t, Host.Core.run Sys2Proof.core (2 + (len.toNat / 4 + 63) / 64) s = .next t ∧
      exec (.wrs dest 0 (BitVec.ofNat 32 (len.toNat / 4)))
        { s with audioPort := ds, schedule := ts, mem := zeroFill s.mem dest len } = .next t

/-- R218 (3) and (4), R261: a `FILL` in range, of a multiple of 4 bytes, with `shut` set completes after two turns, and
one with the voice off after its last chunk, with the buffer zeroed and nothing else changed (the idle
record is the model's, log entry 7). -/
def Obligations.FillIsSilentWhenShutOrVoiceOff : Prop :=
  ∀ (s : State) (dest len : Word) (d : Descriptor) (ds : List Descriptor) (ts : List Turn) (k : Nat),
    s.fill = FillRecord.idle → s.audioPort = d :: ds → decodeA d = .ok (.fill dest len) →
    s.schedule = List.replicate k .audio ++ ts → len.toNat % 4 = 0 → fillInRange dest len →
    regionWritable s.writable dest.toNat len.toNat = true →
    ((s.shut = true ∧ k = 2) ∨ (s.shut = false ∧ s.note.toInt ≤ 0 ∧ k = 2 + (len.toNat / 4 + 63) / 64)) →
    Host.Core.run Sys2Proof.core k s =
      .next { s with audioPort := ds, schedule := ts, mem := zeroFill s.mem dest len }

/-- R222, R67: a `FILL` in progress never waits and always completes: each turn of the audio port answers a next state
with fewer turns left (after step Z at most `1 + ceil(frames / 64)`), and a turn of the control port leaves the count as
it is. -/
def Obligations.FillAlwaysCompletes : Prop :=
  (∀ (s : State) (ts : List Turn), s.fillInv → s.fill.busy = true → s.schedule = .audio :: ts →
    ∃ t, step s = .next t ∧ turnsLeft t.fill < turnsLeft s.fill) ∧
  (∀ (s t : State) (ts : List Turn), s.schedule = .control :: ts → step s = .next t → t.fill = s.fill) ∧
  (∀ (s t : State) (dest len : Word), exec (.fill dest len) s = .next t → t.fill.busy = true → s.fill.busy = false →
    turnsLeft t.fill ≤ 1 + (len.toNat / 4 + 63) / 64) ∧
  (∀ r : FillRecord, turnsLeft r = 0 → r.busy = true → r.checked = true ∧ r.frames ≤ r.cursor)

/-- R56: an audio command in range whose region is not wholly inside the launch memory gets no step. That the region of a
`WRS` is the frames it may write, and that the whole region is tested first, is the model's reading (log entry 14). -/
def Obligations.UnwritableRegionIsStuck : Prop :=
  (∀ (s : State) (dest len : Word), fillInRange dest len →
    regionWritable s.writable dest.toNat len.toNat = false →
    exec (.fill dest len) s = .fault .unwritableRegion) ∧
  (∀ (s : State) (buf start count : Word), wrsInRange buf start count →
    regionWritable s.writable (buf.toNat + 4 * start.toNat) (4 * count.toNat) = false →
    exec (.wrs buf start count) s = .fault .unwritableRegion)

/-- R28, R62: every step keeps what the transient record says of the audio command in progress: its region has passed the
checks of step Z, and its frames and cursor are those of the chunk loop. Derived: that the record is written as zeros while
no command runs (log entry 7), that the record of a command in progress is a `FILL`'s, with its byte length and whether step
C is done (log entry 18), and that its whole region was tested for writability (log entry 14) are the model's. -/
def Obligations.FillRecordInvariantIsKept : Prop :=
  ∀ s t : State, s.fillInv → step s = .next t → t.fillInv

/-! ## Memory -/

/-- R51: byte order. `MemWrite(a, 2, s16(v))` stores the low byte at `a` and the high byte at `a + 1`, and no other byte;
and the spec's two examples. -/
def Obligations.SamplesAreStoredLittleEndian : Prop :=
  (∀ (m : Memory) (a x : Nat) (h : Half),
    (m.memWrite a 2 h.toNat).read x =
      if x = a then some (h.extractLsb' 0 8) else if x = a + 1 then some (h.extractLsb' 8 8) else m.read x) ∧
  (∀ (m : Memory) (a : Nat),
    (m.memWrite a 2 (s16 602).toNat).read a = some 0x5A#8 ∧
    (m.memWrite a 2 (s16 602).toNat).read (a + 1) = some 0x02#8 ∧
    (m.memWrite a 2 (s16 (-783)).toNat).read a = some 0xF1#8 ∧
    (m.memWrite a 2 (s16 (-783)).toNat).read (a + 1) = some 0xFC#8)

/-- Every step, whatever its turn, keeps the memory in its canonical form: addresses strictly rising and inside the
address space (R50, R55). -/
def Obligations.MemoryStaysCanonical : Prop :=
  ∀ s t : State, s.mem.wf → s.fillInv → step s = .next t → t.mem.wf

/-- R50, R221 (g): the block never reads memory. Two states that differ only in memory answer next states that differ
only in memory, and each byte afterwards is either untouched in both or the same in both. -/
def Obligations.MemoryNeverInfluencesTheBlock : Prop :=
  ∀ (s t : State) (m : Memory), step s = .next t →
    ∃ t', step { s with mem := m } = .next t' ∧ { t' with mem := t.mem } = t ∧
      ∀ a, (t.mem.read a = s.mem.read a ∧ t'.mem.read a = m.read a) ∨ t.mem.read a = t'.mem.read a

/-- R59: the regions that belong to the block are that of the audio command in progress and that of each descriptor issued
and waiting: `byte_length` bytes from `dest`, or the frames `start .. start + count - 1` of `buf`; and a descriptor's region is
borrowed from the step that issues it on. Derived: commands wait in a queue (log entry 11). -/
def Obligations.BufferIsBorrowedFromIssueToCompletion : Prop :=
  (∀ (s : State) (r : Nat × Nat), r ∈ borrowedRegions s ↔
    (s.fill.busy = true ∧ r = (s.fill.base.toNat, s.fill.byteLength.toNat)) ∨
    (∃ d ∈ s.audioPort, ∃ dest len : Word, decodeA d = .ok (.fill dest len) ∧ r = (dest.toNat, len.toNat)) ∨
    (∃ d ∈ s.audioPort, ∃ buf start count : Word, decodeA d = .ok (.wrs buf start count) ∧
      r = (buf.toNat + 4 * start.toNat, 4 * count.toNat))) ∧
  (∀ (s : State) (ts : List Turn) (d : Descriptor) (r : Nat × Nat), s.schedule = .issueAudio d :: ts →
    namedRegion d = some r → ∃ t, step s = .next t ∧ r ∈ borrowedRegions t) ∧
  (∀ (s t : State) (ts : List Turn) (dest len : Word) (d : Descriptor) (ds : List Descriptor),
    s.schedule = .audio :: ts → s.fill.busy = false → s.audioPort = d :: ds → decodeA d = .ok (.fill dest len) →
    step s = .next t → fillInRange dest len → (dest.toNat, len.toNat) ∈ borrowedRegions t)

/-- R59: the host's reads and writes of a borrowed region are refused; elsewhere inside the address space they complete, a
read changes nothing and a write changes the named bytes only. Derived: that the host's accesses are turns, that a borrowed
access is refused (R59 allows that or any value) and what a host's write does is the model's choice (log entry 15). -/
def Obligations.HostKeepsOffTheBorrowedBuffer : Prop :=
  ∀ (s : State) (addr : Nat) (bytes : List Byte),
    ((∃ a, addr ≤ a ∧ a < addr + bytes.length ∧ ∃ r ∈ borrowedRegions s, r.1 ≤ a ∧ a < r.1 + r.2) →
      takeTurn (.hostRead addr bytes.length) s = .refused .hostTouchesBorrowedBuffer ∧
      takeTurn (.hostWrite addr bytes) s = .refused .hostTouchesBorrowedBuffer) ∧
    ((∀ a, addr ≤ a → a < addr + bytes.length → ∀ r ∈ borrowedRegions s, a < r.1 ∨ r.1 + r.2 ≤ a) →
      addr + bytes.length ≤ 2 ^ 32 →
      takeTurn (.hostRead addr bytes.length) s = .next s ∧
      ∃ t, takeTurn (.hostWrite addr bytes) s = .next t ∧ t = { s with mem := t.mem } ∧
        ∀ a, t.mem.read a = if addr ≤ a ∧ a < addr + bytes.length then bytes[a - addr]? else s.mem.read a)

/-! ## The whole machine -/

/-- R37: a single writer per field. A turn of the control port writes no audio register, no transient record and no
memory; a turn of the audio port writes no register of the controller, not `shut` and no event. -/
def Obligations.SingleWriterPerField : Prop :=
  ∀ (s t : State) (ts : List Turn), step s = .next t →
    (s.schedule = .control :: ts →
      t.acc = s.acc ∧ t.idx = s.idx ∧ t.fill = s.fill ∧ t.mem = s.mem ∧ t.audioPort = s.audioPort) ∧
    (s.schedule = .audio :: ts →
      t.note = s.note ∧ t.octave = s.octave ∧ t.shut = s.shut ∧ t.events = s.events ∧
      t.controlPort = s.controlPort)

/-- A turn of the host writes no register and no port, only memory; and issuing a command writes its own port and nothing
else. Derived: that these are turns is the model's form (log entries 11 and 15). -/
def Obligations.HostAndIssueTurnsWriteNoRegister : Prop :=
  ∀ (s t : State) (ts : List Turn), step s = .next t →
    (∀ a n, s.schedule = .hostRead a n :: ts → t = { s with schedule := ts }) ∧
    (∀ a bs, s.schedule = .hostWrite a bs :: ts → t = { s with schedule := ts, mem := t.mem }) ∧
    (∀ w, s.schedule = .issueControl w :: ts → t = { s with schedule := ts, controlPort := s.controlPort ++ [w] }) ∧
    (∀ d, s.schedule = .issueAudio d :: ts → t = { s with schedule := ts, audioPort := s.audioPort ++ [d] })

/-- R26, R236: the fault bits are sticky: no step but reset clears one. -/
def Obligations.FaultBitsAreSticky : Prop :=
  ∀ (s t : State) (u : Turn) (ts : List Turn), s.schedule = u :: ts → (∀ p, u ≠ .reset p) → step s = .next t →
    t.fault &&& s.fault = s.fault

/-- R230, R234: a command with legal operands raises nothing: `exec` of it leaves `fault` as it was, and so does every
later step of a `FILL` whose length is a multiple of 4. -/
def Obligations.LegalOperandsRaiseNothing : Prop :=
  (∀ (s t : State) (i : Instr), operandsLegal i = true → exec i s = .next t → t.fault = s.fault) ∧
  (∀ s : State, s.fill.byteLength.toNat % 4 = 0 → (audioContinue s).fault = s.fault)

/-- R234: within one command at most one fault is raised, in a fixed order: `FILL 0xFFFFFFFE, 6` raises `AddrFault` alone
and writes nothing, `FILL 0x1000, 6` on writable memory zeroes six bytes and raises `LenFault` alone (the idle record it leaves is log entry
7's). -/
def Obligations.FaultChecksAreOrdered : Prop :=
  ∀ s : State,
    exec (.fill 0xFFFFFFFE 6) s = .next { s with fault := s.fault ||| 0b010#3 } ∧
    (regionWritable s.writable 0x1000 6 = true → s.fill = FillRecord.idle → ∃ t,
      exec (.fill 0x1000 6) s = .next t ∧
      (∀ a, t.mem.read a = if 0x1000 ≤ a ∧ a < 0x1006 then some 0#8 else s.mem.read a) ∧
      audioContinue t = { s with mem := t.mem, fault := s.fault ||| 0b001#3 })

/-- R31, R38: nothing writes the configuration: every step keeps the build and the launch memory. -/
def Obligations.ConfigurationIsFixed : Prop :=
  ∀ s t : State, step s = .next t → t.build = s.build ∧ t.writable = s.writable
end

