-- ==== Sys2Proof/Laws/Config.lean ====
section
/-! SUPPORT. The numbers behind the names of Table P (R6, R7), for simp. -/

namespace Sys2Proof.Config

@[simp] theorem tableLen_eq : tableLen = 1024 := rfl
@[simp] theorem frameBytes_eq : frameBytes = 4 := rfl
@[simp] theorem chunk_eq : chunk = 64 := rfl
@[simp] theorem attenNum_eq : attenNum = 3 := rfl
@[simp] theorem attenDen_eq : attenDen = 10 := rfl
@[simp] theorem octaveMin_eq : octaveMin = 0 := rfl
@[simp] theorem octaveMax_eq : octaveMax = 6 := rfl
@[simp] theorem minNote_eq : minNote = 12 := rfl
@[simp] theorem maxNote_eq : maxNote = 131 := rfl
@[simp] theorem keyOffMin_eq : keyOffMin = 12 := rfl
@[simp] theorem keyOffMax_eq : keyOffMax = 40 := rfl
@[simp] theorem addrSpace_eq : addrSpace = 4294967296 := rfl

end Sys2Proof.Config
end

