-- ==== Sys2Proof/Laws/Decode.lean ====
section
/-! SUPPORT. What the decoder can answer (R83, R84, R87): the commands of the word's own port, each from its opcode;
and the fields of a word built from fields (R81, R82). -/

namespace Sys2Proof

/-- What a format K word that decodes is. -/
theorem decodeK_ok {w : Half} {i : Instr} (h : decodeK w = .ok i) :
    (opK w = 0x01#8 ∧ argK w = 0 ∧ i = .octup) ∨ (opK w = 0x02#8 ∧ argK w = 0 ∧ i = .octdn) ∨
    (opK w = 0x03#8 ∧ legalOffset (argK w) ∧ i = .notekey (argK w)) ∨
    (opK w = 0x04#8 ∧ argK w = 0 ∧ i = .keyother) ∨ (opK w = 0x05#8 ∧ argK w = 0 ∧ i = .keyup) ∨
    (opK w = 0x0F#8 ∧ argK w = 0 ∧ i = .shutdown) := by
  have hz : ∀ {arg : Byte} {j : Instr}, needZeroArg arg j = .ok i → arg = 0 ∧ i = j := by
    intro arg j hj
    unfold needZeroArg at hj
    split at hj
    · injection hj with hj; exact ⟨by assumption, hj.symm⟩
    · cases hj
  unfold decodeK at h
  split at h
  · exact Or.inl ⟨by assumption, hz h⟩
  split at h
  · exact Or.inr (Or.inl ⟨by assumption, hz h⟩)
  split at h
  · split at h
    · injection h with h
      exact Or.inr (Or.inr (Or.inl ⟨by assumption, by assumption, h.symm⟩))
    · cases h
  split at h
  · exact Or.inr (Or.inr (Or.inr (Or.inl ⟨by assumption, hz h⟩)))
  split at h
  · exact Or.inr (Or.inr (Or.inr (Or.inr (Or.inl ⟨by assumption, hz h⟩))))
  split at h
  · exact Or.inr (Or.inr (Or.inr (Or.inr (Or.inr ⟨by assumption, hz h⟩))))
  · cases h

/-- What a format A descriptor that decodes is. -/
theorem decodeA_ok {d : Descriptor} {i : Instr} (h : decodeA d = .ok i) :
    (opA d = 0x10#8 ∧ zeroA d = 0 ∧ fieldC d = 0 ∧ i = .fill (fieldA d) (fieldB d)) ∨
    (opA d = 0x11#8 ∧ zeroA d = 0 ∧ i = .wrs (fieldA d) (fieldB d) (fieldC d)) := by
  unfold decodeA at h
  split at h
  · split at h
    · cases h
    · split at h
      · cases h
      · injection h with h
        exact Or.inl ⟨by assumption, by simp_all, by simp_all, h.symm⟩
  · split at h
    · split at h
      · cases h
      · injection h with h
        exact Or.inr ⟨by assumption, by simp_all, h.symm⟩
    · cases h

theorem decodeK_port {w : Half} {i : Instr} (h : decodeK w = .ok i) : i.port = .control := by
  rcases decodeK_ok h with ⟨-, -, rfl⟩ | ⟨-, -, rfl⟩ | ⟨-, -, rfl⟩ | ⟨-, -, rfl⟩ | ⟨-, -, rfl⟩ | ⟨-, -, rfl⟩ <;> rfl

theorem decodeA_port {d : Descriptor} {i : Instr} (h : decodeA d = .ok i) : i.port = .audio := by
  rcases decodeA_ok h with ⟨-, -, -, rfl⟩ | ⟨-, -, rfl⟩ <;> rfl

theorem decodeK_wellFormed {w : Half} {i : Instr} (h : decodeK w = .ok i) : i.wellFormed = true := by
  rcases decodeK_ok h with ⟨-, -, rfl⟩ | ⟨-, -, rfl⟩ | ⟨-, hl, rfl⟩ | ⟨-, -, rfl⟩ | ⟨-, -, rfl⟩ | ⟨-, -, rfl⟩
  case inr.inr.inl => exact decide_eq_true hl
  all_goals rfl

/-! ## Fields of a word built from fields -/

theorem toNat_concat {m n : Nat} (x : BitVec m) (y : BitVec n) : (x ++ y).toNat = x.toNat * 2 ^ n + y.toNat := by
  rw [BitVec.toNat_append, ← Nat.shiftLeft_add_eq_or_of_lt y.isLt, Nat.shiftLeft_eq]

theorem toNat_field {n : Nat} (x : BitVec n) (lo len : Nat) :
    (x.extractLsb' lo len).toNat = x.toNat / 2 ^ lo % 2 ^ len := by
  rw [BitVec.extractLsb'_toNat, Nat.shiftRight_eq_div_pow]

theorem opK_wordK (op arg : Byte) : opK (wordK op arg) = op := by
  have := op.isLt
  have := arg.isLt
  apply BitVec.eq_of_toNat_eq
  simp only [opK, wordK, toNat_concat, toNat_field]
  omega

theorem argK_wordK (op arg : Byte) : argK (wordK op arg) = arg := by
  have := arg.isLt
  apply BitVec.eq_of_toNat_eq
  simp only [argK, wordK, toNat_concat, toNat_field]
  omega

/-- A format K word is its two fields. -/
theorem wordK_fields (w : Half) : wordK (opK w) (argK w) = w := by
  have := w.isLt
  apply BitVec.eq_of_toNat_eq
  simp only [wordK, opK, argK, toNat_concat, toNat_field]
  omega

theorem descriptorA_toNat (op : Byte) (a b c : Word) :
    (descriptorA op a b c).toNat = op.toNat + 2 ^ 32 * a.toNat + 2 ^ 64 * b.toNat + 2 ^ 96 * c.toNat := by
  simp only [descriptorA, toNat_concat, BitVec.toNat_ofNat]
  omega

/-- A format A descriptor with `zero = 0` is its four other fields. -/
theorem descriptorA_fields {d : Descriptor} (h : zeroA d = 0) :
    descriptorA (opA d) (fieldA d) (fieldB d) (fieldC d) = d := by
  have := d.isLt
  have hz : (zeroA d).toNat = 0 := by rw [h]; rfl
  simp only [zeroA, toNat_field] at hz
  apply BitVec.eq_of_toNat_eq
  simp only [descriptorA_toNat, opA, fieldA, fieldB, fieldC, toNat_field]
  omega

end Sys2Proof
end

