-- ==== Sys2Proof/Laws/Float.lean ====
section
/-! SUPPORT. The laws of the binary64 functions (R14): rounding is monotone and exact on representable values, and what a
packed result is. -/

namespace Sys2Proof.Machine

theorem unitsPerOne_eq : unitsPerOne = 2 ^ 1074 := by decide +kernel

theorem unitsPerOne_pos : 0 < unitsPerOne := by decide +kernel

/-! ## The magnitude of exponent and fraction fields -/

/-- The fields `b` stand for a significand below `2^53` times a power of two, normalized unless the exponent is least. -/
theorem magOfBits_split (b : Nat) : ∃ e m, b = e * 2 ^ 52 + m ∧ magOfBits b = m * 2 ^ e ∧ m < 2 ^ 53 ∧
    (e = 0 ∨ 2 ^ 52 ≤ m) := by
  unfold magOfBits
  by_cases h : b / 2 ^ 52 = 0
  · exact ⟨0, b, by omega, by rw [if_pos h]; simp; omega, by omega, Or.inl rfl⟩
  · exact ⟨b / 2 ^ 52 - 1, 2 ^ 52 + b % 2 ^ 52, by omega, by rw [if_neg h], by omega, Or.inr (by omega)⟩

theorem magOfBits_normal {e m : Nat} (h1 : 2 ^ 52 ≤ m) (h2 : m < 2 ^ 53) :
    magOfBits (e * 2 ^ 52 + m) = m * 2 ^ e := by
  unfold magOfBits
  have d : (e * 2 ^ 52 + m) / 2 ^ 52 = e + 1 := by omega
  have r : (e * 2 ^ 52 + m) % 2 ^ 52 = m - 2 ^ 52 := by omega
  rw [d, r, if_neg (by omega), Nat.add_sub_cancel, Nat.add_sub_cancel' h1]

theorem magOfBits_small {m : Nat} (h : m < 2 ^ 53) : magOfBits m = m := by
  by_cases h1 : 2 ^ 52 ≤ m
  · have := magOfBits_normal (e := 0) h1 h
    simpa using this
  · unfold magOfBits
    rw [if_pos (by omega)]
    omega

/-- Every significand below `2^53` times a power of two is the magnitude of some fields. -/
theorem exists_magOfBits {e m : Nat} (h : m < 2 ^ 53) : ∃ b, magOfBits b = m * 2 ^ e := by
  induction e generalizing m with
  | zero => exact ⟨m, by simpa using magOfBits_small h⟩
  | succ e ih =>
    by_cases h1 : 2 ^ 52 ≤ m
    · exact ⟨(e + 1) * 2 ^ 52 + m, magOfBits_normal h1 h⟩
    · obtain ⟨b, hb⟩ := ih (m := 2 * m) (by omega)
      exact ⟨b, by rw [hb, Nat.pow_succ]; ring⟩

/-! ## Rounding -/

/-- What `roundMag` computes: `num = m * d + r` with `d = den * 2^e`, and the rounded significand. -/
theorem roundMag_split {num den : Nat} (hd : 0 < den) : ∃ e m r,
    num = m * (den * 2 ^ e) + r ∧ r < den * 2 ^ e ∧ m < 2 ^ 53 ∧ (e = 0 ∨ 2 ^ 52 ≤ m) ∧
    roundMag num den = e * 2 ^ 52 +
      (if 2 * r < den * 2 ^ e then m else if den * 2 ^ e < 2 * r then m + 1 else m + m % 2) := by
  have hpos : 0 < den * 2 ^ ((num / den).log2 - 52) := Nat.mul_pos hd (Nat.two_pow_pos _)
  refine ⟨(num / den).log2 - 52, num / (den * 2 ^ ((num / den).log2 - 52)),
    num % (den * 2 ^ ((num / den).log2 - 52)), ?_, Nat.mod_lt _ hpos, ?_, ?_, rfl⟩
  · rw [Nat.mul_comm]; exact (Nat.div_add_mod _ _).symm
  · rw [← Nat.div_div_eq_div_mul]
    rcases Nat.eq_zero_or_pos (num / den) with h0 | h0
    · rw [h0]; simp
    · have hlt := Nat.lt_log2_self (n := num / den)
      rw [Nat.div_lt_iff_lt_mul (Nat.two_pow_pos _), ← Nat.pow_add]
      exact lt_of_lt_of_le hlt (Nat.pow_le_pow_right (by norm_num) (by omega))
  · rw [← Nat.div_div_eq_div_mul]
    by_cases h0 : (num / den).log2 ≤ 52
    · left; omega
    · right
      have hne : num / den ≠ 0 := by rintro h; rw [h] at h0; simp at h0
      rw [Nat.le_div_iff_mul_le (Nat.two_pow_pos _), ← Nat.pow_add]
      refine le_trans (Nat.pow_le_pow_right (by norm_num) ?_) (Nat.log2_self_le hne)
      omega

/-- Rounding does not pass a representable value from below. -/
theorem roundMag_le {num den b : Nat} (hd : 0 < den) (h : num ≤ magOfBits b * den) : roundMag num den ≤ b := by
  obtain ⟨e, m, r, hn, hr, hm, hnorm, hround⟩ := roundMag_split (num := num) hd
  obtain ⟨eb, mb, hb, hmag, hmb, hnb⟩ := magOfBits_split b
  rw [hround, hb]
  rw [hmag] at h
  have hp := Nat.two_pow_pos e
  rcases Nat.lt_trichotomy eb e with hlt | heq | hgt
  · exfalso
    have h2 : 2 ^ e = 2 ^ (e - eb - 1) * 2 * 2 ^ eb := by
      rw [mul_assoc, ← Nat.pow_succ', ← Nat.pow_add]; congr 1; omega
    have h3 : 0 < 2 ^ (e - eb - 1) := Nat.two_pow_pos _
    have h4 : 0 < den * 2 ^ eb := Nat.mul_pos hd (Nat.two_pow_pos _)
    have h5 : 2 ^ 52 ≤ m := by omega
    have h6 : m * (den * 2 ^ e) = m * 2 ^ (e - eb - 1) * 2 * (den * 2 ^ eb) := by rw [h2]; ring
    have h7 : mb * 2 ^ eb * den = mb * (den * 2 ^ eb) := by ring
    have h8 : mb < m * 2 ^ (e - eb - 1) * 2 := by nlinarith
    nlinarith
  · subst heq
    have h1 : m * (den * 2 ^ eb) + r ≤ mb * (den * 2 ^ eb) := by rw [← hn]; calc
      num ≤ mb * 2 ^ eb * den := h
      _ = mb * (den * 2 ^ eb) := by ring
    have h2 : 0 < den * 2 ^ eb := Nat.mul_pos hd (Nat.two_pow_pos _)
    have hmm : m ≤ mb := by
      by_contra hc
      have : mb + 1 ≤ m := by omega
      nlinarith
    rcases Nat.eq_or_lt_of_le hmm with heq | hlt
    · subst heq
      have : r = 0 := by omega
      subst this
      simp [h2]
    · split
      · omega
      · split <;> omega
  · have : 2 ^ 52 ≤ mb := by omega
    have : (e + 1) * 2 ^ 52 ≤ eb * 2 ^ 52 := Nat.mul_le_mul_right _ hgt
    have : (if 2 * r < den * 2 ^ e then m else if den * 2 ^ e < 2 * r then m + 1 else m + m % 2) ≤ 2 ^ 53 := by
      split
      · omega
      · split <;> omega
    omega

/-- Rounding does not pass a representable value from above. -/
theorem le_roundMag {num den b : Nat} (hd : 0 < den) (h : magOfBits b * den ≤ num) : b ≤ roundMag num den := by
  obtain ⟨e, m, r, hn, hr, hm, hnorm, hround⟩ := roundMag_split (num := num) hd
  obtain ⟨eb, mb, hb, hmag, hmb, hnb⟩ := magOfBits_split b
  rw [hround, hb]
  rw [hmag] at h
  have hle : m ≤ (if 2 * r < den * 2 ^ e then m else if den * 2 ^ e < 2 * r then m + 1 else m + m % 2) := by
    split
    · omega
    · split <;> omega
  rcases Nat.lt_trichotomy eb e with hlt | heq | hgt
  · have : (eb + 1) * 2 ^ 52 ≤ e * 2 ^ 52 := Nat.mul_le_mul_right _ hlt
    omega
  · subst heq
    have h1 : mb * (den * 2 ^ eb) ≤ m * (den * 2 ^ eb) + r := by rw [← hn]; calc
      mb * (den * 2 ^ eb) = mb * 2 ^ eb * den := by ring
      _ ≤ num := h
    have : mb ≤ m := by
      by_contra hc
      have : m + 1 ≤ mb := by omega
      nlinarith
    omega
  · exfalso
    have h2 : 2 ^ eb = 2 ^ (eb - e - 1) * 2 * 2 ^ e := by
      rw [mul_assoc, ← Nat.pow_succ', ← Nat.pow_add]; congr 1; omega
    have h3 : 0 < 2 ^ (eb - e - 1) := Nat.two_pow_pos _
    have h4 : 0 < den * 2 ^ e := Nat.mul_pos hd (Nat.two_pow_pos _)
    have h5 : 2 ^ 52 ≤ mb := by omega
    have h6 : mb * 2 ^ eb * den = mb * 2 ^ (eb - e - 1) * 2 * (den * 2 ^ e) := by rw [h2]; ring
    have h8 : m + 1 ≤ mb * 2 ^ (eb - e - 1) * 2 := by nlinarith
    nlinarith

/-- A representable value rounds to itself. -/
theorem roundMag_exact {num den b : Nat} (hd : 0 < den) (h : num = magOfBits b * den) : roundMag num den = b :=
  Nat.le_antisymm (roundMag_le hd h.le) (le_roundMag hd h.ge)

@[simp] theorem magOfBits_zero : magOfBits 0 = 0 := by decide

theorem magOfBits_lt {b c : Nat} (h : b < c) : magOfBits b < magOfBits c := by
  by_contra hc
  have h1 := le_roundMag (num := magOfBits b) (den := 1) (b := c) one_pos (by omega)
  have h2 := roundMag_exact (num := magOfBits b) (den := 1) (b := b) one_pos (by omega)
  omega

theorem magOfBits_le_iff {b c : Nat} : magOfBits b ≤ magOfBits c ↔ b ≤ c := by
  constructor
  · intro h
    by_contra hc
    have := magOfBits_lt (b := c) (c := b) (by omega)
    omega
  · intro h
    rcases Nat.eq_or_lt_of_le h with rfl | h
    · exact le_rfl
    · exact (magOfBits_lt h).le

theorem magOfBits_inj {b c : Nat} (h : magOfBits b = magOfBits c) : b = c :=
  Nat.le_antisymm (magOfBits_le_iff.mp h.le) (magOfBits_le_iff.mp h.ge)

/-! ## Packed results -/

theorem packF64_pos {bits : Nat} {u : F64} (h : bits < 2047 * 2 ^ 52) :
    packF64 false bits u = BitVec.ofNat 64 bits := by
  unfold packF64
  rw [if_pos h]
  simp

theorem toNat_packF64 {neg : Bool} {bits : Nat} {u : F64} (h : bits < 2047 * 2 ^ 52) :
    (packF64 neg bits u).toNat = bits + if neg then 2 ^ 63 else 0 := by
  unfold packF64
  rw [if_pos h, BitVec.toNat_ofNat]
  cases neg <;> simp <;> omega

theorem isFinite_iff {a : F64} : isFinite a = true ↔ a.toNat % 2 ^ 63 < 2047 * 2 ^ 52 := by
  unfold isFinite expField
  have := a.isLt
  simp only [ne_eq, decide_not, Bool.not_eq_eq_eq_not, Bool.not_true, decide_eq_false_iff_not]
  omega

theorem signBit_iff {a : F64} : signBit a = true ↔ 2 ^ 63 ≤ a.toNat := by
  unfold signBit
  rw [BitVec.msb_eq_decide]
  simp

/-- A packed result is finite, has the magnitude of its fields and the sign given. -/
theorem packF64_spec {neg : Bool} {bits : Nat} {u : F64} (h : bits < 2047 * 2 ^ 52) :
    isFinite (packF64 neg bits u) = true ∧ magUnits (packF64 neg bits u) = magOfBits bits ∧
      signBit (packF64 neg bits u) = neg := by
  have ht := toNat_packF64 (neg := neg) (u := u) h
  refine ⟨?_, ?_, ?_⟩
  · rw [isFinite_iff, ht]; cases neg <;> simp <;> omega
  · unfold magUnits
    congr 1
    rw [ht]; cases neg <;> simp <;> omega
  · have h2 := signBit_iff (a := packF64 neg bits u)
    rw [ht] at h2
    cases neg
    · simp at h2
      exact Bool.eq_false_iff.mpr fun hc => by have := h2.mp hc; omega
    · simp at h2; exact h2

theorem units_packF64 {neg : Bool} {bits : Nat} {u : F64} (h : bits < 2047 * 2 ^ 52) :
    units (packF64 neg bits u) = if neg then -(magOfBits bits : Int) else magOfBits bits := by
  obtain ⟨-, h2, h3⟩ := packF64_spec (neg := neg) (u := u) h
  unfold units
  rw [h2, h3]

/-- Fields from 1 up to the largest finite ones, with no sign, are the positive finite values. -/
theorem positive_ofNat {bits : Nat} (h1 : 0 < bits) (h2 : bits < 2047 * 2 ^ 52) :
    isFinite (BitVec.ofNat 64 bits) = true ∧ 0 < units (BitVec.ofNat 64 bits) := by
  have hu := units_packF64 (neg := false) (u := 0) h2
  rw [packF64_pos h2] at hu
  have hf := (packF64_spec (neg := false) (u := 0) h2).1
  rw [packF64_pos h2] at hf
  have hm := magOfBits_lt h1
  rw [magOfBits_zero] at hm
  exact ⟨hf, by rw [hu]; simpa using hm⟩

theorem units_natAbs (a : F64) : (units a).natAbs = magUnits a := by
  unfold units
  split <;> simp

theorem toNat_fneg (a : F64) : (fneg a).toNat = if 2 ^ 63 ≤ a.toNat then a.toNat - 2 ^ 63 else a.toNat + 2 ^ 63 := by
  have := a.isLt
  unfold fneg
  rw [BitVec.toNat_add]
  split <;> simp <;> omega

@[simp] theorem isFinite_fneg (a : F64) : isFinite (fneg a) = isFinite a := by
  rw [Bool.eq_iff_iff, isFinite_iff, isFinite_iff, toNat_fneg]
  have := a.isLt
  split <;> omega

@[simp] theorem signBit_fneg (a : F64) : signBit (fneg a) = !signBit a := by
  have h1 := signBit_iff (a := a)
  have h2 := signBit_iff (a := fneg a)
  rw [toNat_fneg] at h2
  have := a.isLt
  cases hs : signBit a
  · have hn : ¬ 2 ^ 63 ≤ a.toNat := fun hc => by have := h1.mpr hc; simp [hs] at this
    rw [if_neg hn] at h2
    simpa using h2.mpr (by omega)
  · have hp := h1.mp hs
    rw [if_pos hp] at h2
    exact Bool.eq_false_iff.mpr fun hc => by have := h2.mp hc; omega

@[simp] theorem magUnits_fneg (a : F64) : magUnits (fneg a) = magUnits a := by
  have h : (fneg a).toNat % 2 ^ 63 = a.toNat % 2 ^ 63 := by
    rw [toNat_fneg]
    have := a.isLt
    split <;> omega
  rw [magUnits, magUnits, h]

@[simp] theorem units_fneg (a : F64) : units (fneg a) = -units a := by
  unfold units
  rw [signBit_fneg, magUnits_fneg]
  cases signBit a <;> simp

/-! ## Sums -/

/-- The sum of two finite values whose exact sum is not negative and does not overflow. -/
theorem addFinite_units {a b u : F64} (h : 0 ≤ units a + units b)
    (hf : roundMag (units a + units b).natAbs 1 < 2047 * 2 ^ 52) :
    isFinite (addFinite a b u) = true ∧
      units (addFinite a b u) = magOfBits (roundMag (units a + units b).natAbs 1) := by
  unfold addFinite
  by_cases h0 : units a + units b = 0
  · rw [h0]
    have hr : roundMag (0 : Int).natAbs 1 = 0 := roundMag_exact one_pos (by simp)
    rw [hr, if_pos rfl]
    cases signBit a && signBit b <;> exact ⟨by decide, by decide⟩
  · have hn : decide (units a + units b < 0) = false := by simp; omega
    simp only [h0, if_false, hn]
    exact ⟨(packF64_spec hf).1, by rw [units_packF64 hf]; simp⟩

end Sys2Proof.Machine
end

