-- ==== Sys2Proof/Laws/Memory.lean ====
section
/-! SUPPORT. The laws of the buffer memory: reading after a store, the canonical form, and that stores may be merged or
split (R51, R54, R58). -/

namespace Sys2Proof.Machine

@[simp] theorem cellsFrom_nil (a : Nat) : cellsFrom a [] = [] := rfl

@[simp] theorem cellsFrom_cons (a : Nat) (b : Byte) (bs : List Byte) :
    cellsFrom a (b :: bs) = (a, b) :: cellsFrom (a + 1) bs := rfl

theorem cellsFrom_append (xs ys : List Byte) (a : Nat) :
    cellsFrom a (xs ++ ys) = cellsFrom a xs ++ cellsFrom (a + xs.length) ys := by
  induction xs generalizing a with
  | nil => simp
  | cons x xs ih => simp [ih, Nat.add_assoc, Nat.add_comm 1]

theorem mem_cellsFrom_addr {c : Host.Cell} {bs : List Byte} {a : Nat} (h : c ∈ cellsFrom a bs) :
    a ≤ c.1 ∧ c.1 < a + bs.length := by
  induction bs generalizing a with
  | nil => simp at h
  | cons b bs ih =>
    simp only [cellsFrom_cons, List.mem_cons] at h
    obtain rfl | h := h
    · simp
    · have := ih h
      simp only [List.length_cons]
      omega

theorem cellsFrom_pairwise (bs : List Byte) (a : Nat) :
    (cellsFrom a bs).Pairwise (fun x y => x.1 < y.1) := by
  induction bs generalizing a with
  | nil => simp
  | cons b bs ih =>
    simp only [cellsFrom_cons, List.pairwise_cons]
    refine ⟨fun c hc => ?_, ih (a + 1)⟩
    have := mem_cellsFrom_addr hc
    show a < c.1
    omega

theorem lookup_cellsFrom (bs : List Byte) (a x : Nat) :
    List.lookup x (cellsFrom a bs) = if a ≤ x then bs[x - a]? else none := by
  induction bs generalizing a with
  | nil => simp
  | cons b bs ih =>
    rw [cellsFrom_cons, List.lookup_cons, ih]
    by_cases h : x = a
    · subst h; simp
    · have hb : (x == a) = false := by simpa using h
      rw [hb]
      by_cases h1 : a ≤ x
      · have h2 : a + 1 ≤ x := by omega
        obtain ⟨d, rfl⟩ : ∃ d, x = a + 1 + d := ⟨x - (a + 1), by omega⟩
        have e : a + 1 + d - a = d + 1 := by omega
        simp [h2, h1, e]
      · have h2 : ¬ a + 1 ≤ x := by omega
        simp [h1, h2]

theorem lookup_filter (m : Memory) (p : Nat → Bool) (x : Nat) :
    List.lookup x (m.filter fun c => p c.1) = if p x then List.lookup x m else none := by
  induction m with
  | nil => simp
  | cons c m ih =>
    obtain ⟨k, b⟩ := c
    by_cases hk : p k
    · rw [List.filter_cons_of_pos (by simpa using hk), List.lookup_cons, List.lookup_cons, ih]
      by_cases h : x = k
      · subst h; simp [hk]
      · have hb : (x == k) = false := by simpa using h
        simp [hb]
    · rw [List.filter_cons_of_neg (by simpa using hk), List.lookup_cons, ih]
      by_cases h : x = k
      · subst h; simp [hk]
      · have hb : (x == k) = false := by simpa using h
        simp [hb]

theorem lookup_append (m m' : Memory) (x : Nat) :
    List.lookup x (m ++ m') = (List.lookup x m).or (List.lookup x m') := by
  induction m with
  | nil => simp
  | cons c m ih =>
    obtain ⟨k, b⟩ := c
    rw [List.cons_append, List.lookup_cons, List.lookup_cons, ih]
    cases x == k <;> simp

/-- Reading after a store: the stored byte inside the stored range, the old byte outside it. -/
theorem Memory.read_store (m : Memory) (a x : Nat) (bs : List Byte) :
    (m.store a bs).read x = if a ≤ x ∧ x < a + bs.length then bs[x - a]? else m.read x := by
  unfold Memory.store Memory.read
  rw [lookup_append, lookup_append, lookup_cellsFrom,
    lookup_filter m (fun k => decide (k < a)), lookup_filter m (fun k => decide (a + bs.length ≤ k))]
  by_cases h1 : x < a
  · simp [h1, show ¬ a ≤ x by omega, show ¬ a + bs.length ≤ x by omega]
  · by_cases h2 : x < a + bs.length
    · simp [h1, h2, show a ≤ x by omega, show ¬ a + bs.length ≤ x by omega]
    · have h3 : bs[x - a]? = none := List.getElem?_eq_none (by omega)
      simp [h1, h2, h3, show a + bs.length ≤ x by omega]

theorem Memory.read_store_outside {m : Memory} {a x : Nat} {bs : List Byte} (h : x < a ∨ a + bs.length ≤ x) :
    (m.store a bs).read x = m.read x := by
  rw [Memory.read_store, if_neg (by omega)]

/-- A store inside the address space keeps the canonical form. -/
theorem Memory.store_wf {m : Memory} {a : Nat} {bs : List Byte} (hm : m.wf)
    (h : a + bs.length ≤ Config.addrSpace) : (m.store a bs).wf := by
  obtain ⟨hp, hb⟩ := hm
  refine ⟨?_, ?_⟩
  · unfold Memory.store
    rw [List.pairwise_append, List.pairwise_append]
    refine ⟨⟨hp.filter _, cellsFrom_pairwise _ _, ?_⟩, hp.filter _, ?_⟩
    · intro x hx y hy
      have h1 := (List.mem_filter.mp hx).2
      have h2 := mem_cellsFrom_addr hy
      simp only [decide_eq_true_eq] at h1
      omega
    · intro x hx y hy
      have h2 := (List.mem_filter.mp hy).2
      simp only [decide_eq_true_eq] at h2
      rcases List.mem_append.mp hx with hx | hx
      · have h1 := (List.mem_filter.mp hx).2
        simp only [decide_eq_true_eq] at h1
        omega
      · have h1 := mem_cellsFrom_addr hx
        omega
  · intro c hc
    unfold Memory.store at hc
    rcases List.mem_append.mp hc with hc | hc
    · rcases List.mem_append.mp hc with hc | hc
      · exact hb c (List.mem_filter.mp hc).1
      · have := mem_cellsFrom_addr hc
        omega
    · exact hb c (List.mem_filter.mp hc).1

theorem filter_cellsFrom_of_all {p : Host.Cell → Bool} {bs : List Byte} {a : Nat}
    (h : ∀ c ∈ cellsFrom a bs, p c = true) : (cellsFrom a bs).filter p = cellsFrom a bs :=
  List.filter_eq_self.mpr h

theorem filter_cellsFrom_of_none {p : Host.Cell → Bool} {bs : List Byte} {a : Nat}
    (h : ∀ c ∈ cellsFrom a bs, p c = false) : (cellsFrom a bs).filter p = [] :=
  List.filter_eq_nil_iff.mpr fun c hc => by simp [h c hc]

/-- Two stores to adjacent ranges are one store of the whole (R54: stores may be merged or split). -/
theorem Memory.store_store (m : Memory) (a : Nat) (xs ys : List Byte) :
    (m.store a xs).store (a + xs.length) ys = m.store a (xs ++ ys) := by
  unfold Memory.store
  rw [cellsFrom_append]
  simp only [List.filter_append, List.filter_filter, List.length_append, List.append_assoc]
  have e1 : (cellsFrom a xs).filter (fun c => decide (c.1 < a + xs.length)) = cellsFrom a xs :=
    filter_cellsFrom_of_all fun c hc => by have := mem_cellsFrom_addr hc; simp; omega
  have e2 : (cellsFrom a xs).filter (fun c => decide (a + xs.length + ys.length ≤ c.1)) = [] :=
    filter_cellsFrom_of_none fun c hc => by have := mem_cellsFrom_addr hc; simp; omega
  have e3 : m.filter (fun c => decide (c.1 < a + xs.length) && decide (c.1 < a)) =
      m.filter (fun c => decide (c.1 < a)) := by
    congr 1; funext c; by_cases h : c.1 < a
    · simp [h, show c.1 < a + xs.length by omega]
    · simp [h]
  have e4 : m.filter (fun c => decide (c.1 < a + xs.length) && decide (a + xs.length ≤ c.1)) = [] :=
    List.filter_eq_nil_iff.mpr fun c _ => by simp
  have e5 : m.filter (fun c => decide (a + xs.length + ys.length ≤ c.1) && decide (c.1 < a)) = [] :=
    List.filter_eq_nil_iff.mpr fun c _ => by simp; omega
  have e6 : m.filter (fun c => decide (a + xs.length + ys.length ≤ c.1) && decide (a + xs.length ≤ c.1)) =
      m.filter (fun c => decide (a + (xs.length + ys.length) ≤ c.1)) := by
    congr 1; funext c
    by_cases h : a + (xs.length + ys.length) ≤ c.1
    · simp [h, show a + xs.length + ys.length ≤ c.1 by omega, show a + xs.length ≤ c.1 by omega]
    · simp [h, show ¬ a + xs.length + ys.length ≤ c.1 by omega]
  simp [e1, e2, e3, e4, e5, e6]

@[simp] theorem leBytes_length (n v : Nat) : (leBytes n v).length = n := by
  induction n generalizing v with
  | zero => rfl
  | succ n ih => simp [leBytes, ih]

theorem leBytes_two (v : Nat) : leBytes 2 v = [BitVec.ofNat 8 v, BitVec.ofNat 8 (v / 256)] := rfl

/-- Two canonical memories that read the same at every address are equal. -/
theorem Memory.ext_read {m m' : Memory} (hm : m.wf) (hm' : m'.wf) (h : ∀ a, m.read a = m'.read a) : m = m' := by
  obtain ⟨hm, -⟩ := hm
  obtain ⟨hm', -⟩ := hm'
  have key : ∀ {k : Nat} {b : Byte} {l : Memory}, (∀ c ∈ l, k < c.1) → List.lookup k l = none := by
    intro k b l hl
    refine List.lookup_eq_none_iff.mpr fun c hc => ?_
    have := hl c hc
    simp; omega
  induction m generalizing m' with
  | nil =>
    cases m' with
    | nil => rfl
    | cons c m' =>
      obtain ⟨k, b⟩ := c
      have e := h k
      simp [Memory.read] at e
  | cons c m ih =>
    cases m' with
    | nil =>
      obtain ⟨k, b⟩ := c
      have e := h k
      simp [Memory.read] at e
    | cons c' m' =>
      obtain ⟨k, b⟩ := c
      obtain ⟨k', b'⟩ := c'
      rw [List.pairwise_cons] at hm hm'
      have hk : k = k' := by
        rcases Nat.lt_trichotomy k k' with hlt | heq | hgt
        · have e := h k
          have hn : List.lookup k m' = none :=
            key (b := b) fun c hc => by have := hm'.1 c hc; simp only at this; omega
          have hb : (k == k') = false := by simp; omega
          simp [Memory.read, List.lookup_cons, hb, hn] at e
        · exact heq
        · have e := h k'
          have hn : List.lookup k' m = none :=
            key (b := b) fun c hc => by have := hm.1 c hc; simp only at this; omega
          have hb : (k' == k) = false := by simp; omega
          simp [Memory.read, List.lookup_cons, hb, hn] at e
      subst hk
      have hb : b = b' := by have e := h k; simpa [Memory.read, List.lookup_cons] using e
      subst hb
      have : m = m' := by
        refine ih (fun a => ?_) hm.2 hm'.2
        by_cases ha : a = k
        · subst ha
          rw [Memory.read, Memory.read, key (b := b) fun c hc => hm.1 c hc, key (b := b) fun c hc => hm'.1 c hc]
        · have e := h a
          have hb : (a == k) = false := by simpa using ha
          simpa [Memory.read, List.lookup_cons, hb] using e
      rw [this]

end Sys2Proof.Machine
end

