-- ==== Sys2Proof/Laws/Operands.lean ====
section
/-! SUPPORT. The laws of the operand forms: a register holds the integer that fits it (R21), and what a writable region is
(R56). -/

namespace Sys2Proof.Machine

/-- A register reads back the integer it was given, where that fits (R21). -/
theorem toInt_toRegister {v : Int} (h1 : -2 ^ 31 ≤ v) (h2 : v < 2 ^ 31) : (toRegister v).toInt = v := by
  unfold toRegister
  rw [if_pos ⟨h1, h2⟩, BitVec.toInt_ofInt]
  have : v.bmod (2 ^ 32) = v := by
    apply Int.bmod_eq_of_le <;> omega
  exact this

theorem byteWritable_iff {w : List Region} {a : Nat} :
    byteWritable w a = true ↔ ∃ r ∈ w, r.base ≤ a ∧ a < r.base + r.size := by
  simp [byteWritable]

theorem mem_cut {r : Region} {iv p : Nat × Nat} {a : Nat} (hp : p ∈ r.cut iv) (h1 : p.1 ≤ a) (h2 : a < p.2) :
    iv.1 ≤ a ∧ a < iv.2 ∧ ¬ (r.base ≤ a ∧ a < r.base + r.size) := by
  unfold Region.cut at hp
  obtain ⟨hp, -⟩ := List.mem_filter.mp hp
  simp only [List.mem_cons, List.not_mem_nil, or_false] at hp
  obtain rfl | rfl := hp <;> simp only [lt_inf_iff, sup_le_iff] at h1 h2 <;> omega

theorem exists_cut {r : Region} {iv : Nat × Nat} {a : Nat} (h1 : iv.1 ≤ a) (h2 : a < iv.2)
    (hr : ¬ (r.base ≤ a ∧ a < r.base + r.size)) : ∃ p ∈ r.cut iv, p.1 ≤ a ∧ a < p.2 := by
  unfold Region.cut
  by_cases hb : a < r.base
  · refine ⟨(iv.1, min iv.2 r.base), List.mem_filter.mpr ⟨by simp, ?_⟩, h1, ?_⟩
    · simp only [decide_eq_true_eq, lt_inf_iff]; omega
    · simp only [lt_inf_iff]; omega
  · refine ⟨(max iv.1 (r.base + r.size), iv.2), List.mem_filter.mpr ⟨by simp, ?_⟩, ?_, h2⟩
    · simp only [decide_eq_true_eq, sup_lt_iff]; omega
    · simp only [sup_le_iff]; omega

/-- A byte of the intervals is uncovered exactly when no region has it. -/
theorem exists_uncovered {w : List Region} {ivs : List (Nat × Nat)} {a : Nat} :
    (∃ p ∈ uncovered w ivs, p.1 ≤ a ∧ a < p.2) ↔
      (∃ p ∈ ivs, p.1 ≤ a ∧ a < p.2) ∧ byteWritable w a = false := by
  induction w generalizing ivs with
  | nil => simp [uncovered, byteWritable]
  | cons r w ih =>
    have e : uncovered (r :: w) ivs = uncovered w (ivs.flatMap r.cut) := rfl
    rw [e, ih]
    constructor
    · rintro ⟨⟨p, hp, h1, h2⟩, hw⟩
      obtain ⟨iv, hiv, hc⟩ := List.mem_flatMap.mp hp
      obtain ⟨g1, g2, g3⟩ := mem_cut hc h1 h2
      refine ⟨⟨iv, hiv, g1, g2⟩, ?_⟩
      unfold byteWritable at hw ⊢
      rw [List.any_cons, hw]
      simpa using g3
    · rintro ⟨⟨iv, hiv, h1, h2⟩, hw⟩
      unfold byteWritable at hw ⊢
      rw [List.any_cons, Bool.or_eq_false_iff] at hw
      obtain ⟨hr, hw⟩ := hw
      obtain ⟨p, hp, g1, g2⟩ := exists_cut h1 h2 (by simpa using hr)
      exact ⟨⟨p, List.mem_flatMap.mpr ⟨iv, hiv, hp⟩, g1, g2⟩, hw⟩

theorem uncovered_nonempty {w : List Region} {ivs : List (Nat × Nat)} (h : ∀ p ∈ ivs, p.1 < p.2) :
    ∀ p ∈ uncovered w ivs, p.1 < p.2 := by
  induction w generalizing ivs with
  | nil => exact h
  | cons r w ih =>
    refine ih (ivs := ivs.flatMap r.cut) fun p hp => ?_
    obtain ⟨iv, -, hc⟩ := List.mem_flatMap.mp hp
    simpa using (List.mem_filter.mp hc).2

/-- A region is writable exactly when each of its bytes is in some range of the launch memory (R56). -/
theorem regionWritable_iff {w : List Region} {addr len : Nat} :
    regionWritable w addr len = true ↔ ∀ a, addr ≤ a → a < addr + len → byteWritable w a = true := by
  unfold regionWritable
  by_cases hl : len = 0
  · subst hl
    simp only [decide_true, Bool.true_or, true_iff]
    intro a h1 h2
    omega
  · simp only [hl, decide_false, Bool.false_or, List.isEmpty_iff]
    constructor
    · intro he a h1 h2
      by_contra hb
      have := (exists_uncovered (w := w) (ivs := [(addr, addr + len)]) (a := a)).mpr
        ⟨⟨(addr, addr + len), by simp, h1, h2⟩, by simpa using hb⟩
      rw [he] at this
      simp at this
    · intro hall
      cases hu : uncovered w [(addr, addr + len)] with
      | nil => rfl
      | cons p ps =>
        exfalso
        have hp : p.1 < p.2 := uncovered_nonempty (w := w) (ivs := [(addr, addr + len)])
          (by simp; omega) p (by rw [hu]; simp)
        obtain ⟨⟨q, hq, h1, h2⟩, hb⟩ := (exists_uncovered (w := w) (ivs := [(addr, addr + len)]) (a := p.1)).mp
          ⟨p, by rw [hu]; simp, le_rfl, hp⟩
        simp only [List.mem_cons, List.not_mem_nil, or_false] at hq
        subst hq
        rw [hall p.1 h1 h2] at hb
        simp at hb

/-- A part of a writable region is writable. -/
theorem regionWritable_part {w : List Region} {addr len addr' len' : Nat} (h : regionWritable w addr len = true)
    (h1 : addr ≤ addr') (h2 : addr' + len' ≤ addr + len) : regionWritable w addr' len' = true :=
  regionWritable_iff.mpr fun a g1 g2 => regionWritable_iff.mp h a (by omega) (by omega)

end Sys2Proof.Machine
end

