-- ==== Sys2Proof/Laws/State.lean ====
section
/-! SUPPORT. One lemma per field per update of the state: what each named update writes and that it leaves the rest. -/

namespace Sys2Proof.Machine

variable (s : State)

/-! ## `setNote` -/

@[simp] theorem State.setNote_note (v : Word) : (s.setNote v).note = v := rfl
@[simp] theorem State.setNote_octave (v : Word) : (s.setNote v).octave = s.octave := rfl
@[simp] theorem State.setNote_acc (v : Word) : (s.setNote v).acc = s.acc := rfl
@[simp] theorem State.setNote_idx (v : Word) : (s.setNote v).idx = s.idx := rfl
@[simp] theorem State.setNote_fault (v : Word) : (s.setNote v).fault = s.fault := rfl
@[simp] theorem State.setNote_shut (v : Word) : (s.setNote v).shut = s.shut := rfl
@[simp] theorem State.setNote_fill (v : Word) : (s.setNote v).fill = s.fill := rfl
@[simp] theorem State.setNote_events (v : Word) : (s.setNote v).events = s.events := rfl
@[simp] theorem State.setNote_mem (v : Word) : (s.setNote v).mem = s.mem := rfl
@[simp] theorem State.setNote_writable (v : Word) : (s.setNote v).writable = s.writable := rfl
@[simp] theorem State.setNote_controlPort (v : Word) : (s.setNote v).controlPort = s.controlPort := rfl
@[simp] theorem State.setNote_audioPort (v : Word) : (s.setNote v).audioPort = s.audioPort := rfl
@[simp] theorem State.setNote_schedule (v : Word) : (s.setNote v).schedule = s.schedule := rfl
@[simp] theorem State.setNote_build (v : Word) : (s.setNote v).build = s.build := rfl
@[simp] theorem State.setNote_freeCount (v : Word) : (s.setNote v).freeCount = s.freeCount := rfl

/-! ## `setOctave` -/

@[simp] theorem State.setOctave_note (v : Word) : (s.setOctave v).note = s.note := rfl
@[simp] theorem State.setOctave_octave (v : Word) : (s.setOctave v).octave = v := rfl
@[simp] theorem State.setOctave_acc (v : Word) : (s.setOctave v).acc = s.acc := rfl
@[simp] theorem State.setOctave_idx (v : Word) : (s.setOctave v).idx = s.idx := rfl
@[simp] theorem State.setOctave_fault (v : Word) : (s.setOctave v).fault = s.fault := rfl
@[simp] theorem State.setOctave_shut (v : Word) : (s.setOctave v).shut = s.shut := rfl
@[simp] theorem State.setOctave_fill (v : Word) : (s.setOctave v).fill = s.fill := rfl
@[simp] theorem State.setOctave_events (v : Word) : (s.setOctave v).events = s.events := rfl
@[simp] theorem State.setOctave_mem (v : Word) : (s.setOctave v).mem = s.mem := rfl
@[simp] theorem State.setOctave_writable (v : Word) : (s.setOctave v).writable = s.writable := rfl
@[simp] theorem State.setOctave_controlPort (v : Word) : (s.setOctave v).controlPort = s.controlPort := rfl
@[simp] theorem State.setOctave_audioPort (v : Word) : (s.setOctave v).audioPort = s.audioPort := rfl
@[simp] theorem State.setOctave_schedule (v : Word) : (s.setOctave v).schedule = s.schedule := rfl
@[simp] theorem State.setOctave_build (v : Word) : (s.setOctave v).build = s.build := rfl
@[simp] theorem State.setOctave_freeCount (v : Word) : (s.setOctave v).freeCount = s.freeCount := rfl

/-! ## `setAcc` -/

@[simp] theorem State.setAcc_note (v : F64) : (s.setAcc v).note = s.note := rfl
@[simp] theorem State.setAcc_octave (v : F64) : (s.setAcc v).octave = s.octave := rfl
@[simp] theorem State.setAcc_acc (v : F64) : (s.setAcc v).acc = v := rfl
@[simp] theorem State.setAcc_idx (v : F64) : (s.setAcc v).idx = s.idx := rfl
@[simp] theorem State.setAcc_fault (v : F64) : (s.setAcc v).fault = s.fault := rfl
@[simp] theorem State.setAcc_shut (v : F64) : (s.setAcc v).shut = s.shut := rfl
@[simp] theorem State.setAcc_fill (v : F64) : (s.setAcc v).fill = s.fill := rfl
@[simp] theorem State.setAcc_events (v : F64) : (s.setAcc v).events = s.events := rfl
@[simp] theorem State.setAcc_mem (v : F64) : (s.setAcc v).mem = s.mem := rfl
@[simp] theorem State.setAcc_writable (v : F64) : (s.setAcc v).writable = s.writable := rfl
@[simp] theorem State.setAcc_controlPort (v : F64) : (s.setAcc v).controlPort = s.controlPort := rfl
@[simp] theorem State.setAcc_audioPort (v : F64) : (s.setAcc v).audioPort = s.audioPort := rfl
@[simp] theorem State.setAcc_schedule (v : F64) : (s.setAcc v).schedule = s.schedule := rfl
@[simp] theorem State.setAcc_build (v : F64) : (s.setAcc v).build = s.build := rfl
@[simp] theorem State.setAcc_freeCount (v : F64) : (s.setAcc v).freeCount = s.freeCount := rfl

/-! ## `setIdx` -/

@[simp] theorem State.setIdx_note (v : Word) : (s.setIdx v).note = s.note := rfl
@[simp] theorem State.setIdx_octave (v : Word) : (s.setIdx v).octave = s.octave := rfl
@[simp] theorem State.setIdx_acc (v : Word) : (s.setIdx v).acc = s.acc := rfl
@[simp] theorem State.setIdx_idx (v : Word) : (s.setIdx v).idx = v := rfl
@[simp] theorem State.setIdx_fault (v : Word) : (s.setIdx v).fault = s.fault := rfl
@[simp] theorem State.setIdx_shut (v : Word) : (s.setIdx v).shut = s.shut := rfl
@[simp] theorem State.setIdx_fill (v : Word) : (s.setIdx v).fill = s.fill := rfl
@[simp] theorem State.setIdx_events (v : Word) : (s.setIdx v).events = s.events := rfl
@[simp] theorem State.setIdx_mem (v : Word) : (s.setIdx v).mem = s.mem := rfl
@[simp] theorem State.setIdx_writable (v : Word) : (s.setIdx v).writable = s.writable := rfl
@[simp] theorem State.setIdx_controlPort (v : Word) : (s.setIdx v).controlPort = s.controlPort := rfl
@[simp] theorem State.setIdx_audioPort (v : Word) : (s.setIdx v).audioPort = s.audioPort := rfl
@[simp] theorem State.setIdx_schedule (v : Word) : (s.setIdx v).schedule = s.schedule := rfl
@[simp] theorem State.setIdx_build (v : Word) : (s.setIdx v).build = s.build := rfl
@[simp] theorem State.setIdx_freeCount (v : Word) : (s.setIdx v).freeCount = s.freeCount := rfl

/-! ## `setShut` -/

@[simp] theorem State.setShut_note (v : Bool) : (s.setShut v).note = s.note := rfl
@[simp] theorem State.setShut_octave (v : Bool) : (s.setShut v).octave = s.octave := rfl
@[simp] theorem State.setShut_acc (v : Bool) : (s.setShut v).acc = s.acc := rfl
@[simp] theorem State.setShut_idx (v : Bool) : (s.setShut v).idx = s.idx := rfl
@[simp] theorem State.setShut_fault (v : Bool) : (s.setShut v).fault = s.fault := rfl
@[simp] theorem State.setShut_shut (v : Bool) : (s.setShut v).shut = v := rfl
@[simp] theorem State.setShut_fill (v : Bool) : (s.setShut v).fill = s.fill := rfl
@[simp] theorem State.setShut_events (v : Bool) : (s.setShut v).events = s.events := rfl
@[simp] theorem State.setShut_mem (v : Bool) : (s.setShut v).mem = s.mem := rfl
@[simp] theorem State.setShut_writable (v : Bool) : (s.setShut v).writable = s.writable := rfl
@[simp] theorem State.setShut_controlPort (v : Bool) : (s.setShut v).controlPort = s.controlPort := rfl
@[simp] theorem State.setShut_audioPort (v : Bool) : (s.setShut v).audioPort = s.audioPort := rfl
@[simp] theorem State.setShut_schedule (v : Bool) : (s.setShut v).schedule = s.schedule := rfl
@[simp] theorem State.setShut_build (v : Bool) : (s.setShut v).build = s.build := rfl
@[simp] theorem State.setShut_freeCount (v : Bool) : (s.setShut v).freeCount = s.freeCount := rfl

/-! ## `setFill` -/

@[simp] theorem State.setFill_note (r : FillRecord) : (s.setFill r).note = s.note := rfl
@[simp] theorem State.setFill_octave (r : FillRecord) : (s.setFill r).octave = s.octave := rfl
@[simp] theorem State.setFill_acc (r : FillRecord) : (s.setFill r).acc = s.acc := rfl
@[simp] theorem State.setFill_idx (r : FillRecord) : (s.setFill r).idx = s.idx := rfl
@[simp] theorem State.setFill_fault (r : FillRecord) : (s.setFill r).fault = s.fault := rfl
@[simp] theorem State.setFill_shut (r : FillRecord) : (s.setFill r).shut = s.shut := rfl
@[simp] theorem State.setFill_fill (r : FillRecord) : (s.setFill r).fill = r := rfl
@[simp] theorem State.setFill_events (r : FillRecord) : (s.setFill r).events = s.events := rfl
@[simp] theorem State.setFill_mem (r : FillRecord) : (s.setFill r).mem = s.mem := rfl
@[simp] theorem State.setFill_writable (r : FillRecord) : (s.setFill r).writable = s.writable := rfl
@[simp] theorem State.setFill_controlPort (r : FillRecord) : (s.setFill r).controlPort = s.controlPort := rfl
@[simp] theorem State.setFill_audioPort (r : FillRecord) : (s.setFill r).audioPort = s.audioPort := rfl
@[simp] theorem State.setFill_schedule (r : FillRecord) : (s.setFill r).schedule = s.schedule := rfl
@[simp] theorem State.setFill_build (r : FillRecord) : (s.setFill r).build = s.build := rfl
@[simp] theorem State.setFill_freeCount (r : FillRecord) : (s.setFill r).freeCount = s.freeCount := rfl

/-! ## `setMem` -/

@[simp] theorem State.setMem_note (m : Memory) : (s.setMem m).note = s.note := rfl
@[simp] theorem State.setMem_octave (m : Memory) : (s.setMem m).octave = s.octave := rfl
@[simp] theorem State.setMem_acc (m : Memory) : (s.setMem m).acc = s.acc := rfl
@[simp] theorem State.setMem_idx (m : Memory) : (s.setMem m).idx = s.idx := rfl
@[simp] theorem State.setMem_fault (m : Memory) : (s.setMem m).fault = s.fault := rfl
@[simp] theorem State.setMem_shut (m : Memory) : (s.setMem m).shut = s.shut := rfl
@[simp] theorem State.setMem_fill (m : Memory) : (s.setMem m).fill = s.fill := rfl
@[simp] theorem State.setMem_events (m : Memory) : (s.setMem m).events = s.events := rfl
@[simp] theorem State.setMem_mem (m : Memory) : (s.setMem m).mem = m := rfl
@[simp] theorem State.setMem_writable (m : Memory) : (s.setMem m).writable = s.writable := rfl
@[simp] theorem State.setMem_controlPort (m : Memory) : (s.setMem m).controlPort = s.controlPort := rfl
@[simp] theorem State.setMem_audioPort (m : Memory) : (s.setMem m).audioPort = s.audioPort := rfl
@[simp] theorem State.setMem_schedule (m : Memory) : (s.setMem m).schedule = s.schedule := rfl
@[simp] theorem State.setMem_build (m : Memory) : (s.setMem m).build = s.build := rfl
@[simp] theorem State.setMem_freeCount (m : Memory) : (s.setMem m).freeCount = s.freeCount := rfl

/-! ## `emit` -/

@[simp] theorem State.emit_note (e : Event) : (s.emit e).note = s.note := rfl
@[simp] theorem State.emit_octave (e : Event) : (s.emit e).octave = s.octave := rfl
@[simp] theorem State.emit_acc (e : Event) : (s.emit e).acc = s.acc := rfl
@[simp] theorem State.emit_idx (e : Event) : (s.emit e).idx = s.idx := rfl
@[simp] theorem State.emit_fault (e : Event) : (s.emit e).fault = s.fault := rfl
@[simp] theorem State.emit_shut (e : Event) : (s.emit e).shut = s.shut := rfl
@[simp] theorem State.emit_fill (e : Event) : (s.emit e).fill = s.fill := rfl
@[simp] theorem State.emit_events (e : Event) : (s.emit e).events = s.events ++ [e] := rfl
@[simp] theorem State.emit_mem (e : Event) : (s.emit e).mem = s.mem := rfl
@[simp] theorem State.emit_writable (e : Event) : (s.emit e).writable = s.writable := rfl
@[simp] theorem State.emit_controlPort (e : Event) : (s.emit e).controlPort = s.controlPort := rfl
@[simp] theorem State.emit_audioPort (e : Event) : (s.emit e).audioPort = s.audioPort := rfl
@[simp] theorem State.emit_schedule (e : Event) : (s.emit e).schedule = s.schedule := rfl
@[simp] theorem State.emit_build (e : Event) : (s.emit e).build = s.build := rfl
@[simp] theorem State.emit_freeCount (e : Event) : (s.emit e).freeCount = s.freeCount := rfl

/-! ## `raise` -/

@[simp] theorem State.raise_note (c : FaultCause) : (s.raise c).note = s.note := rfl
@[simp] theorem State.raise_octave (c : FaultCause) : (s.raise c).octave = s.octave := rfl
@[simp] theorem State.raise_acc (c : FaultCause) : (s.raise c).acc = s.acc := rfl
@[simp] theorem State.raise_idx (c : FaultCause) : (s.raise c).idx = s.idx := rfl
@[simp] theorem State.raise_fault (c : FaultCause) : (s.raise c).fault = setFaultBit c s.fault := rfl
@[simp] theorem State.raise_shut (c : FaultCause) : (s.raise c).shut = s.shut := rfl
@[simp] theorem State.raise_fill (c : FaultCause) : (s.raise c).fill = s.fill := rfl
@[simp] theorem State.raise_events (c : FaultCause) : (s.raise c).events = s.events := rfl
@[simp] theorem State.raise_mem (c : FaultCause) : (s.raise c).mem = s.mem := rfl
@[simp] theorem State.raise_writable (c : FaultCause) : (s.raise c).writable = s.writable := rfl
@[simp] theorem State.raise_controlPort (c : FaultCause) : (s.raise c).controlPort = s.controlPort := rfl
@[simp] theorem State.raise_audioPort (c : FaultCause) : (s.raise c).audioPort = s.audioPort := rfl
@[simp] theorem State.raise_schedule (c : FaultCause) : (s.raise c).schedule = s.schedule := rfl
@[simp] theorem State.raise_build (c : FaultCause) : (s.raise c).build = s.build := rfl
@[simp] theorem State.raise_freeCount (c : FaultCause) : (s.raise c).freeCount = s.freeCount := rfl

end Sys2Proof.Machine
end

