-- ==== Sys2Proof/Laws/Oscillator.lean ====
section
/-! SUPPORT. What the frame loop of `WRS` can do: it writes `acc`, `idx` and memory and nothing else, it splits at any frame
(R191), and each frame stores the same two bytes twice or nothing (R187, R188). -/

namespace Sys2Proof.Machine

/-! ## One frame -/

theorem frameStep_eq (inc : F64) (a : Nat) (s : State) :
    frameStep inc a s =
      { s with
        acc := advancePhase inc s.acc
        idx := phaseIndex (advancePhase inc s.acc)
        mem := writeFrame s.mem a (phaseIndex (advancePhase inc s.acc)) } := rfl

/-- The frame's four bytes: the sample's low and high byte, twice (R187). -/
theorem stereoStore_eq (m : Memory) (a : Nat) (v : Int) :
    stereoStore m a v = m.store a (leBytes 2 (s16 v).toNat ++ leBytes 2 (s16 v).toNat) := by
  unfold stereoStore Memory.memWrite
  have := Memory.store_store m a (leBytes 2 (s16 v).toNat) (leBytes 2 (s16 v).toNat)
  rwa [leBytes_length] at this

/-- A frame outside its four bytes changes nothing. -/
theorem writeFrame_read_outside {m : Memory} {a x : Nat} {idx : Word} (h : x < a ∨ a + 4 ≤ x) :
    (writeFrame m a idx).read x = m.read x := by
  unfold writeFrame
  cases lookupEntry idx with
  | none => rfl
  | some e =>
    simp only [stereoStore_eq]
    exact Memory.read_store_outside (by simpa using h)

theorem writeFrame_wf {m : Memory} {a : Nat} {idx : Word} (hm : m.wf) (h : a + 4 ≤ Config.addrSpace) :
    (writeFrame m a idx).wf := by
  unfold writeFrame
  cases lookupEntry idx with
  | none => exact hm
  | some e =>
    simp only [stereoStore_eq]
    exact Memory.store_wf hm (by simpa using h)

/-! ## The loop -/

@[simp] theorem frameLoop_zero (inc : F64) (a : Nat) (s : State) : frameLoop inc 0 a s = s := rfl

theorem frameLoop_succ (inc : F64) (k a : Nat) (s : State) :
    frameLoop inc (k + 1) a s = frameLoop inc k (a + 4) (frameStep inc a s) := rfl

/-- The loop writes `acc`, `idx` and memory, and nothing else. -/
theorem frameLoop_frame (inc : F64) (k a : Nat) (s : State) :
    frameLoop inc k a s =
      { s with
        acc := (frameLoop inc k a s).acc
        idx := (frameLoop inc k a s).idx
        mem := (frameLoop inc k a s).mem } := by
  induction k generalizing a s with
  | zero => rfl
  | succ k ih => rw [frameLoop_succ, ih, frameStep_eq]

/-- The loop splits at any frame (R191). -/
theorem frameLoop_add (inc : F64) (k l a : Nat) (s : State) :
    frameLoop inc (k + l) a s = frameLoop inc l (a + 4 * k) (frameLoop inc k a s) := by
  induction k generalizing a s with
  | zero => simp
  | succ k ih =>
    rw [show k + 1 + l = (k + l) + 1 by omega, frameLoop_succ, ih, frameLoop_succ]
    congr 1
    omega

/-- The loop changes no byte outside its frames. -/
theorem frameLoop_read_outside {inc : F64} {k a x : Nat} {s : State} (h : x < a ∨ a + 4 * k ≤ x) :
    (frameLoop inc k a s).mem.read x = s.mem.read x := by
  induction k generalizing a s with
  | zero => rfl
  | succ k ih =>
    rw [frameLoop_succ, ih (by omega), frameStep_eq]
    exact writeFrame_read_outside (by omega)

theorem frameLoop_wf {inc : F64} {k a : Nat} {s : State} (hm : s.mem.wf) (h : a + 4 * k ≤ Config.addrSpace) :
    (frameLoop inc k a s).mem.wf := by
  induction k generalizing a s with
  | zero => exact hm
  | succ k ih =>
    rw [frameLoop_succ]
    refine ih ?_ (by omega)
    rw [frameStep_eq]
    exact writeFrame_wf hm (by omega)

/-! ## The body of `WRS` -/

theorem wrsBody_off {s : State} {a k : Nat} (h : s.note.toInt ≤ 0) : wrsBody a k s = s := if_pos h

theorem wrsBody_on {s : State} {a k : Nat} (h : 0 < s.note.toInt) :
    wrsBody a k s = frameLoop (PINC s.build.params s.note.toInt) k a s := if_neg (by omega)

/-- The body of `WRS` writes `acc`, `idx` and memory, and nothing else (R180). -/
theorem wrsBody_frame (a k : Nat) (s : State) :
    wrsBody a k s =
      { s with acc := (wrsBody a k s).acc, idx := (wrsBody a k s).idx, mem := (wrsBody a k s).mem } := by
  unfold wrsBody
  split
  · rfl
  · exact frameLoop_frame _ _ _ _

/-- The body splits at any frame (R191): `note` and the build are the same at the start of both parts. -/
theorem wrsBody_add (a k l : Nat) (s : State) :
    wrsBody a (k + l) s = wrsBody (a + 4 * k) l (wrsBody a k s) := by
  by_cases h : s.note.toInt ≤ 0
  · rw [wrsBody_off h, wrsBody_off h, wrsBody_off h]
  · have h' : 0 < s.note.toInt := by omega
    have hf := frameLoop_frame (PINC s.build.params s.note.toInt) k a s
    rw [wrsBody_on h', wrsBody_on h', frameLoop_add, wrsBody_on]
    · rw [hf]
    · rw [hf]; exact h'

@[simp] theorem wrsBody_zero (a : Nat) (s : State) : wrsBody a 0 s = s := by
  unfold wrsBody
  split <;> rfl

theorem wrsBody_read_outside {a k x : Nat} {s : State} (h : x < a ∨ a + 4 * k ≤ x) :
    (wrsBody a k s).mem.read x = s.mem.read x := by
  unfold wrsBody
  split
  · rfl
  · exact frameLoop_read_outside h

theorem wrsBody_wf {a k : Nat} {s : State} (hm : s.mem.wf) (h : a + 4 * k ≤ Config.addrSpace) :
    (wrsBody a k s).mem.wf := by
  unfold wrsBody
  split
  · exact hm
  · exact frameLoop_wf hm h

end Sys2Proof.Machine
end

