-- ==== Sys2Proof/Laws/PerInstr.lean ====
section
/-! SUPPORT. One statement for every instruction: its encoding is a word of its own port and selects its own row of the
opcode table (R83, R84), and of no other row. -/

namespace Sys2Proof.Laws

/-- The encoding of `i` is of its port's format, and the rows it selects are exactly those with its mnemonic. -/
def TableRow.Statement (i : Instr) : Prop :=
  match encode i with
  | .control w => i.port = .control ∧ ∀ r ∈ tableK, r.selects w = true ↔ r.mnemonic = i.mnemonic
  | .audio d => i.port = .audio ∧ ∀ r ∈ tableA, r.selects d = true ↔ r.mnemonic = i.mnemonic

theorem TableRow.octup : TableRow.Statement .octup := ⟨rfl, by decide⟩

theorem TableRow.octdn : TableRow.Statement .octdn := ⟨rfl, by decide⟩

theorem TableRow.notekey (off : Byte) : TableRow.Statement (.notekey off) := by
  refine ⟨rfl, ?_⟩
  revert off
  decide +kernel

theorem TableRow.keyother : TableRow.Statement .keyother := ⟨rfl, by decide⟩

theorem TableRow.keyup : TableRow.Statement .keyup := ⟨rfl, by decide⟩

theorem TableRow.shutdown : TableRow.Statement .shutdown := ⟨rfl, by decide⟩

theorem append_mask {m n : Nat} (x x' : BitVec m) (y y' : BitVec n) :
    (x ++ y) &&& (x' ++ y') = (x &&& x') ++ (y &&& y') := BitVec.and_append

/-- A format A descriptor masked field by field. -/
theorem descriptorA_mask (op : Byte) (a b c mb mc : Word) :
    descriptorA op a b c &&& (mc ++ mb ++ 0#32 ++ (0xFFFFFF#24 ++ 0xFF#8) : Descriptor) =
      descriptorA op 0#32 (b &&& mb) (c &&& mc) := by
  have ho : op &&& 0xFF#8 = op := BitVec.and_allOnes
  have h0 : (0#24 ++ op) &&& (0xFFFFFF#24 ++ 0xFF#8) = 0#24 ++ op := by rw [append_mask, ho, BitVec.zero_and]
  unfold descriptorA
  refine (append_mask (c ++ b ++ a) (mc ++ mb ++ 0#32) (0#24 ++ op) (0xFFFFFF#24 ++ 0xFF#8)).trans ?_
  rw [append_mask, append_mask, h0, BitVec.and_zero]

/-- What the `FILL` row looks at: fields `op`, `zero` and `C`. -/
theorem fillRow_mask (op : Byte) (a b c : Word) :
    descriptorA op a b c &&& 0xFFFFFFFF0000000000000000FFFFFFFF = descriptorA op 0 0 c := by
  have hc : c &&& 0xFFFFFFFF#32 = c := BitVec.and_allOnes
  have h := descriptorA_mask op a b c 0#32 0xFFFFFFFF#32
  rw [hc, BitVec.and_zero] at h
  exact h

/-- What the `WRS` row looks at: fields `op` and `zero`. -/
theorem wrsRow_mask (op : Byte) (a b c : Word) :
    descriptorA op a b c &&& 0x000000000000000000000000FFFFFFFF = descriptorA op 0 0 0 := by
  have h := descriptorA_mask op a b c 0#32 0#32
  rw [BitVec.and_zero, BitVec.and_zero] at h
  exact h

theorem TableRow.fill (dest byteLength : Word) : TableRow.Statement (.fill dest byteLength) := by
  refine ⟨rfl, ?_⟩
  simp only [tableA, List.forall_mem_cons, Sys2Proof.TableRow.selects, fillRow_mask, wrsRow_mask, Instr.mnemonic]
  refine ⟨by decide, by decide, by simp⟩

theorem TableRow.wrs (buf start count : Word) : TableRow.Statement (.wrs buf start count) := by
  refine ⟨rfl, ?_⟩
  simp only [tableA, List.forall_mem_cons, Sys2Proof.TableRow.selects, fillRow_mask, wrsRow_mask, Instr.mnemonic]
  have h : ¬descriptorA 0x11#8 0 0 count = 0x00000000000000000000000000000010 := by
    intro h
    have h := congrArg BitVec.toNat h
    rw [descriptorA_toNat] at h
    change 17 + 2 ^ 32 * 0 + 2 ^ 64 * 0 + 2 ^ 96 * count.toNat = 16 at h
    omega
  refine ⟨?_, by decide, by simp⟩
  rw [decide_eq_false h]
  decide

end Sys2Proof.Laws
end

