-- ==== Sys2Proof/Laws/Step.lean ====
section
/-! SUPPORT. Everything a command, a step of the audio command in progress and a turn can do, said once, for the proofs to
cite in place of unfolding. -/

namespace Sys2Proof.Machine

/-! ## The fault bits (R26, R231) -/

theorem setFaultBit_len (f : BitVec 3) : setFaultBit .lenFault f = f ||| 0b001#3 := rfl
theorem setFaultBit_addr (f : BitVec 3) : setFaultBit .addrFault f = f ||| 0b010#3 := rfl
theorem setFaultBit_ill (f : BitVec 3) : setFaultBit .illegalCommand f = f ||| 0b100#3 := rfl

/-- Setting a bit clears none. -/
theorem setFaultBit_sticky (c : FaultCause) (f : BitVec 3) : setFaultBit c f &&& f = f := by
  unfold setFaultBit
  ext i hi
  simp
  intro h
  exact Or.inl h

/-! ## Meanings -/

/-- A command of the control port always completes, and writes `note`, `octave`, `shut` and the event stream, to which it
adds at most one event, and nothing else (R37). -/
theorem exec_control {i : Instr} (hp : i.port = .control) (s : State) :
    ∃ n o sh ev, exec i s = .next { s with note := n, octave := o, shut := sh, events := s.events ++ ev } ∧
      ev.length ≤ 1 ∧ (s.shut = true → sh = true) := by
  cases i with
  | octup =>
    simp only [exec, execOctup]
    split
    · exact ⟨_, _, s.shut, [_], rfl, le_rfl, id⟩
    · exact ⟨s.note, s.octave, s.shut, [_], rfl, le_rfl, id⟩
  | octdn =>
    simp only [exec, execOctdn]
    split
    · exact ⟨_, _, s.shut, [_], rfl, le_rfl, id⟩
    · exact ⟨s.note, s.octave, s.shut, [_], rfl, le_rfl, id⟩
  | notekey off => exact ⟨_, s.octave, s.shut, [_], rfl, le_rfl, id⟩
  | keyother => exact ⟨s.note, s.octave, s.shut, [], by simp [exec, execKeyother], Nat.zero_le 1, id⟩
  | keyup => exact ⟨s.note, s.octave, s.shut, [], by simp [exec, execKeyup], Nat.zero_le 1, id⟩
  | shutdown => exact ⟨s.note, s.octave, true, [], by simp [exec, execShutdown, State.setShut], Nat.zero_le 1, fun _ => rfl⟩
  | fill dest byteLength => cases hp
  | wrs buf start count => cases hp

/-- What `FILL`'s step Z answers. -/
theorem exec_fill (dest byteLength : Word) (s : State) :
    exec (.fill dest byteLength) s =
      if fillInRange dest byteLength then
        if regionWritable s.writable dest.toNat byteLength.toNat then
          .next { s with mem := zeroFill s.mem dest byteLength, fill := fillStarted dest byteLength }
        else .fault .unwritableRegion
      else .next { s with fault := s.fault ||| 0b010#3 } := rfl

/-- What `WRS` answers. -/
theorem exec_wrs (buf start count : Word) (s : State) :
    exec (.wrs buf start count) s =
      if wrsInRange buf start count then
        if regionWritable s.writable (buf.toNat + 4 * start.toNat) (4 * count.toNat) then
          .next (wrsBody (buf.toNat + 4 * start.toNat) count.toNat s)
        else .fault .unwritableRegion
      else .next { s with fault := s.fault ||| 0b010#3 } := rfl

theorem zeroFill_wf {m : Memory} {dest byteLength : Word} (hm : m.wf) (h : fillInRange dest byteLength) :
    (zeroFill m dest byteLength).wf := by
  unfold zeroFill
  exact Memory.store_wf hm (by simpa using h)

/-- The bytes after the zero-fill (R211). -/
theorem zeroFill_read (m : Memory) (dest byteLength : Word) (a : Nat) :
    (zeroFill m dest byteLength).read a =
      if dest.toNat ≤ a ∧ a < dest.toNat + byteLength.toNat then some 0#8 else m.read a := by
  unfold zeroFill
  rw [Memory.read_store]
  simp only [List.length_replicate]
  split
  · rw [List.getElem?_replicate, if_pos (by omega)]
  · rfl

/-! ## The audio command in progress -/

/-- Step C (R212, R213, R216). -/
theorem fillCheck_eq (s : State) :
    fillCheck s =
      if s.fill.byteLength.toNat % 4 ≠ 0 then { s with fault := s.fault ||| 0b001#3, fill := FillRecord.idle }
      else if s.shut then { s with fill := FillRecord.idle }
      else if 0 < s.fill.byteLength.toNat / 4 then
        { s with fill := { s.fill with checked := true, frames := s.fill.byteLength.toNat / 4, cursor := 0 } }
      else { s with fill := FillRecord.idle } := rfl

theorem continueAt_eq (frames cursor : Nat) (s : State) :
    continueAt frames cursor s =
      { s with
        fill := if cursor < frames then { s.fill with checked := true, frames := frames, cursor := cursor }
          else FillRecord.idle } := by
  unfold continueAt completeAudio
  by_cases h : cursor < frames
  · rw [if_pos h, if_pos h]; rfl
  · rw [if_neg h, if_neg h]; rfl

/-- One chunk (R214, R215). -/
theorem fillChunk_eq (s : State) :
    fillChunk s =
      { wrsBody (s.fill.base.toNat + 4 * s.fill.cursor) (min 64 (s.fill.frames - s.fill.cursor)) s with
        fill :=
          if s.fill.cursor + min 64 (s.fill.frames - s.fill.cursor) < s.fill.frames then
            { s.fill with
              checked := true
              cursor := s.fill.cursor + min 64 (s.fill.frames - s.fill.cursor) }
          else FillRecord.idle } := by
  have hff : (wrsBody (s.fill.base.toNat + 4 * s.fill.cursor) (min 64 (s.fill.frames - s.fill.cursor)) s).fill =
      s.fill := by rw [wrsBody_frame]
  show continueAt _ _ (wrsBody (s.fill.base.toNat + 4 * s.fill.cursor) (min 64 (s.fill.frames - s.fill.cursor)) s) = _
  rw [continueAt_eq, hff]
  rfl

/-- A step of the audio command in progress writes `acc`, `idx`, `fault`, the transient record and memory, and nothing else
(R37). -/
theorem audioContinue_frame (s : State) :
    audioContinue s =
      { s with
        acc := (audioContinue s).acc
        idx := (audioContinue s).idx
        fault := (audioContinue s).fault
        fill := (audioContinue s).fill
        mem := (audioContinue s).mem } := by
  unfold audioContinue
  split
  · rw [fillChunk_eq]
    rw [wrsBody_frame (s.fill.base.toNat + 4 * s.fill.cursor) (min 64 (s.fill.frames - s.fill.cursor)) s]
  · rw [fillCheck_eq]
    split
    · rfl
    · split
      · rfl
      · split <;> rfl

/-! ## Turns -/

theorem step_nil {s : State} (h : s.schedule = []) : step s = .next s := by
  unfold step; rw [h]

theorem step_cons {s : State} {u : Turn} {ts : List Turn} (h : s.schedule = u :: ts) :
    step s = takeTurn u { s with schedule := ts } := by
  unfold step; rw [h]

/-- A turn of the control port: nothing waits; or the oldest word is illegal; or it is executed. -/
theorem controlTurn_cases (s : State) :
    (s.controlPort = [] ∧ controlTurn s = .next s) ∨
    (∃ w ws, s.controlPort = w :: ws ∧ (∀ i, decodeK w ≠ .ok i) ∧
      controlTurn s = .next { s with controlPort := ws, fault := s.fault ||| 0b100#3 }) ∨
    (∃ w ws i, s.controlPort = w :: ws ∧ decodeK w = .ok i ∧
      controlTurn s = exec i { s with controlPort := ws }) := by
  unfold controlTurn
  cases h : s.controlPort with
  | nil => exact Or.inl ⟨rfl, rfl⟩
  | cons w ws =>
    right
    cases hd : decodeK w with
    | error e => exact Or.inl ⟨w, ws, rfl, fun i => by rw [hd]; simp, by simp only [hd]; rfl⟩
    | ok i => exact Or.inr ⟨w, ws, i, rfl, hd, by simp only [hd]⟩

/-- A turn of the audio port: the command in progress goes on; or nothing waits; or the oldest descriptor is illegal; or
it is executed. -/
theorem audioTurn_cases (s : State) :
    (s.fill.busy = true ∧ audioTurn s = .next (audioContinue s)) ∨
    (s.fill.busy = false ∧ s.audioPort = [] ∧ audioTurn s = .next s) ∨
    (∃ d ds, s.fill.busy = false ∧ s.audioPort = d :: ds ∧ (∀ i, decodeA d ≠ .ok i) ∧
      audioTurn s = .next { s with audioPort := ds, fault := s.fault ||| 0b100#3 }) ∨
    (∃ d ds i, s.fill.busy = false ∧ s.audioPort = d :: ds ∧ decodeA d = .ok i ∧
      audioTurn s = exec i { s with audioPort := ds }) := by
  unfold audioTurn
  cases hb : s.fill.busy with
  | true => exact Or.inl ⟨rfl, by simp⟩
  | false =>
    right
    unfold audioAccept
    cases h : s.audioPort with
    | nil => exact Or.inl ⟨rfl, rfl, by simp⟩
    | cons d ds =>
      right
      cases hd : decodeA d with
      | error e => exact Or.inl ⟨d, ds, rfl, rfl, fun i => by rw [hd]; simp, by simp only [hd]; rfl⟩
      | ok i => exact Or.inr ⟨d, ds, i, rfl, rfl, hd, by simp [hd]⟩

/-- A control turn always answers a next state, and leaves every field but `note`, `octave`, `shut`, `fault`, the event
stream and the control port (R37). -/
theorem controlTurn_frame (s : State) :
    ∃ n o f sh ev p, controlTurn s =
      .next { s with note := n, octave := o, fault := f, shut := sh, events := s.events ++ ev, controlPort := p } ∧
      ev.length ≤ 1 ∧ f &&& s.fault = s.fault ∧ (s.shut = true → sh = true) := by
  rcases controlTurn_cases s with ⟨-, h⟩ | ⟨w, ws, -, -, h⟩ | ⟨w, ws, i, -, hd, h⟩
  · exact ⟨s.note, s.octave, s.fault, s.shut, [], s.controlPort, by simp [h], Nat.zero_le 1, by simp, id⟩
  · exact ⟨s.note, s.octave, s.fault ||| 0b100#3, s.shut, [], ws, by simp [h], Nat.zero_le 1,
      setFaultBit_sticky .illegalCommand s.fault, id⟩
  · obtain ⟨n, o, sh, ev, he, hl, hs⟩ := exec_control (decodeK_port hd) { s with controlPort := ws }
    exact ⟨n, o, s.fault, sh, ev, ws, by rw [h, he], hl, by simp, hs⟩

/-- An audio turn that answers a next state leaves every field but `acc`, `idx`, `fault`, the transient record, memory and
the audio port (R37). -/
theorem audioTurn_frame {s t : State} (h : audioTurn s = .next t) :
    t = { s with acc := t.acc, idx := t.idx, fault := t.fault, fill := t.fill, mem := t.mem, audioPort := t.audioPort } := by
  rcases audioTurn_cases s with ⟨-, e⟩ | ⟨-, -, e⟩ | ⟨d, ds, -, -, -, e⟩ | ⟨d, ds, i, -, -, hd, e⟩
  · rw [e] at h; injection h with h; subst h
    have hp : (audioContinue s).audioPort = s.audioPort := by rw [audioContinue_frame s]
    rw [hp]
    exact audioContinue_frame s
  · rw [e] at h; injection h with h; subst h; rfl
  · rw [e] at h; injection h with h; subst h; rfl
  · rw [e] at h
    rcases decodeA_ok hd with ⟨-, -, -, rfl⟩ | ⟨-, -, rfl⟩
    · rw [exec_fill] at h
      split at h
      · split at h
        · injection h with h; subst h; rfl
        · cases h
      · injection h with h; subst h; rfl
    · rw [exec_wrs] at h
      split at h
      · split at h
        · injection h with h; subst h
          rw [wrsBody_frame]
        · cases h
      · injection h with h; subst h; rfl

/-! ## The issue of commands, and the host -/

theorem takeTurn_issueControl (w : Half) (s : State) :
    takeTurn (.issueControl w) s = .next { s with controlPort := s.controlPort ++ [w] } := rfl

theorem takeTurn_issueAudio (d : Descriptor) (s : State) :
    takeTurn (.issueAudio d) s = .next { s with audioPort := s.audioPort ++ [d] } := rfl

/-- The region a descriptor names is that of the `FILL` or the `WRS` it decodes to. -/
theorem namedRegion_iff {d : Descriptor} {r : Nat × Nat} :
    namedRegion d = some r ↔
      (∃ dest byteLength : Word, decodeA d = .ok (.fill dest byteLength) ∧ r = (dest.toNat, byteLength.toNat)) ∨
        ∃ buf start count : Word, decodeA d = .ok (.wrs buf start count) ∧
          r = (buf.toNat + 4 * start.toNat, 4 * count.toNat) := by
  unfold namedRegion
  cases h : decodeA d with
  | error e => simp
  | ok i =>
    rcases decodeA_ok h with ⟨-, -, -, rfl⟩ | ⟨-, -, rfl⟩
    · simp [eq_comm]
    · simp [wrsRegion, frameAddr, eq_comm]

theorem mem_borrowedRegions {s : State} {r : Nat × Nat} :
    r ∈ borrowedRegions s ↔
      (s.fill.busy = true ∧ r = (s.fill.base.toNat, s.fill.byteLength.toNat)) ∨
        ∃ d ∈ s.audioPort, namedRegion d = some r := by
  unfold borrowedRegions
  cases s.fill.busy <;> simp

/-- Addresses are borrowed exactly when one of them lies in a borrowed region (R59). -/
theorem borrowed_iff {s : State} {addr len : Nat} :
    borrowed s addr len = true ↔
      ∃ a, addr ≤ a ∧ a < addr + len ∧ ∃ r ∈ borrowedRegions s, r.1 ≤ a ∧ a < r.1 + r.2 := by
  unfold borrowed
  rw [List.any_eq_true]
  constructor
  · rintro ⟨r, hr, h⟩
    simp only [meets, decide_eq_true_eq] at h
    exact ⟨max addr r.1, by omega, by omega, r, hr, by omega, by omega⟩
  · rintro ⟨a, h1, h2, r, hr, h3, h4⟩
    exact ⟨r, hr, by simp only [meets, decide_eq_true_eq]; omega⟩

/-- A read of the host that completes changes nothing (R54). -/
theorem hostRead_next {s t : State} {addr len : Nat} (h : hostRead addr len s = .next t) :
    t = s ∧ borrowed s addr len = false ∧ addr + len ≤ Config.addrSpace := by
  unfold hostRead at h
  split at h
  · cases h
  · split at h
    · injection h with h
      exact ⟨h.symm, by simp_all, by assumption⟩
    · cases h

/-- A write of the host that completes stores the named bytes, which are not borrowed, and changes nothing else (R59). -/
theorem hostWrite_next {s t : State} {addr : Nat} {bytes : List Byte} (h : hostWrite addr bytes s = .next t) :
    t = { s with mem := s.mem.store addr bytes } ∧ borrowed s addr bytes.length = false ∧
      addr + bytes.length ≤ Config.addrSpace := by
  unfold hostWrite at h
  split at h
  · cases h
  · split at h
    · injection h with h
      exact ⟨h.symm, by simp_all, by assumption⟩
    · cases h

end Sys2Proof.Machine
end

