-- ==== Sys2Proof/Machine/KeyMap.lean ====
section
/-! DEFINITION. The host's side of the control port: the key map (spec/42_note_controller.md R162, spec/30_encoding.md R93),
note names (R160) and the rendering of reports (R161). The block does not hold or use any of it. -/

namespace Sys2Proof.Machine

/-- `KEYMAP`, an open parameter of the host side (R162, D32): key symbols are numbers here. -/
structure KeyMap where
  /-- The note keys, each with its mapped semitone offset. -/
  noteKeys : List (Nat × Byte)
  /-- The octave-up key. -/
  upKey : Nat
  /-- The octave-down key. -/
  downKey : Nat
  deriving DecidableEq, Repr

/-- The constraints of R162: 27 note keys with offsets in `12 .. 40`, both 12 and 40 occurring, and no symbol with two
meanings. -/
def KeyMap.legal (k : KeyMap) : Bool :=
  decide (k.noteKeys.length = 27) && decide ((k.upKey :: k.downKey :: k.noteKeys.map (·.1)).Nodup) &&
  k.noteKeys.all (fun e => decide (Config.keyOffMin ≤ e.2.toNat ∧ e.2.toNat ≤ Config.keyOffMax)) &&
  k.noteKeys.any (fun e => e.2.toNat == Config.keyOffMin) && k.noteKeys.any (fun e => e.2.toNat == Config.keyOffMax)

/-- The control command a key-down event stands for: `KEYDOWN sym` (R93 a, R162). -/
def KeyMap.keyDown (k : KeyMap) (sym : Nat) : Instr :=
  if sym = k.upKey then .octup
  else if sym = k.downKey then .octdn
  else match k.noteKeys.lookup sym with
    | some off => .notekey off
    | none => .keyother

/-- The pitch-class strings `PC` (R160). -/
def pitchClassNames : List String := ["C-", "C#", "D-", "D#", "E-", "F-", "F#", "G-", "G#", "A-", "A#", "B-"]

/-- `name(n)` for `n >= 12` (R160, C3, C4); there is no name below (N27). -/
def noteName (n : Nat) : Option String :=
  if 12 ≤ n then
    match pitchClassNames[n % 12]? with
    | some pc => some (pc ++ toString (n / 12 - 1))
    | none => none
  else none

/-- The report line of an event, for a number format `fmt` of the pitch, which the spec leaves open (R161, N6). A report of
a note with no name renders no name. -/
def renderEvent (fmt : F64 → String) : Event → String
  | .noteReport n p => "note: " ++ (noteName n.toInt.toNat).getD "" ++ " pitch: " ++ fmt p ++ "Hz"
  | .octaveReport .up o => "increased octave to:" ++ toString o.toInt
  | .octaveReport .down o => "decreased octave to:" ++ toString o.toInt

end Sys2Proof.Machine
end

