-- ==== Sys2Proof/Machine/Listing.lean ====
section
/-! DEFINITION. The textual form of a command and the pseudo-commands (spec/30_encoding.md R92, R93), on lists of characters.
It carries no behaviour (D30). -/

namespace Sys2Proof.Machine

/-- What a line of a listing says. -/
inductive ListingItem
  /-- A line with nothing but a comment. -/
  | blank
  /-- A command on a port. -/
  | command (port : Port) (i : Instr)
  /-- A port's name alone: its agent's next step, as the programs of 95_test_vectors.md write it. -/
  | turn (port : Port)
  /-- `RESET`: the reset event, no command (R93 d). -/
  | reset
  deriving DecidableEq, Repr

/-- A blank. -/
def isBlank (c : Char) : Bool := c == ' ' || c == '\t'

/-- The text without blanks at either end. -/
def trim (cs : List Char) : List Char := ((cs.dropWhile isBlank).reverse.dropWhile isBlank).reverse

/-- The value of a digit in a base of at most 16. -/
def digit? (base : Nat) (c : Char) : Option Nat :=
  let v := if '0' ≤ c ∧ c ≤ '9' then c.toNat - 48
    else if 'a' ≤ c ∧ c ≤ 'f' then c.toNat - 87
    else if 'A' ≤ c ∧ c ≤ 'F' then c.toNat - 55 else 16
  if v < base then some v else none

/-- The value of a non-empty string of digits. -/
def digits? (base : Nat) : Option Nat → List Char → Option Nat
  | acc, [] => acc
  | acc, c :: cs =>
    match digit? base c with
    | some v => digits? base (some (acc.getD 0 * base + v)) cs
    | none => none

/-- A number: decimal, or hexadecimal with `0x` (R92). -/
def number? (cs : List Char) : Option Nat :=
  match trim cs with
  | '0' :: 'x' :: ds => digits? 16 none ds
  | ds => digits? 10 none ds

/-- An operand that fits an `n`-bit field. -/
def field? (n : Nat) (cs : List Char) : Option (BitVec n) :=
  match number? cs with
  | some v => if v < 2 ^ n then some (BitVec.ofNat n v) else none
  | none => none

/-- A text cut at its commas. -/
def operands : List Char → List (List Char)
  | [] => [[]]
  | c :: cs =>
    if c = ',' then [] :: operands cs
    else match operands cs with
      | o :: os => (c :: o) :: os
      | [] => [[c]]

/-- A command with no operands. -/
def plain? (rest : List Char) (i : Instr) : Option Instr := if rest = [] then some i else none

/-- `FILL`, and its synonym `CALLBACK` (R93 c); the second operand is multiplied by `scale`, which is 4 for `FILLF`
(R93 b). -/
def fill? (scale : Nat) (rest : List Char) : Option Instr :=
  match operands rest with
  | [d, l] =>
    match field? 32 d, number? l with
    | some dest, some n => if scale * n < 2 ^ 32 then some (.fill dest (BitVec.ofNat 32 (scale * n))) else none
    | _, _ => none
  | _ => none

/-- `WRS` and its three operands. -/
def wrs? (rest : List Char) : Option Instr :=
  match operands rest with
  | [b, s, c] =>
    match field? 32 b, field? 32 s, field? 32 c with
    | some buf, some start, some count => some (.wrs buf start count)
    | _, _, _ => none
  | _ => none

/-- A command from its mnemonic and the text of its operands (R92, R93). -/
def command? (mnemonic rest : List Char) : Option Instr :=
  if mnemonic = ['O', 'C', 'T', 'U', 'P'] then plain? rest .octup
  else if mnemonic = ['O', 'C', 'T', 'D', 'N'] then plain? rest .octdn
  else if mnemonic = ['N', 'O', 'T', 'E', 'K', 'E', 'Y'] then (field? 8 rest).map .notekey
  else if mnemonic = ['K', 'E', 'Y', 'O', 'T', 'H', 'E', 'R'] then plain? rest .keyother
  else if mnemonic = ['K', 'E', 'Y', 'U', 'P'] then plain? rest .keyup
  else if mnemonic = ['S', 'H', 'U', 'T', 'D', 'O', 'W', 'N'] then plain? rest .shutdown
  else if mnemonic = ['F', 'I', 'L', 'L'] then fill? 1 rest
  else if mnemonic = ['C', 'A', 'L', 'L', 'B', 'A', 'C', 'K'] then fill? 1 rest
  else if mnemonic = ['F', 'I', 'L', 'L', 'F'] then fill? 4 rest
  else if mnemonic = ['W', 'R', 'S'] then wrs? rest
  else none

/-- The port prefix of a line, `C:` or `A:`, and what follows it. -/
def portPrefix : List Char → Option Port × List Char
  | 'C' :: ':' :: rest => (some .control, rest)
  | 'A' :: ':' :: rest => (some .audio, rest)
  | cs => (none, cs)

/-- A command line, whose port prefix, if any, must be the command's own port. -/
def commandItem (port : Option Port) (i : Instr) : Option ListingItem :=
  if port = none ∨ port = some i.port then some (.command i.port i) else none

/-- One line of a listing (R92, R93): `;` starts a comment. -/
def parseLine (line : List Char) : Option ListingItem :=
  let p := portPrefix (trim (line.takeWhile (· != ';')))
  let body := trim p.2
  let mnemonic := body.takeWhile (fun c => !isBlank c)
  let rest := trim (body.dropWhile (fun c => !isBlank c))
  if body = [] then
    match p.1 with
    | some port => some (.turn port)
    | none => some .blank
  else if body = ['R', 'E', 'S', 'E', 'T'] then some .reset
  else match command? mnemonic rest with
    | some i => commandItem p.1 i
    | none => none

/-- A command's textual form with decimal numbers (R92). -/
def commandText : Instr → String
  | .notekey off => "NOTEKEY " ++ toString off.toNat
  | .fill dest byteLength => "FILL " ++ toString dest.toNat ++ ", " ++ toString byteLength.toNat
  | .wrs buf start count =>
    "WRS " ++ toString buf.toNat ++ ", " ++ toString start.toNat ++ ", " ++ toString count.toNat
  | .octup => Instr.mnemonic .octup
  | .octdn => Instr.mnemonic .octdn
  | .keyother => Instr.mnemonic .keyother
  | .keyup => Instr.mnemonic .keyup
  | .shutdown => Instr.mnemonic .shutdown

end Sys2Proof.Machine
end

