-- ==== Sys2Proof/Tests/Slice0.lean ====
section
/-! SUPPORT. Tests with the expected values the spec prints (spec/95_test_vectors.md and the rules' own examples), and, for
each statement of Certificates/Slice0/Obligations.lean that has hypotheses, a witness that meets them. -/

namespace Sys2Proof.Tests

open Sys2Proof.Machine

/-! ## Helpers -/

/-- The next state, where there is one. -/
def after : Host.Outcome State Fault Refusal → Option State
  | .next s => some s
  | _ => none

theorem next_of_after {o : Host.Outcome State Fault Refusal} (h : (after o).isSome = true) : ∃ t, o = .next t := by
  cases o with
  | next s => exact ⟨s, rfl⟩
  | fault r => cases h
  | refused r => cases h

/-- Reset with the two registers of the note controller set. -/
def at_ (octave note : Nat) : State :=
  { State.reset with octave := BitVec.ofNat 32 octave, note := BitVec.ofNat 32 note }

/-- The two registers after a command. -/
def octaveNote (o : Host.Outcome State Fault Refusal) : Option (Int × Int) :=
  (after o).map fun s => (s.octave.toInt, s.note.toInt)

/-- Memory after a command as plain numbers, lowest address first. -/
def cells (o : Host.Outcome State Fault Refusal) : Option (List (Nat × Nat)) :=
  (after o).map fun s => s.mem.map fun c => (c.1, c.2.toNat)

/-- Bytes at consecutive addresses, as `cells` gives them. -/
def bytesAt (a : Nat) (bs : List Nat) : List (Nat × Nat) := (List.range bs.length).map fun k => (a + k, bs.getD k 0)

/-- Memory with the same byte at `n` addresses from `a` on. -/
def filled (a n : Nat) (b : Byte) : Memory := cellsFrom a (List.replicate n b)

/-! ## WellFormed refuses an ill-formed term -/

theorem test_wellFormed_offset_below : (Instr.notekey 11).wellFormed = false := by decide
theorem test_wellFormed_offset_above : (Instr.notekey 41).wellFormed = false := by decide
theorem test_wellFormed_offset_bounds :
    (Instr.notekey 12).wellFormed = true ∧ (Instr.notekey 40).wellFormed = true := by decide

/-! ## Decoding (R94, V40 to V47): words written out from the formats -/

/-- V40, V41, V42, V42a, V43. -/
theorem test_decode_control :
    [0x0100#16, 0x0200#16, 0x0315#16, 0x030C#16, 0x0328#16, 0x0400#16, 0x0500#16, 0x0F00#16].map (decodeTableWord 16 ·.toNat) =
      [some .octup, some .octdn, some (.notekey 21), some (.notekey 12), some (.notekey 40), some .keyother, some .keyup,
       some .shutdown] := by decide

/-- V44, V45: the four words. -/
theorem test_decode_audio :
    [decodeTableWord 128 (descriptorOfWords 0x00000010 0x00001000 0x00000200 0x00000000).toNat,
     decodeTableWord 128 (descriptorOfWords 0x00000011 0x00001000 0x00000040 0x00000040).toNat] =
      [some (.fill 0x1000 512), some (.wrs 0x1000 64 64)] := by decide

/-- R82: the descriptor of R94 carried as sixteen bytes, each word little-endian. -/
theorem test_decode_audio_bytes :
    (decodeAudioBytes ([0x10, 0, 0, 0, 0, 0x10, 0, 0, 0, 2, 0, 0, 0, 0, 0, 0].map (BitVec.ofNat 8))).toOption =
      some (.fill 0x1000 512) := by decide

/-- V46. -/
theorem test_illegal_control :
    [0x0000#16, 0x0101#16, 0x030B#16, 0x0329#16, 0x0600#16, 0x0F01#16, 0xFFFF#16].map (decodeTableWord 16 ·.toNat) =
      List.replicate 7 none := by decide

/-- V47. -/
theorem test_illegal_audio :
    [descriptorOfWords 0x00000012 0 0 0, descriptorOfWords 0x00000110 0 0 0, descriptorOfWords 0x00000010 0 0 1].map
      (decodeTableWord 128 ·.toNat) = List.replicate 3 none := by decide

/-- The host's two entries run a table word as the first command after reset. -/
theorem test_withFetchWord :
    octaveNote (step (State.reset.withFetchWord 16 0x0100)) = some (1, 12) ∧
    (after (step (State.reset.withFetchWord 128 0x00000000000000040000100000000010))).map (·.fill.base) =
      some 0x1000#32 := by decide

/-! ## The note controller -/

/-- V39b: the upper clamp. -/
theorem test_octup_clamp : octaveNote (exec .octup (at_ 5 125)) = some (6, 131) := by decide
/-- V33: at the limit nothing changes and the report carries 6. -/
theorem test_octup_limit :
    octaveNote (exec .octup (at_ 6 112)) = some (6, 112) ∧
    (after (exec .octup (at_ 6 112))).map (·.events) = some [.octaveReport .up 6] := by decide
/-- V36: the lower clamp. -/
theorem test_octdn_clamp :
    octaveNote (exec .octdn (at_ 1 20)) = some (0, 12) ∧
    (after (exec .octdn (at_ 1 20))).map (·.events) = some [.octaveReport .down 0] := by decide
/-- V35. -/
theorem test_octdn_limit : octaveNote (exec .octdn (at_ 0 12)) = some (0, 12) := by decide
/-- V37. -/
theorem test_notekey_greatest :
    octaveNote (exec (.notekey 40) (at_ 6 0)) = some (6, 112) ∧
    (after (exec (.notekey 40) (at_ 6 0))).map (·.events) = some [.noteReport 112 0x40C49A0A791E127B#64] := by decide
/-- V30. -/
theorem test_notekey_reference :
    (after (exec (.notekey 21) (at_ 3 0))).map (·.events) = some [.noteReport 57 0x407B800000000000#64] := by decide
/-- V39c. -/
theorem test_keyother : after (exec .keyother (at_ 3 57)) = some (at_ 3 57) := by decide
/-- V39d. -/
theorem test_keyup : after (exec .keyup (at_ 3 57)) = some (at_ 3 57) := by decide
/-- R219. -/
theorem test_shutdown : (after (exec .shutdown (at_ 3 57))).map (·.shut) = some true := by decide

/-! ## The pitch mapper, the wavetable, the attenuation -/

/-- V7, V8, V9. -/
theorem test_increments :
    PINC defaultParams 57 = 0x40246EFDCB4A6B82#64 ∧ PINC defaultParams 12 = 0x3FE84CBB6F967329#64 ∧
    PINC defaultParams 112 = 0x406E9DA1A3FDC908#64 := by decide +kernel
/-- R14, R90: `-3` and `-2^53`. -/
theorem test_f64_negative : f64 (-3) = 0xC008000000000000#64 ∧ f64 (-(2 ^ 53)) = 0xC340000000000000#64 := by
  decide +kernel
/-- R132: no legal build has a `PITCH` that is zero, negative or not finite, at whatever note. -/
theorem test_pitchPositive_refuses :
    [0#64, 0x8000000000000000#64, 0xC07B800000000000#64, 0x7FF0000000000000#64, 0x7FF8000000000000#64].map
      (fun v => pitchPositive { defaultParams with pitchTable := [(200, v)] }) = List.replicate 5 false := by decide +kernel
/-- V3, V4. -/
theorem test_wavetable :
    [85, 86, 128, 255, 257, 513, 1021, 1023].map wave? =
      [16325, 16499, 23170, 32766, 32766, -201, -603, -201].map some := by decide
/-- V9c, V9d. -/
theorem test_attenuate :
    [2009, -2611, 32767, -32767, -32768, 1, -1, 3, -3, 4, -4, 9, -9].map attenuate =
      [602, -783, 9830, -9830, -9830, 0, 0, 0, 0, 1, -1, 2, -2] := by decide

/-! ## The oscillator -/

/-- V14: `start` moves the frames, not the phase. -/
theorem test_wrs_start :
    cells (exec (.wrs 0x1000 2 2) (at_ 3 57)) = some (bytesAt 0x1008 [0x5A, 2, 0x5A, 2, 0xB3, 4, 0xB3, 4]) ∧
    (after (exec (.wrs 0x1000 2 2) (at_ 3 57))).map (fun s => (s.acc, s.idx)) = some (0x40346EFDCB4A6B82#64, 20) := by
  decide +kernel
/-- V15: a wrap, at the highest reachable note. -/
theorem test_wrs_wrap :
    cells (exec (.wrs 0x3000 0 6) (at_ 6 112)) = some (bytesAt 0x3000
      [0x4B, 0x26, 0x4B, 0x26, 0x66, 0x05, 0x66, 0x05, 0x6F, 0xDA, 0x6F, 0xDA, 0x89, 0xF5, 0x89, 0xF5,
       0x27, 0x24, 0x27, 0x24, 0x58, 0x0F, 0x58, 0x0F]) ∧
    (after (exec (.wrs 0x3000 0 6) (at_ 6 112))).map (fun s => (s.acc, s.idx)) = some (0x407BD8E4EBF95B18#64, 445) := by
  decide +kernel

/-! ## The audio callback -/

/-- V24, step Z: six bytes are zeroed, the next two stay. -/
theorem test_fill_zeroes :
    cells (exec (.fill 0x1000 6) { at_ 3 57 with mem := filled 0x1000 8 0xAA }) =
      some (bytesAt 0x1000 [0, 0, 0, 0, 0, 0, 0xAA, 0xAA]) := by decide
/-- V25: out of range, nothing is zeroed. -/
theorem test_fill_address_fault :
    after (exec (.fill 0xFFFFFFFE 6) (at_ 3 57)) = some { at_ 3 57 with fault := 0b010#3 } := by decide

/-- A `FILL 0x1000, 280` whose next turn is the chunk at `cursor`. -/
def fillAt (cursor : Nat) : FillRecord :=
  { busy := true, kind := .fill, base := 0x1000, byteLength := 280, checked := true, frames := 70, cursor := cursor }

/-- V23: the short last chunk, from the phase V13 gives after 64 frames. -/
theorem test_last_chunk :
    cells (audioTurn { at_ 3 57 with acc := 0x40846EFDCB4A6B81#64, fill := fillAt 64 }) = some (bytesAt 0x1100
      [0x29, 0xE1, 0x29, 0xE1, 0xD1, 0xDF, 0xD1, 0xDF, 0x97, 0xDE, 0x97, 0xDE, 0x7E, 0xDD, 0x7E, 0xDD,
       0x87, 0xDC, 0x87, 0xDC, 0x9D, 0xDB, 0x9D, 0xDB]) ∧
    (after (audioTurn { at_ 3 57 with acc := 0x40846EFDCB4A6B81#64, fill := fillAt 64 })).map
      (fun s => (s.acc, s.idx, s.fill.busy)) = some (0x4086596596596595#64, 715, false) := by decide +kernel

/-- V22: with `shut` set, step C completes the command. -/
theorem test_shutdown_check :
    after (audioTurn { at_ 6 112 with shut := true, fill := fillStarted 0x2000 16 }) =
      some { at_ 6 112 with shut := true } := by decide

/-- P4: a control command between two chunks. -/
theorem test_note_change_between_chunks :
    octaveNote (step { at_ 3 57 with fill := fillAt 64, controlPort := [0x0321], schedule := [.control] }) =
      some (3, 69) := by decide

/-! ## Memory -/

theorem test_store_keeps_order :
    ((filled 0x10 3 0xAA).store 0x11 [1, 2, 3]) = [(0x10, 0xAA), (0x11, 1), (0x12, 2), (0x13, 3)] := by decide
/-- R51's two examples, at the top of memory. -/
theorem test_byte_order :
    (Memory.memWrite [] 0xFFFFFFFE 2 (s16 (-783)).toNat) = [(0xFFFFFFFE, 0xF1), (0xFFFFFFFF, 0xFC)] := by decide
theorem test_regions_together_cover :
    regionWritable [⟨0x1000, 8⟩, ⟨0x1008, 8⟩] 0x1004 8 = true ∧ regionWritable [⟨0x1000, 8⟩] 0x1004 5 = false := by
  decide

/-! ## The host's side -/

/-- R59: the buffer belongs to the block from the issue of the `FILL` on: before any of its steps, the host's write of its
last byte is refused, and that of the byte after it is not. -/
theorem test_borrowed_from_issue :
    ((after (step { at_ 3 57 with schedule := [.issueAudio (descriptorOfWords 0x10 0x1000 8 0)] })).map fun s =>
      (s.audioPort.length, borrowed s 0x1007 1, borrowed s 0x1008 1)) = some (1, true, false) := by decide

/-- R160. -/
theorem test_names :
    [12, 13, 24, 57, 60, 100, 112, 131, 11].map noteName =
      [some "C-0", some "C#0", some "C-1", some "A-3", some "C-4", some "E-7", some "E-8", some "B-9", none] := by
  decide
/-- R92, R93 (b): a line of P1, and `FILLF`. -/
theorem test_listing :
    parseLine "A: WRS 0x1000, 0, 8    ; 0x00000011".toList = some (.command .audio (.wrs 0x1000 0 8)) ∧
    parseLine "FILLF 0x1000, 128".toList = some (.command .audio (.fill 0x1000 512)) := by decide

/-! ## Witnesses: the hypotheses of the statements can be met -/

/-- A `FILL 0x1000, 280` in progress, before its last chunk, on the audio port's turn. -/
def running : State := { at_ 3 57 with fill := fillAt 64, schedule := [.audio] }

/-- The same before its first chunk. -/
def runningStart : State := { running with fill := fillAt 0 }

/-- A state on the turn of a port, with a word or a descriptor waiting. -/
def waitingControl (w : Half) : State := { at_ 3 57 with controlPort := [w], schedule := [.control] }
def waitingAudio (d : Descriptor) : State := { at_ 3 57 with audioPort := [d], schedule := [.audio] }

/-- `FILL 0x1000, 280` and `WRS 0xFFFFFFF0, 2, 2` as descriptors. -/
def fillWord : Descriptor := descriptorOfWords 0x10 0x1000 280 0
def wrsWord : Descriptor := descriptorOfWords 0x11 0xFFFFFFF0 2 2

theorem witness_ResetGivesTheResetValues : running.fill.busy = true ∧ State.reset.fill.busy = false ∧
    (none : Option Port) ≠ some .audio := by decide

/-- Reset between steps, in the middle of a `FILL`, and cutting short the first step of a waiting `WRS`, with an address on
each side of the region's edges; and cutting short a waiting control command. -/
theorem witness_ResetTouchesOnlyTheAbandonedRegion :
    (∃ s : State, s.schedule = [.reset none] ∧ s.fill.busy = true ∧
      (0xFFF < s.fill.base.toNat) ∧ s.fill.base.toNat + s.fill.byteLength.toNat ≤ 0x1118) ∧
    (∃ s : State, s.schedule = [.reset (some .audio)] ∧ s.fill.busy = false ∧ s.audioPort = [wrsWord] ∧
      regionOf s.writable wrsWord = some (0xFFFFFFF8, 8)) ∧
    (∃ s : State, s.schedule = [.reset (some .control)] ∧ s.controlPort = [0x0100]) :=
  ⟨⟨{ running with schedule := [.reset none] }, by decide⟩,
   ⟨{ waitingAudio wrsWord with schedule := [.reset (some .audio)] }, by decide⟩,
   ⟨{ waitingControl 0x0100 with schedule := [.reset (some .control)] }, by decide⟩⟩

theorem witness_DecodeOfEncode : (Instr.notekey 12).wellFormed = true ∧ (Instr.notekey 40).wellFormed = true ∧
    (Instr.wrs 0xFFFFFFFF 0xFFFFFFFF 0xFFFFFFFF).wellFormed = true := by decide

theorem witness_EncodeOfDecode : decode (.control 0x0328) = .ok (.notekey 40) ∧
    decode (.audio wrsWord) = .ok (.wrs 0xFFFFFFF0 2 2) := by constructor <;> rfl

theorem witness_ControlOpcodeTable : decodeK 0x030C = .ok (.notekey 12) ∧ decodeK 0x0328 = .ok (.notekey 40) ∧
    ∃ r ∈ tableK, r.selects 0x0328 = true ∧ r.mnemonic = "NOTEKEY" :=
  ⟨rfl, rfl, ⟨"NOTEKEY", 0x0300, 0xFF00⟩, by decide⟩

theorem witness_AudioOpcodeTable : decodeA fillWord = .ok (.fill 0x1000 280) ∧
    decodeA wrsWord = .ok (.wrs 0xFFFFFFF0 2 2) ∧ (∃ r ∈ tableA, r.selects wrsWord = true) :=
  ⟨rfl, rfl, ⟨"WRS", 0x11, 0xFFFFFFFF⟩, by decide⟩

theorem not_ok_of_none {n w : Nat} (h : decodeTableWord n w = none) : ∀ i, decode (tableCommandWord n w) ≠ .ok i := by
  intro i hi
  simp [decodeTableWord, hi] at h

/-- The offsets just outside the legal range, and a nonzero reserved field. -/
theorem witness_IllegalEncodings :
    (∀ i, decodeK 0x030B ≠ .ok i) ∧ (∀ i, decodeK 0x0329 ≠ .ok i) ∧ (∀ i, decodeA (descriptorOfWords 0x110 0 0 0) ≠ .ok i) ∧
    (waitingControl 0x0329).schedule = [.control] ∧ (waitingControl 0x0329).controlPort = [0x0329] ∧
    (waitingAudio (descriptorOfWords 0x110 0 0 0)).schedule = [.audio] ∧
    (waitingAudio (descriptorOfWords 0x110 0 0 0)).fill.busy = false :=
  ⟨not_ok_of_none (n := 16) (w := 0x030B) (by decide), not_ok_of_none (n := 16) (w := 0x0329) (by decide),
   not_ok_of_none (n := 128) (w := 0x110) (by decide), rfl, rfl, rfl, rfl⟩

theorem witness_ControlTurnRunsTheDecodedCommand : (waitingControl 0x0100).schedule = [.control] ∧
    (waitingControl 0x0100).controlPort = [0x0100] ∧ decodeK 0x0100 = .ok .octup := by refine ⟨rfl, rfl, rfl⟩

theorem witness_AudioTurnRunsTheDecodedCommand : (waitingAudio wrsWord).schedule = [.audio] ∧
    (waitingAudio wrsWord).fill.busy = false ∧ (waitingAudio wrsWord).audioPort = [wrsWord] ∧
    decodeA wrsWord = .ok (.wrs 0xFFFFFFF0 2 2) := by refine ⟨rfl, rfl, rfl, rfl⟩

theorem witness_BusyAudioPortAcceptsNothing : running.schedule = [.audio] ∧ running.fill.busy = true := by decide

theorem witness_IdleBlockHoldsItsState : State.reset.schedule = [] ∧
    { State.reset with schedule := [.control] }.controlPort = [] ∧
    { State.reset with schedule := [.audio] }.audioPort = [] ∧ State.reset.fill.busy = false := by decide

/-- At the last octave below the maximum, voiced and silent; at the maximum; the spec's example. -/
theorem witness_OctaveUp : ((at_ 5 0).octave.toInt < 6 ∧ (at_ 5 0).note = 0 ∧ (at_ 5 0).controllerInv) ∧
    ((at_ 5 100).octave.toInt < 6 ∧ (at_ 5 100).controllerInv) ∧ 6 ≤ (at_ 6 112).octave.toInt ∧
    ((at_ 2 45).octave = 2 ∧ (at_ 2 45).note = 45) := by decide

theorem witness_OctaveDown : (0 < (at_ 1 0).octave.toInt ∧ (at_ 1 0).note = 0) ∧ (at_ 0 12).octave.toInt ≤ 0 ∧
    ((at_ 6 12).octave = 6 ∧ (at_ 6 12).note = 12) ∧ ((at_ 4 69).octave = 4 ∧ (at_ 4 69).note = 69) ∧
    ((at_ 1 20).octave = 1 ∧ (at_ 1 20).note = 20 ∧ (after (exec .octdn (at_ 1 20))).isSome = true) := by decide

/-- The least and the greatest operand, in the states that give the least and the greatest note. -/
theorem witness_NoteKey : ((at_ 0 0).controllerInv ∧ legalOffset 12) ∧ ((at_ 6 0).controllerInv ∧ legalOffset 40) ∧
    ((40#8).toNat : Int) + 12 * (at_ 6 0).octave.toInt < 2 ^ 31 ∧ (at_ 3 0).octave = 3 ∧ (at_ 6 0).octave = 6 := by decide

theorem witness_ShutdownSetsTheFlag : (after (exec .shutdown (at_ 3 57))).isSome = true ∧
    (after (step { waitingControl 0x0100 with shut := true })).isSome = true ∧
    (waitingControl 0x0100).schedule = [.control] ∧ ∀ p, Turn.control ≠ .reset p := by
  refine ⟨by decide, by decide, rfl, ?_⟩
  intro p h; cases h

theorem witness_ShutdownDoesNotDisableTheControlPort : (Instr.notekey 12).port = .control := by decide

/-- The greatest reachable note, with an `OCTUP` that changes it next. -/
theorem witness_ControllerRangeIsKept : { waitingControl 0x0100 with note := 100, octave := 5 }.controllerInv ∧
    (after (step { waitingControl 0x0100 with note := 100, octave := 5 })).isSome = true := by decide

theorem witness_EveryNoteOfTheRangeOccurs : octaveNote (exec (.notekey 12) (at_ 0 0)) = some (0, 12) ∧
    octaveNote (exec (.notekey 40) (at_ 6 0)) = some (6, 112) := by decide

theorem witness_VoiceNeverTurnsOffByItself : { waitingControl 0x0200 with note := 12, octave := 6 }.controllerInv ∧
    0 < (12#32).toInt ∧ (after (step { waitingControl 0x0200 with note := 12, octave := 6 })).isSome = true := by decide

theorem witness_EventStreamIsAppendOnly : (after (step (waitingControl 0x0100))).isSome = true ∧
    (waitingControl 0x0100).schedule = [.control] ∧ (after (step (waitingAudio fillWord))).isSome = true ∧
    (waitingAudio fillWord).schedule = [.audio] := by decide

/-- A sum, a difference, a product and a quotient, each at a tie that the even fraction decides, with the other nearest value
as `c`: `2^53 + 1`, `2^53 - (-1)`, `(1 + 2^-52) * 1.5`, and half the least subnormal. -/
theorem witness_ArithmeticRoundsToNearestEven :
    (|units (fadd 0x4340000000000000#64 0x3FF0000000000000#64) -
        (units 0x4340000000000000#64 + units 0x3FF0000000000000#64)| =
      |units 0x4340000000000001#64 - (units 0x4340000000000000#64 + units 0x3FF0000000000000#64)| ∧
      units 0x4340000000000001#64 ≠ units (fadd 0x4340000000000000#64 0x3FF0000000000000#64)) ∧
    (|units (fsub 0x4340000000000000#64 0xBFF0000000000000#64) -
        (units 0x4340000000000000#64 - units 0xBFF0000000000000#64)| =
      |units 0x4340000000000001#64 - (units 0x4340000000000000#64 - units 0xBFF0000000000000#64)| ∧
      units 0x4340000000000001#64 ≠ units (fsub 0x4340000000000000#64 0xBFF0000000000000#64)) ∧
    (|units (fmul 0x3FF0000000000001#64 0x3FF8000000000000#64) * (unitsPerOne : Int) -
        units 0x3FF0000000000001#64 * units 0x3FF8000000000000#64| =
      |units 0x3FF8000000000001#64 * (unitsPerOne : Int) - units 0x3FF0000000000001#64 * units 0x3FF8000000000000#64| ∧
      units 0x3FF8000000000001#64 ≠ units (fmul 0x3FF0000000000001#64 0x3FF8000000000000#64)) ∧
    (|units (fdiv 1#64 0x4000000000000000#64) * units 0x4000000000000000#64 - units 1#64 * (unitsPerOne : Int)| =
      |units 1#64 * units 0x4000000000000000#64 - units 1#64 * (unitsPerOne : Int)| ∧
      units 1#64 ≠ units (fdiv 1#64 0x4000000000000000#64)) := by decide +kernel

/-- The bound of each operation's exact result, met at the largest finite value. -/
theorem witness_ArithmeticRoundsToNearestEven_bounds :
    isFinite 0x7FEFFFFFFFFFFFFF#64 = true ∧ isFinite 0x3FF0000000000000#64 = true ∧
    |units 0x7FEFFFFFFFFFFFFF#64 + units 0#64| ≤ (magOfBits (2047 * 2 ^ 52 - 1) : Int) ∧
    |units 0x7FEFFFFFFFFFFFFF#64 - units 0#64| ≤ (magOfBits (2047 * 2 ^ 52 - 1) : Int) ∧
    |units 0x7FEFFFFFFFFFFFFF#64 * units 0x3FF0000000000000#64| ≤
      (magOfBits (2047 * 2 ^ 52 - 1) : Int) * (unitsPerOne : Int) ∧
    units 0x3FF0000000000000#64 ≠ 0 ∧
    |units 0x7FEFFFFFFFFFFFFF#64| * (unitsPerOne : Int) ≤
      (magOfBits (2047 * 2 ^ 52 - 1) : Int) * |units 0x3FF0000000000000#64| := by decide +kernel

theorem witness_ComparisonFloorAndConversionAreExact : isFinite 0x40903BF735F91FE2#64 = true ∧ isFinite 0#64 = true ∧
    |(2 ^ 53 : Int)| ≤ 2 ^ 53 ∧ |(-(2 ^ 53) : Int)| ≤ 2 ^ 53 := by decide

theorem witness_WavetableIsTheRoundedSine : (1023 : Nat) < 1024 ∧ (1024 : Nat) ≤ 1024 ∧ wave? 1023 = some (-201) := by decide

theorem witness_WavetableSymmetriesAndSums : wave? 511 = some 201 ∧ wave? 1023 = some (-201) ∧ wave? 255 = some 32766 := by
  decide

/-- A build other than the default, whose `PITCH` differs in its last bit at note 60 and by an octave at note 200: the
statements about every build are not about one. -/
theorem witness_PitchHasItsNamedProperties :
    legalBuild { defaultParams with pitchTable := [(60, 0x40805A0250C2B957#64), (200, 0x407B800000000000#64)] } = true := by decide +kernel

theorem witness_DefaultPitchIsCorrectlyRounded : (-12312 : Int) / 12 = -1026 ∧ (12239 : Int) / 12 = 1019 ∧
    isFinite 0x7FEFFFFFFFFFFFFF#64 = true := by decide

theorem witness_DefaultPitchDoublesPerOctave : (-12312 : Int) / 12 = -1026 ∧ (12227 : Int) / 12 = 1018 := by decide

theorem witness_DefaultIncrementTable : PINC defaultParams 1 = 0x3FD9BEA2DB16DCD1#64 ∧
    PINC defaultParams 131 = 0x4086EF96DC8AA649#64 := by decide +kernel

theorem witness_IncrementBelowTableLength : defaultParams.sampleRate = 44100 ∧ pitchP1 defaultParams = true ∧
    pitchP2 defaultParams = true ∧ pitchP3 defaultParams = true := by decide +kernel

theorem witness_AttenuationTruncatesTheExactProduct : attenuate 32767 = 9830 ∧ attenuate (-32768) = -9830 := by decide

/-- The largest binary64 value below `N`, as phase and as increment, and a sum that rounds to `N` itself. -/
theorem witness_WrapKeepsThePhaseInTheTable :
    inTable 0x408FFFFFFFFFFFFF#64 ∧ 0 < units 0x408FFFFFFFFFFFFF#64 ∧ inTable 0#64 ∧
    inTable 0x3D30000000000000#64 ∧ fadd 0x408FFFFFFFFFFFFF#64 0x3D30000000000000#64 = 0x4090000000000000#64 ∧
    advancePhase 0x3D30000000000000#64 0x408FFFFFFFFFFFFF#64 = 0#64 := by decide +kernel

theorem witness_PhaseInvariantIsKept : (waitingAudio wrsWord).controllerInv ∧ (waitingAudio wrsWord).phaseInv ∧
    (after (step (waitingAudio wrsWord))).isSome = true := by decide +kernel

/-- Frames up to the last byte of memory, and no frame. -/
theorem witness_WriteSamplesVoiced : 0 < (at_ 3 57).note.toInt ∧ wrsInRange 0xFFFFFFF0 2 2 ∧
    regionWritable (at_ 3 57).writable ((0xFFFFFFF0#32).toNat + 4 * (2#32).toNat) (4 * (2#32).toNat) = true ∧
    wrsInRange 0xFFFFFFF0 4 0 ∧
    regionWritable (at_ 3 57).writable ((0xFFFFFFF0#32).toNat + 4 * (4#32).toNat) (4 * (0#32).toNat) = true ∧
    sampleOfFrame (PINC (at_ 3 57).build.params 57) 0#64 0 = some 602 := by decide +kernel

theorem witness_NoFrameIsSkipped : (at_ 6 112).controllerInv ∧ (at_ 6 112).phaseInv ∧ 0 < (at_ 6 112).note.toInt := by
  decide +kernel

theorem witness_WriteSamplesVoiceOff : State.reset.note.toInt ≤ 0 ∧ wrsInRange 0x3000 0 2 ∧
    regionWritable State.reset.writable ((0x3000#32).toNat + 4 * (0#32).toNat) (4 * (2#32).toNat) = true := by decide

/-- V19's two commands: one frame too many, and the last that fits. -/
theorem witness_WriteSamplesAddressFault :
    2 ^ 32 < (0xFFFFFFF0#32).toNat + 4 * ((2#32).toNat + (3#32).toNat) ∧
    (0xFFFFFFF0#32).toNat + 4 * ((2#32).toNat + (2#32).toNat) ≤ 2 ^ 32 ∧
    (after (exec (.wrs 0xFFFFFFF0 2 2) (at_ 0 0))).isSome = true := by decide

theorem witness_SplitEqualsWhole : (0#32).toNat + (1#32).toNat + (2#32).toNat < 2 ^ 32 ∧ wrsInRange 0x1000 0 (1 + 2) ∧
    (after (exec (.wrs 0x1000 0 (1 + 2)) (at_ 3 57))).isSome = true := by decide +kernel

theorem witness_FillZeroesTheBuffer : fillInRange 0xFFFFFFFC 4 ∧
    regionWritable State.reset.writable (0xFFFFFFFC#32).toNat (4#32).toNat = true ∧ fillInRange 0x1000 0 ∧
    regionWritable State.reset.writable (0x1000#32).toNat (0#32).toNat = true := by decide

theorem witness_FillAddressFault : 2 ^ 32 < (0xFFFFFFFC#32).toNat + (5#32).toNat := by decide

/-- Step C before each of its four outcomes. -/
theorem witness_FillChecksLengthThenShutdown :
    ((fillStarted 0x1000 6).byteLength.toNat % 4 ≠ 0 ∧ (fillStarted 0x1000 6).busy = true ∧
      (fillStarted 0x1000 6).checked = false) ∧
    ((fillStarted 0x1000 4).byteLength.toNat % 4 = 0 ∧ (fillStarted 0x1000 4).byteLength ≠ 0) ∧
    (fillStarted 0x1000 0).byteLength = 0 ∧
    { State.reset with shut := true, schedule := [.audio], fill := fillStarted 0x1000 4 }.schedule = [.audio] := by decide

theorem witness_FillChunkIsAWriteSamples : running.schedule = [.audio] ∧ running.fillInv ∧ running.fill.busy = true ∧
    running.fill.checked = true ∧ runningStart.fillInv := ⟨by decide, by decide, by decide, by decide, by decide⟩

/-- `FILL 0x1000, 256`, one whole chunk, as a descriptor. -/
def oneChunkWord : Descriptor := descriptorOfWords 0x10 0x1000 256 0

/-- A `FILL` of two chunks, one of one chunk and one of no frame, each waiting on an idle port with its turns scheduled. -/
theorem witness_FillEqualsZeroFillThenWriteSamples :
    (∃ s : State, s.fill = FillRecord.idle ∧ s.audioPort = [fillWord] ∧ decodeA fillWord = .ok (.fill 0x1000 280) ∧
      s.schedule = List.replicate (2 + ((280#32).toNat / 4 + 63) / 64) .audio ++ [] ∧ s.shut = false ∧
      (280#32).toNat % 4 = 0 ∧ fillInRange 0x1000 280 ∧
      regionWritable s.writable (0x1000#32).toNat (280#32).toNat = true) ∧
    (∃ s : State, s.fill = FillRecord.idle ∧ s.audioPort = [oneChunkWord] ∧
      decodeA oneChunkWord = .ok (.fill 0x1000 256) ∧
      s.schedule = List.replicate (2 + ((256#32).toNat / 4 + 63) / 64) .audio ++ [] ∧ s.shut = false ∧
      (256#32).toNat % 4 = 0 ∧ fillInRange 0x1000 256 ∧
      regionWritable s.writable (0x1000#32).toNat (256#32).toNat = true) ∧
    (∃ s : State, s.fill = FillRecord.idle ∧
      s.schedule = List.replicate (2 + ((0#32).toNat / 4 + 63) / 64) .audio ++ [] ∧ s.shut = false ∧
      (0#32).toNat % 4 = 0 ∧ fillInRange 0x1000 0 ∧ regionWritable s.writable (0x1000#32).toNat (0#32).toNat = true) :=
  ⟨⟨{ at_ 3 57 with audioPort := [fillWord], schedule := List.replicate 4 .audio },
     rfl, rfl, rfl, by decide, rfl, by decide, by decide, by decide⟩,
   ⟨{ at_ 3 57 with audioPort := [oneChunkWord], schedule := List.replicate 3 .audio },
     rfl, rfl, rfl, by decide, rfl, by decide, by decide, by decide⟩,
   ⟨{ at_ 3 57 with schedule := List.replicate 2 .audio }, rfl, by decide, rfl, by decide, by decide, by decide⟩⟩

theorem witness_FillIsSilentWhenShutOrVoiceOff :
    (∃ s : State, s.fill = FillRecord.idle ∧ s.audioPort = [fillWord] ∧ decodeA fillWord = .ok (.fill 0x1000 280) ∧
      s.schedule = List.replicate 2 .audio ++ [] ∧ s.shut = true ∧ (280#32).toNat % 4 = 0 ∧ fillInRange 0x1000 280 ∧
      regionWritable s.writable (0x1000#32).toNat (280#32).toNat = true) ∧
    (∃ s : State, s.fill = FillRecord.idle ∧ s.audioPort = [fillWord] ∧
      s.schedule = List.replicate (2 + ((280#32).toNat / 4 + 63) / 64) .audio ++ [] ∧ s.shut = false ∧ s.note.toInt ≤ 0) :=
  ⟨⟨{ at_ 6 112 with shut := true, audioPort := [fillWord], schedule := [.audio, .audio] },
     rfl, rfl, rfl, rfl, rfl, by decide, by decide, by decide⟩,
   ⟨{ State.reset with audioPort := [fillWord], schedule := List.replicate 4 .audio }, rfl, rfl, by decide, rfl, by decide⟩⟩

theorem witness_FillAlwaysCompletes : (running.fillInv ∧ running.fill.busy = true ∧ running.schedule = [.audio]) ∧
    (after (step (waitingControl 0x0100))).isSome = true ∧
    (after (exec (.fill 0x1000 280) (at_ 3 57))).map (fun t => (t.fill.busy, turnsLeft t.fill)) = some (true, 3) ∧
    (turnsLeft { fillAt 70 with cursor := 70 } = 0 ∧ (fillAt 70).busy = true) := by decide

/-- A launch memory that ends one byte short of what the command names. -/
theorem witness_UnwritableRegionIsStuck : fillInRange 0x1000 5 ∧
    regionWritable [⟨0x1000, 4⟩] (0x1000#32).toNat (5#32).toNat = false ∧ wrsInRange 0x1000 0 2 ∧
    regionWritable [⟨0x1000, 7⟩] ((0x1000#32).toNat + 4 * (0#32).toNat) (4 * (2#32).toNat) = false := by decide

theorem witness_FillRecordInvariantIsKept : (waitingAudio fillWord).fillInv ∧
    (after (step (waitingAudio fillWord))).isSome = true ∧ running.fillInv := by decide

theorem witness_MemoryStaysCanonical : Memory.wf (filled 0x1000 3 0xEE) ∧ (waitingAudio fillWord).fillInv ∧
    (after (step { waitingAudio fillWord with mem := filled 0x1000 3 0xEE })).isSome = true := by decide

theorem witness_MemoryNeverInfluencesTheBlock : (after (step (waitingAudio fillWord))).isSome = true := by decide

/-- A descriptor that waits, one just issued, and a `FILL` accepted next. -/
theorem witness_BufferIsBorrowedFromIssueToCompletion :
    (wrsWord ∈ (waitingAudio wrsWord).audioPort ∧ decodeA wrsWord = .ok (.wrs 0xFFFFFFF0 2 2)) ∧
    (fillWord ∈ (waitingAudio fillWord).audioPort ∧ decodeA fillWord = .ok (.fill 0x1000 280)) ∧
    namedRegion wrsWord = some (0xFFFFFFF8, 8) ∧
    (after (step (waitingAudio fillWord))).isSome = true ∧ fillInRange 0x1000 280 :=
  ⟨⟨by decide, rfl⟩, ⟨by decide, rfl⟩, rfl, by decide, by decide⟩

/-- The host at the first and past the last byte of the buffer `0x1000 .. 0x1117`, in progress and waiting, and at the top of
memory. -/
theorem witness_HostKeepsOffTheBorrowedBuffer :
    borrowedRegions running = [(0x1000, 0x118)] ∧ borrowedRegions (waitingAudio fillWord) = [(0x1000, 0x118)] ∧
    (0x0FFF ≤ 0x1000 ∧ 0x1000 < 0x0FFF + 2 ∧ 0x1000 < 0x1000 + 0x118) ∧
    (0x1000 + 0x118 ≤ 0x1118 ∧ 0xFFFFFFFF + [0xAA#8].length ≤ 2 ^ 32) := by decide

theorem witness_SingleWriterPerField : (after (step (waitingControl 0x0100))).isSome = true ∧
    (waitingControl 0x0100).schedule = [.control] ∧ (after (step (waitingAudio fillWord))).isSome = true ∧
    (waitingAudio fillWord).schedule = [.audio] := by decide

theorem witness_HostAndIssueTurnsWriteNoRegister :
    ([.issueControl 0x0100, .issueAudio wrsWord, .hostRead 0xFFFFFFFF 1, .hostWrite 0xFFFFFFFF [0xAA]].all fun u =>
      (after (step { running with schedule := [u] })).isSome) = true := by decide

theorem witness_FaultBitsAreSticky : (after (step { waitingControl 0x0101 with fault := 0b011 })).map (·.fault) = some 0b111#3 ∧
    (waitingControl 0x0101).schedule = [.control] := by decide

theorem witness_LegalOperandsRaiseNothing : operandsLegal (.fill 0xFFFFFFFC 4) = true ∧
    operandsLegal (.wrs 0xFFFFFFF0 2 2) = true ∧ operandsLegal (.notekey 40) = true ∧
    (after (exec (.fill 0xFFFFFFFC 4) State.reset)).isSome = true ∧ running.fill.byteLength.toNat % 4 = 0 := by decide

theorem witness_FaultChecksAreOrdered : regionWritable State.reset.writable 0x1000 6 = true ∧
    State.reset.fill = FillRecord.idle := by decide

theorem witness_ConfigurationIsFixed : (after (step (waitingControl 0x0100))).isSome = true := by decide

end Sys2Proof.Tests
end

section
/-! PROOFS. The state's fields and the agents that write them (spec/10_state.md). -/

namespace Sys2Proof.Machine

/-- On a turn of the control port the step is that turn. -/
theorem step_control {s : State} {ts : List Turn} (h : s.schedule = .control :: ts) :
    step s = controlTurn { s with schedule := ts } := step_cons h

/-- On a turn of the audio port the step is that turn. -/
theorem step_audio {s : State} {ts : List Turn} (h : s.schedule = .audio :: ts) :
    step s = audioTurn { s with schedule := ts } := step_cons h

/-- R37, one half: a turn of the control port writes no field of the audio agent. -/
theorem step_control_keeps_audio_fields {s t : State} {ts : List Turn} (hs : s.schedule = .control :: ts)
    (h : step s = .next t) :
    t.acc = s.acc ∧ t.idx = s.idx ∧ t.fill = s.fill ∧ t.mem = s.mem ∧ t.audioPort = s.audioPort := by
  obtain ⟨n, o, f, sh, ev, p, hturn, -⟩ := controlTurn_frame { s with schedule := ts }
  rw [step_control hs, hturn] at h
  injection h with h
  subst h
  exact ⟨rfl, rfl, rfl, rfl, rfl⟩

/-- R37, the other half: a turn of the audio port writes no field of the control agent. -/
theorem step_audio_keeps_control_fields {s t : State} {ts : List Turn} (hs : s.schedule = .audio :: ts)
    (h : step s = .next t) :
    t.note = s.note ∧ t.octave = s.octave ∧ t.shut = s.shut ∧ t.events = s.events ∧
      t.controlPort = s.controlPort := by
  rw [step_audio hs] at h
  rw [audioTurn_frame h]
  exact ⟨rfl, rfl, rfl, rfl, rfl⟩

/-- Settles O55: each half is what the frame of the port's turn leaves unchanged. -/
theorem singleWriterPerField : Obligations.SingleWriterPerField := by
  unfold Obligations.SingleWriterPerField
  exact fun s t ts h => ⟨fun hs => step_control_keeps_audio_fields hs h, fun hs => step_audio_keeps_control_fields hs h⟩

end Sys2Proof.Machine
end

section
/-! PROOFS. The byte order of a sample in memory (spec/20_memory.md R51). -/

namespace Sys2Proof.Machine

/-- A 16-bit pattern is stored as its low byte, then its high byte (R51). -/
theorem leBytes_two_half (h : Half) : leBytes 2 h.toNat = [h.extractLsb' 0 8, h.extractLsb' 8 8] := by
  have hhi : h.extractLsb' 8 8 = BitVec.ofNat 8 (h.toNat / 256) := by
    simp [BitVec.extractLsb', Nat.shiftRight_eq_div_pow]
  rw [hhi]
  rfl

/-- Reading after a two-byte write: the low byte at `a`, the high byte at `a + 1`, the old byte elsewhere. -/
theorem Memory.read_memWrite_two (m : Memory) (a x : Nat) (h : Half) :
    (m.memWrite a 2 h.toNat).read x =
      if x = a then some (h.extractLsb' 0 8) else if x = a + 1 then some (h.extractLsb' 8 8) else m.read x := by
  unfold Memory.memWrite
  rw [leBytes_two_half]
  by_cases hlo : x = a
  · simp [Memory.read_store, hlo]
  · by_cases hhi : x = a + 1
    · simp [Memory.read_store, hhi]
    · rw [if_neg hlo, if_neg hhi]
      exact Memory.read_store_outside (by simp only [List.length_cons, List.length_nil]; omega)

/-- Settles O50: the first half is the read after a two-byte write; the spec's examples are its values at `602` and
`-783`. -/
theorem samplesAreStoredLittleEndian : Obligations.SamplesAreStoredLittleEndian := by
  unfold Obligations.SamplesAreStoredLittleEndian
  refine ⟨Memory.read_memWrite_two, fun m a => ?_⟩
  have h602 : (s16 602).extractLsb' 0 8 = 0x5A#8 ∧ (s16 602).extractLsb' 8 8 = 0x02#8 := by decide
  have h783 : (s16 (-783)).extractLsb' 0 8 = 0xF1#8 ∧ (s16 (-783)).extractLsb' 8 8 = 0xFC#8 := by decide
  simp [Memory.read_memWrite_two, h602, h783]

end Sys2Proof.Machine
end

section
/-! PROOFS. The opcode tables and the illegal encodings (spec/30_encoding.md R83, R84, R87, R94). -/

namespace Sys2Proof

/-! ## The decoder, field by field -/

/-- What format K words decode, and to what: `decodeK_ok` and its converse. -/
theorem decodeK_eq_ok_iff {w : Half} {i : Instr} :
    decodeK w = .ok i ↔
      (opK w = 0x01#8 ∧ argK w = 0 ∧ i = .octup) ∨ (opK w = 0x02#8 ∧ argK w = 0 ∧ i = .octdn) ∨
      (opK w = 0x03#8 ∧ legalOffset (argK w) ∧ i = .notekey (argK w)) ∨
      (opK w = 0x04#8 ∧ argK w = 0 ∧ i = .keyother) ∨ (opK w = 0x05#8 ∧ argK w = 0 ∧ i = .keyup) ∨
      (opK w = 0x0F#8 ∧ argK w = 0 ∧ i = .shutdown) := by
  refine ⟨decodeK_ok, ?_⟩
  rintro (⟨hop, harg, rfl⟩ | ⟨hop, harg, rfl⟩ | ⟨hop, harg, rfl⟩ | ⟨hop, harg, rfl⟩ | ⟨hop, harg, rfl⟩ |
    ⟨hop, harg, rfl⟩)
  all_goals simp [decodeK, needZeroArg, hop, harg]

/-- What format A descriptors decode, and to what: `decodeA_ok` and its converse. -/
theorem decodeA_eq_ok_iff {d : Descriptor} {i : Instr} :
    decodeA d = .ok i ↔
      (opA d = 0x10#8 ∧ zeroA d = 0 ∧ fieldC d = 0 ∧ i = .fill (fieldA d) (fieldB d)) ∨
      (opA d = 0x11#8 ∧ zeroA d = 0 ∧ i = .wrs (fieldA d) (fieldB d) (fieldC d)) := by
  refine ⟨decodeA_ok, ?_⟩
  rintro (⟨hop, hzero, hC, rfl⟩ | ⟨hop, hzero, rfl⟩)
  · simp [decodeA, hop, hzero, hC]
  · simp [decodeA, hop, hzero]

/-! ## Selection by mask and match, field by field -/

/-- Format K words are equal when their fields are (R81). -/
theorem half_eq_iff {v w : Half} : v = w ↔ opK v = opK w ∧ argK v = argK w := by
  refine ⟨fun h => h ▸ ⟨rfl, rfl⟩, fun ⟨hop, harg⟩ => ?_⟩
  rw [← wordK_fields v, ← wordK_fields w, hop, harg]

/-- Descriptors are equal when their fields are (R82). -/
theorem descriptor_eq_iff {c d : Descriptor} :
    c = d ↔ opA c = opA d ∧ zeroA c = zeroA d ∧ fieldA c = fieldA d ∧ fieldB c = fieldB d ∧ fieldC c = fieldC d := by
  refine ⟨fun h => h ▸ ⟨rfl, rfl, rfl, rfl, rfl⟩, fun h => ?_⟩
  have := c.isLt
  have := d.isLt
  simp only [← BitVec.toNat_inj, opA, zeroA, fieldA, fieldB, fieldC, toNat_field] at h
  apply BitVec.eq_of_toNat_eq
  omega

/-- A row of Table K looks at the two fields of a word each by itself. -/
theorem TableRow.selects_half_iff (r : TableRow 16) (w : Half) :
    r.selects w = true ↔ opK w &&& opK r.mask = opK r.pattern ∧ argK w &&& argK r.mask = argK r.pattern := by
  simp only [TableRow.selects, decide_eq_true_eq, half_eq_iff, opK, argK, BitVec.extractLsb'_and]

/-- A row of Table A looks at the five fields of a descriptor each by itself. -/
theorem TableRow.selects_descriptor_iff (r : TableRow 128) (d : Descriptor) :
    r.selects d = true ↔
      opA d &&& opA r.mask = opA r.pattern ∧ zeroA d &&& zeroA r.mask = zeroA r.pattern ∧
      fieldA d &&& fieldA r.mask = fieldA r.pattern ∧ fieldB d &&& fieldB r.mask = fieldB r.pattern ∧
      fieldC d &&& fieldC r.mask = fieldC r.pattern := by
  simp only [TableRow.selects, decide_eq_true_eq, descriptor_eq_iff, opA, zeroA, fieldA, fieldB, fieldC,
    BitVec.extractLsb'_and]

/-- Every row of Table K looks at the whole of `op`. -/
theorem opK_of_selects {r : TableRow 16} (hr : r ∈ tableK) {w : Half} (h : r.selects w = true) :
    opK w = opK r.pattern := by
  have hmask : ∀ r ∈ tableK, opK r.mask = BitVec.allOnes 8 := by decide
  rw [← ((r.selects_half_iff w).1 h).1, hmask r hr, BitVec.and_allOnes]

/-- Every row of Table A looks at the whole of `op`. -/
theorem opA_of_selects {r : TableRow 128} (hr : r ∈ tableA) {d : Descriptor} (h : r.selects d = true) :
    opA d = opA r.pattern := by
  have hmask : ∀ r ∈ tableA, opA r.mask = BitVec.allOnes 8 := by decide
  rw [← ((r.selects_descriptor_iff d).1 h).1, hmask r hr, BitVec.and_allOnes]

/-- No two rows of Table K select one word: their opcodes differ. -/
theorem tableK_selects_unique {r₁ r₂ : TableRow 16} (h₁ : r₁ ∈ tableK) (h₂ : r₂ ∈ tableK) {w : Half}
    (hs₁ : r₁.selects w = true) (hs₂ : r₂.selects w = true) : r₁ = r₂ := by
  have hop : ∀ r₁ ∈ tableK, ∀ r₂ ∈ tableK, opK r₁.pattern = opK r₂.pattern → r₁ = r₂ := by decide
  exact hop r₁ h₁ r₂ h₂ ((opK_of_selects h₁ hs₁).symm.trans (opK_of_selects h₂ hs₂))

/-- No two rows of Table A select one descriptor: their opcodes differ. -/
theorem tableA_selects_unique {r₁ r₂ : TableRow 128} (h₁ : r₁ ∈ tableA) (h₂ : r₂ ∈ tableA) {d : Descriptor}
    (hs₁ : r₁.selects d = true) (hs₂ : r₂.selects d = true) : r₁ = r₂ := by
  have hop : ∀ r₁ ∈ tableA, ∀ r₂ ∈ tableA, opA r₁.pattern = opA r₂.pattern → r₁ = r₂ := by decide
  exact hop r₁ h₁ r₂ h₂ ((opA_of_selects h₁ hs₁).symm.trans (opA_of_selects h₂ hs₂))

/-- Table K with each row's match and mask written as their two fields. -/
theorem tableK_fields :
    tableK =
      [⟨"OCTUP", wordK 0x01 0, wordK (.allOnes 8) (.allOnes 8)⟩, ⟨"OCTDN", wordK 0x02 0, wordK (.allOnes 8) (.allOnes 8)⟩,
       ⟨"NOTEKEY", wordK 0x03 0, wordK (.allOnes 8) 0⟩, ⟨"KEYOTHER", wordK 0x04 0, wordK (.allOnes 8) (.allOnes 8)⟩,
       ⟨"KEYUP", wordK 0x05 0, wordK (.allOnes 8) (.allOnes 8)⟩,
       ⟨"SHUTDOWN", wordK 0x0F 0, wordK (.allOnes 8) (.allOnes 8)⟩] := rfl

/-- Which words select a row of Table K with mnemonic `m`. -/
theorem exists_mem_tableK_iff {w : Half} {m : String} {P : Prop} :
    (∃ r ∈ tableK, r.selects w = true ∧ r.mnemonic = m ∧ P) ↔
      (opK w = 0x01#8 ∧ argK w = 0 ∧ "OCTUP" = m ∧ P) ∨ (opK w = 0x02#8 ∧ argK w = 0 ∧ "OCTDN" = m ∧ P) ∨
      (opK w = 0x03#8 ∧ "NOTEKEY" = m ∧ P) ∨ (opK w = 0x04#8 ∧ argK w = 0 ∧ "KEYOTHER" = m ∧ P) ∨
      (opK w = 0x05#8 ∧ argK w = 0 ∧ "KEYUP" = m ∧ P) ∨ (opK w = 0x0F#8 ∧ argK w = 0 ∧ "SHUTDOWN" = m ∧ P) := by
  simp [tableK_fields, TableRow.selects_half_iff, opK_wordK, argK_wordK, and_assoc, -BitVec.reduceAllOnes]

/-- The `FILL` row looks at fields `op`, `zero` and `C`. -/
theorem selects_fill_iff {d : Descriptor} :
    (⟨"FILL", 0x00000000000000000000000000000010, 0xFFFFFFFF0000000000000000FFFFFFFF⟩ : TableRow 128).selects d = true ↔
      opA d = 0x10#8 ∧ zeroA d = 0 ∧ fieldC d = 0 := by
  rw [TableRow.selects_descriptor_iff]
  change opA d &&& .allOnes 8 = 0x10#8 ∧ zeroA d &&& .allOnes 24 = 0#24 ∧ fieldA d &&& 0#32 = 0#32 ∧
    fieldB d &&& 0#32 = 0#32 ∧ fieldC d &&& .allOnes 32 = 0#32 ↔ _
  simp [-BitVec.reduceAllOnes]

/-- The `WRS` row looks at fields `op` and `zero`. -/
theorem selects_wrs_iff {d : Descriptor} :
    (⟨"WRS", 0x00000000000000000000000000000011, 0x000000000000000000000000FFFFFFFF⟩ : TableRow 128).selects d = true ↔
      opA d = 0x11#8 ∧ zeroA d = 0 := by
  rw [TableRow.selects_descriptor_iff]
  change opA d &&& .allOnes 8 = 0x11#8 ∧ zeroA d &&& .allOnes 24 = 0#24 ∧ fieldA d &&& 0#32 = 0#32 ∧
    fieldB d &&& 0#32 = 0#32 ∧ fieldC d &&& 0#32 = 0#32 ↔ _
  simp [-BitVec.reduceAllOnes]

/-! ## The command of the selected row -/

/-- R83: a format K word decodes to the command of the row it selects, where its offset, if it is a note key, is legal. -/
theorem decodeK_mnemonic_iff (w : Half) (m : String) :
    (∃ i, decodeK w = .ok i ∧ i.mnemonic = m) ↔
      ∃ r ∈ tableK, r.selects w = true ∧ r.mnemonic = m ∧ (m = "NOTEKEY" → legalOffset (argK w)) := by
  rw [exists_mem_tableK_iff]
  constructor
  · rintro ⟨i, hi, rfl⟩
    rcases decodeK_ok hi with ⟨hop, harg, rfl⟩ | ⟨hop, harg, rfl⟩ | ⟨hop, hoff, rfl⟩ | ⟨hop, harg, rfl⟩ |
      ⟨hop, harg, rfl⟩ | ⟨hop, harg, rfl⟩
    case inr.inr.inl => exact Or.inr (Or.inr (Or.inl ⟨hop, rfl, fun _ => hoff⟩))
    all_goals simp [hop, harg, Instr.mnemonic]
  · rintro (⟨hop, harg, rfl, -⟩ | ⟨hop, harg, rfl, -⟩ | ⟨hop, rfl, hoff⟩ | ⟨hop, harg, rfl, -⟩ |
      ⟨hop, harg, rfl, -⟩ | ⟨hop, harg, rfl, -⟩)
    · exact ⟨.octup, by simp [decodeK_eq_ok_iff, hop, harg], rfl⟩
    · exact ⟨.octdn, by simp [decodeK_eq_ok_iff, hop, harg], rfl⟩
    · exact ⟨.notekey (argK w), decodeK_eq_ok_iff.2 (Or.inr (Or.inr (Or.inl ⟨hop, hoff rfl, rfl⟩))), rfl⟩
    · exact ⟨.keyother, by simp [decodeK_eq_ok_iff, hop, harg], rfl⟩
    · exact ⟨.keyup, by simp [decodeK_eq_ok_iff, hop, harg], rfl⟩
    · exact ⟨.shutdown, by simp [decodeK_eq_ok_iff, hop, harg], rfl⟩

/-- R84: a descriptor decodes to the command of the row it selects. -/
theorem decodeA_mnemonic_iff (d : Descriptor) (m : String) :
    (∃ i, decodeA d = .ok i ∧ i.mnemonic = m) ↔ ∃ r ∈ tableA, r.selects d = true ∧ r.mnemonic = m := by
  simp only [tableA, List.exists_mem_cons_iff, List.not_mem_nil, false_and, exists_false, or_false, selects_fill_iff,
    selects_wrs_iff]
  constructor
  · rintro ⟨i, hi, rfl⟩
    rcases decodeA_ok hi with ⟨hop, hzero, hC, rfl⟩ | ⟨hop, hzero, rfl⟩
    · exact Or.inl ⟨⟨hop, hzero, hC⟩, rfl⟩
    · exact Or.inr ⟨⟨hop, hzero⟩, rfl⟩
  · rintro (⟨⟨hop, hzero, hC⟩, rfl⟩ | ⟨⟨hop, hzero⟩, rfl⟩)
    · exact ⟨_, decodeA_eq_ok_iff.2 (Or.inl ⟨hop, hzero, hC, rfl⟩), rfl⟩
    · exact ⟨_, decodeA_eq_ok_iff.2 (Or.inr ⟨hop, hzero, rfl⟩), rfl⟩

/-- The operand of a decoded note key is field `arg`. -/
theorem decodeK_notekey {w : Half} {off : Byte} (h : decodeK w = .ok (.notekey off)) : off = argK w := by
  obtain ⟨-, -, hoff⟩ : opK w = 0x03#8 ∧ legalOffset (argK w) ∧ off = argK w := by simpa using decodeK_ok h
  exact hoff

/-- The operands of a decoded `FILL` are fields `A` and `B`. -/
theorem decodeA_fill {d : Descriptor} {dest byteLength : Word} (h : decodeA d = .ok (.fill dest byteLength)) :
    dest = fieldA d ∧ byteLength = fieldB d := by
  rcases decodeA_ok h with ⟨-, -, -, hi⟩ | ⟨-, -, hi⟩
  · injection hi with hdest hlen
    exact ⟨hdest, hlen⟩
  · cases hi

/-- The operands of a decoded `WRS` are fields `A`, `B` and `C`. -/
theorem decodeA_wrs {d : Descriptor} {buf start count : Word} (h : decodeA d = .ok (.wrs buf start count)) :
    buf = fieldA d ∧ start = fieldB d ∧ count = fieldC d := by
  rcases decodeA_ok h with ⟨-, -, -, hi⟩ | ⟨-, -, hi⟩
  · cases hi
  · injection hi with hbuf hstart hcount
    exact ⟨hbuf, hstart, hcount⟩

/-- Field `arg` is bits 7:0. -/
theorem argK_eq_setWidth (w : Half) : argK w = w.setWidth 8 :=
  (BitVec.setWidth_eq_extractLsb' (by decide)).symm

/-- Settles O6: the decoder and the table agree opcode by opcode, and the rows' opcodes differ. -/
theorem controlOpcodeTable : Obligations.ControlOpcodeTable := by
  unfold Obligations.ControlOpcodeTable
  refine ⟨fun w m => ?_, fun w off h => ?_, fun r₁ h₁ r₂ h₂ w => tableK_selects_unique h₁ h₂⟩
  · rw [← argK_eq_setWidth]
    exact decodeK_mnemonic_iff w m
  · rw [← argK_eq_setWidth]
    exact decodeK_notekey h

/-- Settles O7: the decoder and the table look at the same fields, and those are R82's ranges of bits. -/
theorem audioOpcodeTable : Obligations.AudioOpcodeTable := by
  unfold Obligations.AudioOpcodeTable
  refine ⟨decodeA_mnemonic_iff, fun d dest len h => ?_, fun d buf start count h => ?_,
    fun r₁ h₁ r₂ h₂ d => tableA_selects_unique h₁ h₂⟩
  · obtain ⟨rfl, rfl⟩ := decodeA_fill h
    exact ⟨toNat_field d 32 32, toNat_field d 64 32⟩
  · obtain ⟨rfl, rfl, rfl⟩ := decodeA_wrs h
    have hC : (fieldC d).toNat = d.toNat / 2 ^ 96 := by
      have := d.isLt
      rw [fieldC, toNat_field]
      omega
    exact ⟨toNat_field d 32 32, toNat_field d 64 32, hC⟩

/-! ## The illegal encodings -/

/-- R87, for format K: the words that decode. -/
theorem exists_decodeK_iff (w : Half) :
    (∃ i, decodeK w = .ok i) ↔
      opK w ∈ [0x01#8, 0x02#8, 0x03#8, 0x04#8, 0x05#8, 0x0F#8] ∧ (opK w ≠ 0x03#8 → argK w = 0) ∧
        (opK w = 0x03#8 → legalOffset (argK w)) := by
  by_cases hnote : opK w = 0x03#8
  · simp [decodeK_eq_ok_iff, hnote]
  · simp [decodeK_eq_ok_iff, hnote, exists_or, or_and_right]

/-- R87, for format A: the descriptors that decode. -/
theorem exists_decodeA_iff (d : Descriptor) :
    (∃ i, decodeA d = .ok i) ↔
      opA d ∈ [0x10#8, 0x11#8] ∧ zeroA d = 0 ∧ (opA d = 0x10#8 → fieldC d = 0) := by
  by_cases hfill : opA d = 0x10#8
  · simp [decodeA_eq_ok_iff, hfill]
  · simp [decodeA_eq_ok_iff, hfill]

end Sys2Proof

namespace Sys2Proof.Machine

/-- R87: an illegal word at the head of the control port. -/
theorem controlTurn_illegal {s : State} {w : Half} {ws : List Half} (hport : s.controlPort = w :: ws)
    (hill : ∀ i, decodeK w ≠ .ok i) :
    controlTurn s = .next { s with controlPort := ws, fault := s.fault ||| 0b100#3 } := by
  rcases controlTurn_cases s with ⟨hnil, -⟩ | ⟨w', ws', hcons, -, hturn⟩ | ⟨w', ws', i, hcons, hok, -⟩
  · simp [hport] at hnil
  · obtain ⟨rfl, rfl⟩ := List.cons.inj (hport.symm.trans hcons)
    exact hturn
  · obtain ⟨rfl, rfl⟩ := List.cons.inj (hport.symm.trans hcons)
    exact absurd hok (hill i)

/-- R87: an illegal descriptor at the head of the audio port, with no command in progress. -/
theorem audioTurn_illegal {s : State} {d : Descriptor} {ds : List Descriptor} (hidle : s.fill.busy = false)
    (hport : s.audioPort = d :: ds) (hill : ∀ i, decodeA d ≠ .ok i) :
    audioTurn s = .next { s with audioPort := ds, fault := s.fault ||| 0b100#3 } := by
  rcases audioTurn_cases s with ⟨hbusy, -⟩ | ⟨-, hnil, -⟩ | ⟨d', ds', -, hcons, -, hturn⟩ |
    ⟨d', ds', i, -, hcons, hok, -⟩
  · simp [hidle] at hbusy
  · simp [hport] at hnil
  · obtain ⟨rfl, rfl⟩ := List.cons.inj (hport.symm.trans hcons)
    exact hturn
  · obtain ⟨rfl, rfl⟩ := List.cons.inj (hport.symm.trans hcons)
    exact absurd hok (hill i)

/-- Settles O9: the illegal sets are the complements of what decodes; the step is the port's turn on an illegal head. -/
theorem illegalEncodings : Obligations.IllegalEncodings := by
  unfold Obligations.IllegalEncodings
  refine ⟨fun w => ?_, fun d => ?_, fun s ts w ws hsched hport hill => ?_,
    fun s ts d ds hsched hidle hport hill => ?_⟩
  · rw [← not_exists, exists_decodeK_iff]
    simp only [legalOffset, Config.keyOffMin_eq, Config.keyOffMax_eq, not_and_or, Classical.not_imp, not_le, ne_eq]
  · rw [← not_exists, exists_decodeA_iff]
    simp only [not_and_or, Classical.not_imp, ne_eq]
  · rw [step_control hsched]
    exact controlTurn_illegal (s := { s with schedule := ts }) hport hill
  · rw [step_audio hsched]
    exact audioTurn_illegal (s := { s with schedule := ts }) hidle hport hill

/-- Settles O8: the decoder, run on each of the spec's words. -/
theorem workedEncodings : Obligations.WorkedEncodings := by
  unfold Obligations.WorkedEncodings
  exact ⟨rfl, rfl, rfl, rfl, rfl, rfl, rfl⟩

end Sys2Proof.Machine
end

section
/-! PROOFS. The wavetable is the rounded sine (spec/40_wavetable.md R110, R111). The angle `2πi/N` is `k` quarter turns
and `j < 256` steps of `2π/N`, so its sine is the imaginary part of `I ^ k * ω ^ j` for the root of unity `ω` of one step.
A Gaussian integer over `10 ^ 12` next to `ω` stands for `ω`; its powers are exact, and by R111 no entry comes nearer to a
tie than 0.001, which leaves room for the error of 256 steps. -/

namespace Sys2Proof.Machine

open Complex (I)

/-! ## One step of the table on the unit circle -/

/-- `ω`: one step of the table, an `N`th of a turn. -/
noncomputable def stepRoot : ℂ := Complex.exp ((2 * Real.pi / 1024 : ℝ) * I)

/-- `ω` times `10 ^ 12`, rounded towards zero so that its powers do not grow. -/
def stepGauss : GaussianInt := ⟨999981175282, 6135884649⟩

/-- A quarter turn, `I` as a Gaussian integer. -/
def quarterGauss : GaussianInt := ⟨0, 1⟩

/-- The point of the unit disc that `stepGauss` stands for. -/
noncomputable def stepApprox : ℂ := stepGauss / 10 ^ 12

theorem stepApprox_eq : stepApprox = ⟨999981175282 / 10 ^ 12, 6135884649 / 10 ^ 12⟩ := by
  rw [stepApprox, stepGauss, GaussianInt.toComplex_def']
  apply Complex.ext <;> norm_num

theorem norm_stepRoot : ‖stepRoot‖ = 1 := Complex.norm_exp_ofReal_mul_I _

theorem norm_stepApprox_le : ‖stepApprox‖ ≤ 1 := by
  rw [← sq_le_one_iff₀ (norm_nonneg _), Complex.sq_norm, stepApprox_eq, Complex.normSq_mk]
  norm_num

theorem stepRoot_pow (i : Nat) : stepRoot ^ i = Complex.exp ((2 * Real.pi * i / 1024 : ℝ) * I) := by
  rw [stepRoot, ← Complex.exp_nat_mul]
  congr 1
  push_cast
  ring

theorem stepRoot_pow_quarter : stepRoot ^ 256 = I := by
  have hquarter : ((2 * Real.pi * (256 : Nat) / 1024 : ℝ) : ℂ) * I = Real.pi / 2 * I := by
    push_cast
    ring
  rw [stepRoot_pow, hquarter, Complex.exp_pi_div_two_mul_I]

/-- The sine of the table is the imaginary part of quarter turns and steps. -/
theorem sin_eq_im_quarter_mul_step (k j : Nat) :
    Real.sin (2 * Real.pi * (256 * k + j : Nat) / 1024) = (I ^ k * stepRoot ^ j).im := by
  rw [← stepRoot_pow_quarter, ← pow_mul, ← pow_add, stepRoot_pow, Complex.exp_ofReal_mul_I_im]

/-! ## How near the approximation is -/

/-- The sine of a real next to a rational `q` of the unit disc, by the cubic Taylor polynomial at `q`. -/
theorem abs_sin_sub_le {x q : ℝ} (s : ℝ) (hq : |q| ≤ 1) :
    |Real.sin x - s| ≤ |x - q| + |q| ^ 5 / 100 + |q - q ^ 3 / 6 - s| := by
  have hmove := Real.abs_sin_sub_sin_le x q
  have htaylor := Real.sin_bound hq
  have hxs := abs_sub_le (Real.sin x) (Real.sin q) s
  have hqs := abs_sub_le (Real.sin q) (q - q ^ 3 / 6) s
  linarith

/-- The half of the step's angle, from the decimals of `π`. -/
theorem abs_pi_div_sub_le : |Real.pi / 1024 - 3.14159265358979 / 1024| ≤ 1 / 10 ^ 17 := by
  rw [abs_le]
  constructor <;> linarith [Real.pi_gt_d20, Real.pi_lt_d20]

theorem abs_sin_step_sub_le : |Real.sin (2 * Real.pi / 1024) - 6135884649 / 10 ^ 12| ≤ 1 / 10 ^ 12 := by
  have hangle : |2 * Real.pi / 1024 - 2 * 3.14159265358979 / 1024| ≤ 2 / 10 ^ 17 := by
    have h := abs_pi_div_sub_le
    rw [abs_le] at h ⊢
    constructor <;> linarith
  refine (abs_sin_sub_le (q := 2 * 3.14159265358979 / 1024) _ (by norm_num)).trans ?_
  norm_num at hangle ⊢
  linarith

theorem abs_sin_half_step_sub_le : |Real.sin (Real.pi / 1024) - 3067956763 / 10 ^ 12| ≤ 1 / 10 ^ 12 := by
  have hangle := abs_pi_div_sub_le
  refine (abs_sin_sub_le (q := 3.14159265358979 / 1024) _ (by norm_num)).trans ?_
  norm_num at hangle ⊢
  linarith

/-- The cosine of the step from the sine of its half, which is far nearer to `0` and so to its Taylor polynomial. -/
theorem abs_cos_step_sub_le : |Real.cos (2 * Real.pi / 1024) - 999981175282 / 10 ^ 12| ≤ 2 / 10 ^ 12 := by
  have hcos : Real.cos (2 * Real.pi / 1024) = 1 - 2 * Real.sin (Real.pi / 1024) ^ 2 := by
    rw [mul_div_assoc, Real.cos_two_mul, Real.cos_sq']
    ring
  have hhalf := abs_sin_half_step_sub_le
  rw [abs_le] at hhalf
  rw [hcos, abs_le]
  constructor <;> nlinarith

theorem norm_stepRoot_sub_stepApprox_le : ‖stepRoot - stepApprox‖ ≤ 3 / 10 ^ 12 := by
  have hre : (stepRoot - stepApprox).re = Real.cos (2 * Real.pi / 1024) - 999981175282 / 10 ^ 12 := by
    rw [Complex.sub_re, stepRoot, Complex.exp_ofReal_mul_I_re, stepApprox_eq]
  have him : (stepRoot - stepApprox).im = Real.sin (2 * Real.pi / 1024) - 6135884649 / 10 ^ 12 := by
    rw [Complex.sub_im, stepRoot, Complex.exp_ofReal_mul_I_im, stepApprox_eq]
  have hnorm := Complex.norm_le_abs_re_add_abs_im (stepRoot - stepApprox)
  rw [hre, him] at hnorm
  linarith [abs_cos_step_sub_le, abs_sin_step_sub_le]

/-- In the unit disc, powers drift apart at most linearly. -/
theorem norm_pow_sub_pow_le {z y : ℂ} (hz : ‖z‖ ≤ 1) (hy : ‖y‖ ≤ 1) (n : Nat) :
    ‖z ^ n - y ^ n‖ ≤ n * ‖z - y‖ := by
  induction n with
  | zero => simp
  | succ n ih =>
    calc ‖z ^ (n + 1) - y ^ (n + 1)‖
      _ = ‖z ^ n * (z - y) + (z ^ n - y ^ n) * y‖ := by ring_nf
      _ ≤ ‖z ^ n‖ * ‖z - y‖ + ‖z ^ n - y ^ n‖ * ‖y‖ := by
        rw [← norm_mul, ← norm_mul]
        exact norm_add_le _ _
      _ ≤ 1 * ‖z - y‖ + n * ‖z - y‖ * 1 := by
        gcongr
        rw [norm_pow]
        exact pow_le_one₀ (norm_nonneg _) hz
      _ = (n + 1 : Nat) * ‖z - y‖ := by
        push_cast
        ring

/-- The Gaussian integer of an angle, scaled back, is next to the angle's sine. -/
theorem abs_sin_sub_im_gauss_le (k : Nat) {j : Nat} (hj : j < 256) :
    |Real.sin (2 * Real.pi * (256 * k + j : Nat) / 1024) - (quarterGauss ^ k * stepGauss ^ j).im / (10 ^ 12) ^ j| ≤
      1 / 10 ^ 9 := by
  have hgauss : ((quarterGauss ^ k * stepGauss ^ j).im : ℝ) / (10 ^ 12) ^ j = (I ^ k * stepApprox ^ j).im := by
    have hquarter : (quarterGauss : ℂ) = I := by simp [quarterGauss, GaussianInt.toComplex_def']
    rw [GaussianInt.intCast_im, map_mul, map_pow, map_pow, hquarter, stepApprox, div_pow, ← mul_div_assoc,
      ← Complex.div_ofReal_im]
    push_cast
    rfl
  rw [sin_eq_im_quarter_mul_step, hgauss, ← Complex.sub_im, ← mul_sub]
  calc |(I ^ k * (stepRoot ^ j - stepApprox ^ j)).im|
    _ ≤ ‖I ^ k * (stepRoot ^ j - stepApprox ^ j)‖ := Complex.abs_im_le_norm _
    _ = ‖stepRoot ^ j - stepApprox ^ j‖ := by simp
    _ ≤ j * ‖stepRoot - stepApprox‖ := norm_pow_sub_pow_le norm_stepRoot.le norm_stepApprox_le j
    _ ≤ 256 * (3 / 10 ^ 12) := by
      gcongr
      · exact_mod_cast hj.le
      · exact norm_stepRoot_sub_stepApprox_le
    _ ≤ 1 / 10 ^ 9 := by norm_num

/-! ## The entries -/

/-- Every entry is within `0.499` of the imaginary part of its Gaussian integer: the table, evaluated in integers. -/
theorem wave?_near_gauss :
    ∀ k < 4, ∀ j < 256, ∃ w ∈ wave? (256 * k + j),
      1000 * |w * (10 ^ 12) ^ j - 32767 * (quarterGauss ^ k * stepGauss ^ j).im| ≤ 499 * (10 ^ 12) ^ j := by
  decide +kernel

/-- The same distance with the scale `d` divided out. -/
theorem abs_sub_div_le_of_scaled {w s d : ℝ} (hd : 0 < d) (h : 1000 * |w * d - 32767 * s| ≤ 499 * d) :
    |w - 32767 * (s / d)| ≤ 499 / 1000 := by
  have hscaled : w - 32767 * (s / d) = (w * d - 32767 * s) / d := by field_simp
  rw [hscaled, abs_div, abs_of_pos hd, div_le_iff₀ hd]
  linarith

/-- R110 and R111: every entry is nearest to the sine of its angle, given in quarter turns and steps. -/
theorem wave?_near_sin {k j : Nat} (hk : k < 4) (hj : j < 256) :
    ∃ w : Int, wave? (256 * k + j) = some w ∧
      |(w : ℝ) - 32767 * Real.sin (2 * Real.pi * (256 * k + j : Nat) / 1024)| < 1 / 2 := by
  obtain ⟨w, hw, hnear⟩ := wave?_near_gauss k hk j hj
  refine ⟨w, hw, ?_⟩
  have hsin := abs_sin_sub_im_gauss_le k hj
  have hentry : |(w : ℝ) - 32767 * ((quarterGauss ^ k * stepGauss ^ j).im / (10 ^ 12) ^ j)| ≤ 499 / 1000 :=
    abs_sub_div_le_of_scaled (by positivity) (by exact_mod_cast hnear)
  rw [abs_le] at hentry hsin
  rw [abs_lt]
  constructor <;> linarith

/-- F12: the table has `64` rows of `16`, so no entry from `1024` on. -/
theorem wave?_eq_none {i : Nat} (hi : 1024 ≤ i) : wave? i = none := by
  have hrow : waveRows[i / 16]? = none := by
    rw [List.getElem?_eq_none_iff]
    change 64 ≤ i / 16
    omega
  rw [wave?, hrow]

/-- Settles O26: each index is `256 * k + j`, so `wave?_near_sin` bounds its entry; none is left from `1024` on. -/
theorem wavetableIsTheRoundedSine : Obligations.WavetableIsTheRoundedSine := by
  unfold Obligations.WavetableIsTheRoundedSine
  refine ⟨fun i hi => ?_, fun i => wave?_eq_none, rfl⟩
  rw [← Nat.div_add_mod i 256]
  exact wave?_near_sin (by omega) (Nat.mod_lt i (by norm_num))

end Sys2Proof.Machine
end

section
/-! PROOFS. The octave keys, the other keys and the releases (spec/42_note_controller.md R150, R151, R153, R154). The
clamps keep every value an octave key computes inside its register, so what the command does is said in integers, once
per command and side of its limit. -/

namespace Sys2Proof.Machine

/-! ## The octave keys -/

/-- `OCTUP` below the maximum. -/
theorem exec_octup_below_max {s : State} (h : s.octave.toInt < 6) :
    ∃ o n : Word,
      exec .octup s = .next { s with octave := o, note := n, events := s.events ++ [.octaveReport .up o] } ∧
      o.toInt = s.octave.toInt + 1 ∧ n.toInt = min (s.note.toInt + 12) 131 := by
  have hoct := BitVec.le_toInt s.octave
  have hnote := BitVec.le_toInt s.note
  exact ⟨_, _, if_pos h, toInt_toRegister (by omega) (by omega), toInt_toRegister (by simp; omega) (by simp)⟩

/-- `OCTUP` at the maximum changes neither register and reports (R156, R159). -/
theorem exec_octup_at_max {s : State} (h : 6 ≤ s.octave.toInt) :
    exec .octup s = .next { s with events := s.events ++ [.octaveReport .up s.octave] } :=
  if_neg (not_lt.2 h)

/-- `OCTDN` above the minimum. -/
theorem exec_octdn_above_min {s : State} (h : 0 < s.octave.toInt) :
    ∃ o n : Word,
      exec .octdn s = .next { s with octave := o, note := n, events := s.events ++ [.octaveReport .down o] } ∧
      o.toInt = s.octave.toInt - 1 ∧ n.toInt = max (s.note.toInt - 12) 12 := by
  have hoct := BitVec.toInt_lt (x := s.octave)
  have hnote := BitVec.toInt_lt (x := s.note)
  exact ⟨_, _, if_pos h, toInt_toRegister (by omega) (by omega), toInt_toRegister (by simp) (by simp; omega)⟩

/-- `OCTDN` at the minimum changes neither register and reports (R156, R159). -/
theorem exec_octdn_at_min {s : State} (h : s.octave.toInt ≤ 0) :
    exec .octdn s = .next { s with events := s.events ++ [.octaveReport .down s.octave] } :=
  if_neg (not_lt.2 h)

/-- The greatest note of an octave, in a reachable state (R163): below the maximum, 12 more is still within 131. -/
theorem State.controllerInv.note_le {s : State} (h : s.controllerInv) :
    s.note.toInt ≤ 40 + 12 * s.octave.toInt := by
  obtain ⟨hoct, -, hoff | ⟨-, hle⟩⟩ := h
  · omega
  · simpa using hle

/-- The lower clamp is not undone: `OCTDN` then `OCTUP` from `octave = 1, note = 20` ends at note 24 (R151). -/
theorem exec_octdn_then_octup {s t : State} (ho : s.octave = 1) (hn : s.note = 20) (h : exec .octdn s = .next t) :
    ∃ u, exec .octup t = .next u ∧ u.octave = 1 ∧ u.note = 24 := by
  obtain ⟨o, n, hdn, hod, hnd⟩ := exec_octdn_above_min (s := s) (by simp [ho])
  rw [hdn] at h
  injection h with h
  subst h
  have hod : o.toInt = 0 := by simpa [ho] using hod
  have hnd : n.toInt = 12 := by simpa [hn] using hnd
  obtain ⟨o', n', hup, hou, hnu⟩ := exec_octup_below_max
    (s := { s with octave := o, note := n, events := s.events ++ [.octaveReport .down o] }) (by simp [hod])
  exact ⟨_, hup, BitVec.eq_of_toInt_eq (by simp [hou, hod]), BitVec.eq_of_toInt_eq (by simp [hnu, hnd])⟩

/-- Settles O14: the two sides of the maximum; below it every further clause is the integers' arithmetic. -/
theorem octaveUp : Obligations.OctaveUp := by
  unfold Obligations.OctaveUp
  refine ⟨fun s => ?_, rfl⟩
  by_cases h : s.octave.toInt < 6
  · obtain ⟨o, n, hexec, ho, hn⟩ := exec_octup_below_max h
    refine ⟨o, n, hexec, fun _ => ⟨ho, hn, fun hoff => by simp [hn, hoff], fun hinv => ?_⟩,
      fun hmax => absurd h (not_lt.2 hmax), fun h2 h45 => ?_⟩
    · have hle := hinv.note_le
      omega
    · exact ⟨BitVec.eq_of_toInt_eq (by simp [ho, h2]), BitVec.eq_of_toInt_eq (by simp [hn, h45])⟩
  · exact ⟨s.octave, s.note, exec_octup_at_max (not_lt.1 h), fun hlt => absurd hlt h, fun _ => ⟨rfl, rfl⟩,
      fun h2 => absurd (by simp [h2]) h⟩

/-- Settles O15: the two sides of the minimum; above it every further clause is the integers' arithmetic. -/
theorem octaveDown : Obligations.OctaveDown := by
  unfold Obligations.OctaveDown
  refine ⟨fun s => ?_, fun s t => exec_octdn_then_octup, rfl⟩
  by_cases h : 0 < s.octave.toInt
  · obtain ⟨o, n, hexec, ho, hn⟩ := exec_octdn_above_min h
    refine ⟨o, n, hexec, fun _ => ⟨ho, hn, fun hoff => by simp [hn, hoff]⟩, fun hmin => absurd h (not_lt.2 hmin),
      ?_, ?_, ?_⟩
    all_goals
      intro hoct hnote
      exact ⟨BitVec.eq_of_toInt_eq (by simp [ho, hoct]), BitVec.eq_of_toInt_eq (by simp [hn, hnote])⟩
  · refine ⟨s.octave, s.note, exec_octdn_at_min (not_lt.1 h), fun hlt => absurd hlt h, fun _ => ⟨rfl, rfl⟩, ?_, ?_, ?_⟩
    all_goals
      intro hoct
      exact absurd (by simp [hoct]) h

/-! ## The other keys and the releases -/

/-- Settles O17: both meanings are the identity, and the decoder runs on the two words. -/
theorem otherKeysAndReleasesDoNothing : Obligations.OtherKeysAndReleasesDoNothing := by
  unfold Obligations.OtherKeysAndReleasesDoNothing
  exact ⟨fun _ => ⟨rfl, rfl⟩, rfl, rfl⟩

end Sys2Proof.Machine
end

section
/-! PROOFS. Rounding to the nearest binary64 value (spec/00_scope.md R14): a number past the midpoint of two neighbours does
not round below the upper one, and small integers are exact. -/

namespace Sys2Proof.Machine

/-- Fields with the exponent `e` and a significand of at most `2^53`, the carry into the next exponent included. -/
theorem magOfBits_of_significand {e m : Nat} (hm : m ≤ 2 ^ 53) (hnorm : e = 0 ∨ 2 ^ 52 ≤ m) :
    magOfBits (e * 2 ^ 52 + m) = m * 2 ^ e := by
  rcases Nat.eq_or_lt_of_le hm with rfl | hlt
  · rw [show e * 2 ^ 52 + 2 ^ 53 = (e + 1) * 2 ^ 52 + 2 ^ 52 by ring, magOfBits_normal le_rfl (by norm_num)]
    ring
  · rcases hnorm with rfl | hnorm
    · simpa using magOfBits_small hlt
    · exact magOfBits_normal hnorm hlt

/-- The upper neighbour of such fields is one more in the significand. -/
theorem magOfBits_succ_of_significand {e m : Nat} (hm : m < 2 ^ 53) (hnorm : e = 0 ∨ 2 ^ 52 ≤ m) :
    magOfBits (e * 2 ^ 52 + m + 1) = (m + 1) * 2 ^ e := by
  rw [Nat.add_assoc, magOfBits_of_significand (by omega) (by omega)]

/-- A number past the midpoint of two neighbouring magnitudes does not round below the upper one. -/
theorem succ_le_roundMag {num den b : Nat} (hd : 0 < den)
    (h : (magOfBits b + magOfBits (b + 1)) * den < 2 * num) : b + 1 ≤ roundMag num den := by
  obtain ⟨e, m, r, hnum, hr, hm, hnorm, hround⟩ := roundMag_split (num := num) hd
  have hlo : magOfBits (e * 2 ^ 52 + m) = m * 2 ^ e := magOfBits_of_significand hm.le hnorm
  have hhi : magOfBits (e * 2 ^ 52 + m + 1) = (m + 1) * 2 ^ e := magOfBits_succ_of_significand hm hnorm
  by_contra hlt
  have hb : e * 2 ^ 52 + m ≤ b := by
    have : m ≤ if 2 * r < den * 2 ^ e then m else if den * 2 ^ e < 2 * r then m + 1 else m + m % 2 := by
      split_ifs <;> omega
    omega
  rcases Nat.eq_or_lt_of_le hb with rfl | hb
  · -- `b` is `num` rounded down, so `num` was not past the midpoint.
    have hhalf : 2 * r ≤ den * 2 ^ e := by
      by_contra hc
      rw [if_neg (by omega), if_pos (by omega)] at hround
      omega
    rw [hlo, hhi] at h
    have : (m * 2 ^ e + (m + 1) * 2 ^ e) * den = 2 * (m * (den * 2 ^ e)) + den * 2 ^ e := by ring
    omega
  · -- `b` is not below `num` rounded up, so `num` is below `b`.
    have hup : magOfBits (e * 2 ^ 52 + m + 1) * den = m * (den * 2 ^ e) + den * 2 ^ e := by rw [hhi]; ring
    have hup_le := Nat.mul_le_mul_right den (magOfBits_le_iff.mpr (show e * 2 ^ 52 + m + 1 ≤ b from hb))
    have hb_le := Nat.mul_le_mul_right den (magOfBits_le_iff.mpr (Nat.le_add_right b 1))
    rw [Nat.add_mul] at h
    omega

/-- The gap between a magnitude and the next below is at least its `2^53`th part. -/
theorem magOfBits_add_gap_le (b : Nat) :
    2 ^ 53 * magOfBits b + magOfBits (b + 1) ≤ 2 ^ 53 * magOfBits (b + 1) := by
  obtain ⟨e, m, rfl, hlo, hm, hnorm⟩ := magOfBits_split b
  rw [hlo, magOfBits_succ_of_significand hm hnorm]
  calc 2 ^ 53 * (m * 2 ^ e) + (m + 1) * 2 ^ e ≤ 2 ^ 53 * (m * 2 ^ e) + 2 ^ 53 * 2 ^ e :=
        Nat.add_le_add_left (Nat.mul_le_mul_right _ hm) _
    _ = 2 ^ 53 * ((m + 1) * 2 ^ e) := by ring

/-- A magnitude below a power of two has fields below those of the power. -/
theorem lt_of_magOfBits_eq {b m e k : Nat} (hm : m < 2 ^ 53) (he : e < k) (h : magOfBits b = m * 2 ^ e) :
    b < (k + 1) * 2 ^ 52 := by
  by_contra hb
  have hle := magOfBits_le_iff.mpr (not_lt.1 hb)
  rw [Nat.succ_mul, magOfBits_normal le_rfl (by norm_num), h] at hle
  have hlt : m * 2 ^ e < 2 ^ 52 * 2 ^ k := calc
    m * 2 ^ e < 2 ^ 53 * 2 ^ e := Nat.mul_lt_mul_of_pos_right hm (Nat.two_pow_pos e)
    _ = 2 ^ 52 * 2 ^ (e + 1) := by ring
    _ ≤ 2 ^ 52 * 2 ^ k := Nat.mul_le_mul_left _ (Nat.pow_le_pow_right two_pos he)
  exact absurd hle (not_le.2 hlt)

/-- `f64(k)` of a small integer is exact (R14). -/
theorem f64_spec {k : Int} (h : k.natAbs < 2 ^ 53) :
    isFinite (f64 k) = true ∧ magUnits (f64 k) = k.natAbs * unitsPerOne ∧ signBit (f64 k) = decide (k < 0) := by
  obtain ⟨b, hb⟩ := exists_magOfBits (e := 1074) h
  have hround : roundMag (k.natAbs * unitsPerOne) 1 = b :=
    roundMag_exact one_pos (by rw [hb, unitsPerOne_eq, Nat.mul_one])
  unfold f64
  rw [if_pos h.le, hround, unitsPerOne_eq, ← hb]
  exact packF64_spec (lt_of_magOfBits_eq (k := 2046) h (by norm_num) hb)

end Sys2Proof.Machine
end

section
/-! PROOFS. The attenuation (spec/43_oscillator.md R186): the exact product by 3/10 and the binary64 product by 0.3 truncate
to the same integer. -/

namespace Sys2Proof.Machine

/-! ## The exact product -/

/-- The attenuation is odd: truncation is toward zero. -/
theorem attenuate_neg (s : Int) : attenuate (-s) = -attenuate s := by
  unfold attenuate
  rw [Int.mul_neg, Int.neg_tdiv]

/-- The attenuation of a sample that is not negative. -/
theorem attenuate_of_nonneg {s : Int} (h : 0 ≤ s) : attenuate s = 3 * s / 10 :=
  Int.tdiv_eq_ediv_of_nonneg (Int.mul_nonneg (by decide) h)

/-- The attenuation by sign and magnitude. -/
theorem attenuate_eq_natAbs (s : Int) :
    attenuate s = if s < 0 then -((3 * s.natAbs / 10 : Nat) : Int) else (3 * s.natAbs / 10 : Nat) := by
  split_ifs with h
  · have hneg := attenuate_neg (-s)
    rw [neg_neg, attenuate_of_nonneg (s := -s) (by omega)] at hneg
    omega
  · rw [attenuate_of_nonneg (by omega)]
    omega

/-! ## The binary64 product -/

/-- `RN64(0.3)`. -/
abbrev pointThree : F64 := 0x3FD3333333333333#64

theorem isFinite_pointThree : isFinite pointThree = true := by decide

theorem signBit_pointThree : signBit pointThree = false := by decide

/-- A sixteenth is a power of two. -/
theorem unitsPerOne_eq_sixteen_mul : unitsPerOne = 16 * 2 ^ 1070 := by decide +kernel

/-- The constant is the multiple of `p = 2^-54` next below 3/10: ten times it is `2 * p` less than 3. -/
theorem ten_mul_magUnits_pointThree : ∃ p, 0 < p ∧ unitsPerOne = 2 ^ 54 * p ∧
    10 * magUnits pointThree + 2 * p = 3 * 2 ^ 54 * p :=
  ⟨2 ^ 1020, by decide +kernel⟩

/-- `n * 0.3` is `2n / 10` units of `p = 2^-54` less than `3n / 10`, which is `q + r / 10`. -/
theorem product_pointThree {n q r : Nat} (hqr : 3 * n = 10 * q + r) : ∃ p, 0 < p ∧ unitsPerOne = 2 ^ 54 * p ∧
    30 * (n * magUnits pointThree) + 2 * (10 * (q * p) + r * p) = 3 * 2 ^ 54 * (10 * (q * p) + r * p) := by
  obtain ⟨p, hp, hU, hc⟩ := ten_mul_magUnits_pointThree
  refine ⟨p, hp, hU, ?_⟩
  have hqrp : 10 * (q * p) + r * p = 3 * n * p := by rw [hqr]; ring
  rw [hqrp]
  calc 30 * (n * magUnits pointThree) + 2 * (3 * n * p) = 3 * n * (10 * magUnits pointThree + 2 * p) := by ring
    _ = 3 * 2 ^ 54 * (3 * n * p) := by rw [hc]; ring

/-- The product is rounded to at least the integer part `q` of `3n / 10`. Where that is not 0 the error of the constant is
less than half the gap below it, so that a multiple of 10, whose exact product is below `3n / 10`, rounds up to it. -/
theorem quotient_le_roundMag_product {n q r : Nat} (h : n < 2 ^ 50) (hqr : 3 * n = 10 * q + r) :
    q * unitsPerOne ≤ magOfBits (roundMag (n * magUnits pointThree) 1) := by
  obtain ⟨b, hb⟩ := exists_magOfBits (e := 1074) (m := q) (by omega)
  rw [← unitsPerOne_eq] at hb
  rw [← hb, magOfBits_le_iff]
  rcases b with _ | b
  · exact Nat.zero_le _
  refine succ_le_roundMag one_pos ?_
  have hgap := magOfBits_add_gap_le b
  have hpos : 0 < magOfBits (b + 1) := by simpa using magOfBits_lt (Nat.succ_pos b)
  obtain ⟨p, hp, hU, hprod⟩ := product_pointThree hqr
  generalize magUnits pointThree = c at hprod ⊢
  rw [hU, Nat.mul_left_comm] at hb
  have hrem : 0 ≤ r * p := Nat.zero_le _
  linarith

/-- The product is rounded to less than the next integer: it is at most `3n / 10`, and fifteen sixteenths more than an
integer is representable. -/
theorem roundMag_product_lt {n q r : Nat} (h : n < 2 ^ 50) (hqr : 3 * n = 10 * q + r) (hr : r < 10) :
    roundMag (n * magUnits pointThree) 1 < 2047 * 2 ^ 52 ∧
      magOfBits (roundMag (n * magUnits pointThree) 1) < (q + 1) * unitsPerOne := by
  have hsignificand : 16 * q + 15 < 2 ^ 53 := by omega
  obtain ⟨b, hb⟩ := exists_magOfBits (e := 1070) hsignificand
  have hfinite : b < 2047 * 2 ^ 52 := lt_of_magOfBits_eq (k := 2046) hsignificand (by norm_num) hb
  have hmag : 16 * magOfBits b = (16 * q + 15) * unitsPerOne := by
    rw [hb, unitsPerOne_eq_sixteen_mul, Nat.mul_left_comm]
  have hle : roundMag (n * magUnits pointThree) 1 ≤ b := by
    obtain ⟨p, hp, hU, hprod⟩ := product_pointThree hqr
    generalize magUnits pointThree = c at hprod ⊢
    rw [hU] at hmag
    have hrem : r * p ≤ 9 * p := Nat.mul_le_mul_right p (Nat.le_of_lt_succ hr)
    have hnonneg : 0 ≤ 10 * (q * p) + r * p := Nat.zero_le _
    exact roundMag_le one_pos (by linarith only [hmag, hprod, hrem, hnonneg, hp])
  have hU := unitsPerOne_pos
  exact ⟨lt_of_le_of_lt hle hfinite, lt_of_le_of_lt (magOfBits_le_iff.mpr hle) (by linarith)⟩

/-- A common factor of the numerator and the denominator does not change the rounding. -/
theorem roundMag_mul_right {num den k : Nat} (hk : 0 < k) : roundMag (num * k) (den * k) = roundMag num den := by
  unfold roundMag
  rw [Nat.mul_div_mul_right _ _ hk]
  simp only [Nat.mul_right_comm den k, Nat.mul_div_mul_right _ _ hk, Nat.mul_mod_mul_right, ← Nat.mul_assoc,
    Nat.mul_lt_mul_right hk]

/-- The binary64 product of a small integer by 0.3. -/
theorem units_fmul_pointThree {s : Int} (h : s.natAbs < 2 ^ 50) :
    units (fmul (f64 s) pointThree) =
      if s < 0 then -(magOfBits (roundMag (s.natAbs * magUnits pointThree) 1) : Int)
      else magOfBits (roundMag (s.natAbs * magUnits pointThree) 1) := by
  obtain ⟨hfinite, hmag, hsign⟩ := f64_spec (k := s) (by omega)
  have hround : roundMag (s.natAbs * unitsPerOne * magUnits pointThree) unitsPerOne =
      roundMag (s.natAbs * magUnits pointThree) 1 := by
    have := roundMag_mul_right (num := s.natAbs * magUnits pointThree) (den := 1) unitsPerOne_pos
    rwa [Nat.mul_right_comm, Nat.one_mul] at this
  have hsplit := (Nat.div_add_mod (3 * s.natAbs) 10).symm
  unfold fmul
  rw [hfinite, isFinite_pointThree, hmag, hsign, signBit_pointThree, hround, Bool.and_self, if_pos rfl,
    units_packF64 (roundMag_product_lt h hsplit (Nat.mod_lt _ (by decide))).1, Bool.xor_false]
  simp only [decide_eq_true_eq]

/-- The binary64 product by 0.3 truncates to the attenuation (R186), far beyond the 16-bit samples. -/
theorem attenuate_eq_tdiv_fmul {s : Int} (h : s.natAbs < 2 ^ 50) :
    attenuate s = Int.tdiv (units (fmul (f64 s) pointThree)) unitsPerOne := by
  have hsplit := (Nat.div_add_mod (3 * s.natAbs) 10).symm
  have hquot : magOfBits (roundMag (s.natAbs * magUnits pointThree) 1) / unitsPerOne = 3 * s.natAbs / 10 :=
    Nat.div_eq_of_lt_le (quotient_le_roundMag_product h hsplit)
      (roundMag_product_lt h hsplit (Nat.mod_lt _ (by decide))).2
  rw [attenuate_eq_natAbs, units_fmul_pointThree h, ← hquot]
  split_ifs
  · rw [Int.neg_tdiv, ← Int.ofNat_tdiv]
  · rw [← Int.ofNat_tdiv]

/-- Settles O33: the exact and the binary64 product agree at every small integer; the rest is arithmetic of `3s / 10`. -/
theorem attenuationTruncatesTheExactProduct : Obligations.AttenuationTruncatesTheExactProduct := by
  unfold Obligations.AttenuationTruncatesTheExactProduct
  refine ⟨fun s h => ⟨attenuate_of_nonneg h, ?_⟩, fun s _ _ => attenuate_eq_tdiv_fmul (by omega), fun s _ _ => ?_, rfl⟩
  · rw [attenuate_neg, attenuate_of_nonneg h]
  · rw [attenuate_eq_natAbs]
    split_ifs <;> omega

end Sys2Proof.Machine
end

section
/-! PROOFS. The sample writer `WRS` (spec/43_oscillator.md R180 to R190). The phase of a frame is a number of advances of
the first phase, and a frame's four bytes are touched by its own turn of the loop alone. -/

namespace Sys2Proof.Machine

/-! ## One frame -/

/-- A byte of a stored frame (R187). -/
theorem stereoStore_read (m : Memory) (a : Nat) (v : Int) {j : Nat} (hj : j < 4) :
    (stereoStore m a v).read (a + j) = some (sampleByte v j) := by
  unfold stereoStore sampleByte
  rw [Memory.read_memWrite_two, Memory.read_memWrite_two]
  interval_cases j <;> simp [Nat.add_assoc]

/-- A byte of the frame at `a` after its turn: the sample's where the index has an entry, the old one where the frame is
skipped (R185 to R188). -/
theorem writeFrame_read (m : Memory) (a : Nat) (idx : Word) {j : Nat} (hj : j < 4) :
    (writeFrame m a idx).read (a + j) =
      (((lookupEntry idx).map attenuate).map fun v => sampleByte v j).or (m.read (a + j)) := by
  unfold writeFrame
  cases lookupEntry idx with
  | none => rfl
  | some e => exact stereoStore_read m a (attenuate e) hj

/-! ## The loop -/

/-- The last of `k + 1` advances stands outside the others. -/
theorem phaseAfter_succ (inc acc : F64) (k : Nat) :
    phaseAfter inc (k + 1) acc = advancePhase inc (phaseAfter inc k acc) := by
  induction k generalizing acc with
  | zero => rfl
  | succ k ih => exact ih (advancePhase inc acc)

/-- The loop advances the phase once per frame (R183, R184). -/
theorem frameLoop_acc (inc : F64) (k a : Nat) (s : State) :
    (frameLoop inc k a s).acc = phaseAfter inc k s.acc := by
  induction k generalizing a s with
  | zero => rfl
  | succ k ih => rw [frameLoop_succ, ih]; rfl

/-- The last turn of the loop stands outside the others. -/
theorem frameLoop_last (inc : F64) (k a : Nat) (s : State) :
    frameLoop inc (k + 1) a s = frameStep inc (a + 4 * k) (frameLoop inc k a s) :=
  frameLoop_add inc k 1 a s

/-- After at least one frame the index is that of the phase (R183). -/
theorem frameLoop_idx (inc : F64) (a : Nat) (s : State) {k : Nat} (hk : k ≠ 0) :
    (frameLoop inc k a s).idx = phaseIndex (frameLoop inc k a s).acc := by
  obtain ⟨k, rfl⟩ := Nat.exists_eq_succ_of_ne_zero hk
  rw [frameLoop_last]
  rfl

/-- A byte of frame `f` after the loop: that of the sample read after `f + 1` advances, or the old one where the frame is
skipped. The frames before it and after it do not touch the byte. -/
theorem frameLoop_read_frame (inc : F64) (a : Nat) (s : State) {k f j : Nat} (hf : f < k) (hj : j < 4) :
    (frameLoop inc k a s).mem.read (a + 4 * f + j) =
      ((sampleOfFrame inc s.acc f).map fun v => sampleByte v j).or (s.mem.read (a + 4 * f + j)) := by
  obtain ⟨l, rfl⟩ := Nat.exists_eq_add_of_lt hf
  have hphase : advancePhase inc (frameLoop inc f a s).acc = phaseAfter inc (f + 1) s.acc := by
    rw [phaseAfter_succ, frameLoop_acc]
  rw [show f + l + 1 = f + 1 + l by omega, frameLoop_add, frameLoop_read_outside (by omega), frameLoop_last,
    frameStep_eq, writeFrame_read _ _ _ hj, frameLoop_read_outside (by omega), hphase]
  rfl

/-! ## The command -/

/-- A `WRS` that passes both tests completes with its body done (R189). -/
theorem exec_wrs_completes {s : State} {buf start count : Word} (hrange : wrsInRange buf start count)
    (hwritable : regionWritable s.writable (buf.toNat + 4 * start.toNat) (4 * count.toNat) = true) :
    exec (.wrs buf start count) s = .next (wrsBody (buf.toNat + 4 * start.toNat) count.toNat s) := by
  rw [exec_wrs, if_pos hrange, if_pos hwritable]

/-- A `WRS` out of range sets `fault.ADDR` and does nothing else (R190). -/
theorem exec_wrs_outOfRange {s : State} {buf start count : Word} (h : ¬ wrsInRange buf start count) :
    exec (.wrs buf start count) s = .next { s with fault := s.fault ||| 0b010#3 } := by
  rw [exec_wrs, if_neg h]

/-- A `WRS` in range leaves `fault` as it was (R190). -/
theorem exec_wrs_keeps_fault {s t : State} {buf start count : Word} (hrange : wrsInRange buf start count)
    (h : exec (.wrs buf start count) s = .next t) : t.fault = s.fault := by
  rw [exec_wrs, if_pos hrange] at h
  split at h
  · injection h with h
    rw [← h, wrsBody_frame]
  · cases h

/-- Settles O36: with the voice on the body is the loop, whose phase, index and bytes the lemmas above give. -/
theorem writeSamplesVoiced : Obligations.WriteSamplesVoiced := by
  unfold Obligations.WriteSamplesVoiced
  intro s buf start count hvoice hrange hwritable
  have hloop := wrsBody_on (a := buf.toNat + 4 * start.toNat) (k := count.toNat) hvoice
  refine ⟨_, exec_wrs_completes hrange hwritable, wrsBody_frame _ _ _, ?_, ?_, ?_, ?_, ?_⟩
  · rw [hloop, frameLoop_acc]
  · rintro rfl
    simp
  · intro hcount
    rw [hloop]
    exact frameLoop_idx _ _ _ fun h0 => hcount (BitVec.eq_of_toNat_eq h0)
  · intro f hf j hj
    rw [hloop, show buf.toNat + 4 * (start.toNat + f) + j = buf.toNat + 4 * start.toNat + 4 * f + j by omega,
      frameLoop_read_frame _ _ _ hf hj]
    cases sampleOfFrame (PINC s.build.params s.note.toInt) s.acc f <;> rfl
  · intro a ha
    exact wrsBody_read_outside (by omega)

/-- Settles O38: with the voice off the body is the identity. -/
theorem writeSamplesVoiceOff : Obligations.WriteSamplesVoiceOff := by
  unfold Obligations.WriteSamplesVoiceOff
  intro s buf start count hoff hrange hwritable
  rw [exec_wrs_completes hrange hwritable, wrsBody_off hoff]

/-- Settles O39: the range test decides, and both of its sides are said above. -/
theorem writeSamplesAddressFault : Obligations.WriteSamplesAddressFault := by
  unfold Obligations.WriteSamplesAddressFault
  exact fun s buf start count =>
    ⟨fun h => exec_wrs_outOfRange (not_le.2 h), fun hrange t h => exec_wrs_keeps_fault hrange h⟩

end Sys2Proof.Machine
end

section
/-! PROOFS. The audio callback's `FILL` (spec/44_audio_callback.md R210, R211). Step Z changes memory and the record of the
command alone, and the stored zeros are the buffer's bytes exactly. -/

namespace Sys2Proof.Machine

/-! ## Step Z -/

/-- Step Z of a `FILL` that passes both tests zeroes its buffer and is in progress afterwards (R211). -/
theorem exec_fill_completes {s : State} {dest byteLength : Word} (hrange : fillInRange dest byteLength)
    (hwritable : regionWritable s.writable dest.toNat byteLength.toNat = true) :
    exec (.fill dest byteLength) s =
      .next { s with mem := zeroFill s.mem dest byteLength, fill := fillStarted dest byteLength } := by
  rw [exec_fill, if_pos hrange, if_pos hwritable]

/-- A byte of the buffer reads as zero after the zero-fill. -/
theorem zeroFill_read_inside {m : Memory} {dest byteLength : Word} {a : Nat} (hlo : dest.toNat ≤ a)
    (hhi : a < dest.toNat + byteLength.toNat) : (zeroFill m dest byteLength).read a = some 0#8 := by
  rw [zeroFill_read, if_pos ⟨hlo, hhi⟩]

/-- A byte outside the buffer reads as before the zero-fill. -/
theorem zeroFill_read_outside {m : Memory} {dest byteLength : Word} {a : Nat}
    (h : a < dest.toNat ∨ dest.toNat + byteLength.toNat ≤ a) : (zeroFill m dest byteLength).read a = m.read a := by
  rw [zeroFill_read, if_neg (by omega)]

/-- Settles O41: the state after step Z is written out, and its bytes are those of the zero-fill. -/
theorem fillZeroesTheBuffer : Obligations.FillZeroesTheBuffer := by
  unfold Obligations.FillZeroesTheBuffer
  intro s dest len hrange hwritable
  exact ⟨_, exec_fill_completes hrange hwritable, rfl, rfl, rfl, rfl, rfl, rfl, rfl,
    fun _ hlo hhi => zeroFill_read_inside hlo hhi, fun _ h => zeroFill_read_outside h⟩

end Sys2Proof.Machine
end

section
/-! PROOFS. The audio port while a command is in progress (spec/70_reset_and_hazards.md R268). -/

namespace Sys2Proof.Machine

/-- R268: with a command in progress a turn of the audio port is that command's next step. -/
theorem audioTurn_busy {s : State} (hbusy : s.fill.busy = true) : audioTurn s = .next (audioContinue s) :=
  if_pos hbusy

/-- The waiting descriptors are no part of what a step of the command in progress writes. -/
theorem audioContinue_audioPort (s : State) : (audioContinue s).audioPort = s.audioPort := by
  rw [audioContinue_frame s]

/-- Settles O12: the step is the port's turn with a command in progress, which leaves the queue of descriptors. -/
theorem busyAudioPortAcceptsNothing : Obligations.BusyAudioPortAcceptsNothing := by
  unfold Obligations.BusyAudioPortAcceptsNothing
  intro s ts hsched hbusy
  constructor
  · rw [step_audio hsched]
    exact audioTurn_busy hbusy
  · exact audioContinue_audioPort { s with schedule := ts }

end Sys2Proof.Machine
end

section
/-! PROOFS. The encoding's round trip (spec/30_encoding.md R81 to R87): both formats are read field by field. -/

namespace Sys2Proof

/-! ## The fields of a descriptor built from fields (R82) -/

@[simp] theorem opA_descriptorA (op : Byte) (a b c : Word) : opA (descriptorA op a b c) = op := by
  have := op.isLt
  apply BitVec.eq_of_toNat_eq
  simp only [opA, toNat_field, descriptorA_toNat]
  omega

@[simp] theorem zeroA_descriptorA (op : Byte) (a b c : Word) : zeroA (descriptorA op a b c) = 0 := by
  have := op.isLt
  apply BitVec.eq_of_toNat_eq
  simp only [zeroA, toNat_field, descriptorA_toNat, BitVec.ofNat_eq_ofNat, BitVec.toNat_ofNat]
  omega

@[simp] theorem fieldA_descriptorA (op : Byte) (a b c : Word) : fieldA (descriptorA op a b c) = a := by
  have := op.isLt
  have := a.isLt
  apply BitVec.eq_of_toNat_eq
  simp only [fieldA, toNat_field, descriptorA_toNat]
  omega

@[simp] theorem fieldB_descriptorA (op : Byte) (a b c : Word) : fieldB (descriptorA op a b c) = b := by
  have := op.isLt
  have := a.isLt
  have := b.isLt
  apply BitVec.eq_of_toNat_eq
  simp only [fieldB, toNat_field, descriptorA_toNat]
  omega

@[simp] theorem fieldC_descriptorA (op : Byte) (a b c : Word) : fieldC (descriptorA op a b c) = c := by
  have := op.isLt
  have := a.isLt
  have := b.isLt
  have := c.isLt
  apply BitVec.eq_of_toNat_eq
  simp only [fieldC, toNat_field, descriptorA_toNat]
  omega

/-! ## The round trip -/

/-- The word of a legal note key is read back (R83, R87). -/
theorem decodeK_notekey_word {off : Byte} (h : legalOffset off) : decodeK (wordK 0x03#8 off) = .ok (.notekey off) := by
  simpa [decodeK_eq_ok_iff, opK_wordK, argK_wordK] using h

/-- The word of a control command without operand is read back (R83): its opcode, then `arg = 0`. -/
theorem decodeK_of_opcode {op : Byte} {i : Instr}
    (h : (op, i) ∈ [(0x01#8, Instr.octup), (0x02#8, .octdn), (0x04#8, .keyother), (0x05#8, .keyup),
      (0x0F#8, .shutdown)]) :
    decodeK (wordK op 0) = .ok i := by
  have hzero : ¬ legalOffset 0#8 := by decide
  simpa [decodeK_eq_ok_iff, opK_wordK, argK_wordK, hzero] using h

/-- Settles O4: each field of the encoding is read back, so the decoder takes the command's own row. -/
theorem decodeOfEncode : Obligations.DecodeOfEncode := by
  unfold Obligations.DecodeOfEncode
  intro i hwf
  cases i with
  | notekey off => exact decodeK_notekey_word (of_decide_eq_true hwf)
  | fill dest byteLength => exact decodeA_eq_ok_iff.2 (Or.inl (by simp))
  | wrs buf start count => exact decodeA_eq_ok_iff.2 (Or.inr (by simp))
  | octup => exact decodeK_of_opcode (by simp)
  | octdn => exact decodeK_of_opcode (by simp)
  | keyother => exact decodeK_of_opcode (by simp)
  | keyup => exact decodeK_of_opcode (by simp)
  | shutdown => exact decodeK_of_opcode (by simp)

/-- A format K word that decodes is its command's encoding: `op` and `arg` are all its bits. -/
theorem encode_of_decodeK {w : Half} {i : Instr} (h : decodeK w = .ok i) : encode i = .control w := by
  rw [← wordK_fields w]
  rcases decodeK_ok h with ⟨hop, harg, rfl⟩ | ⟨hop, harg, rfl⟩ | ⟨hop, -, rfl⟩ | ⟨hop, harg, rfl⟩ |
    ⟨hop, harg, rfl⟩ | ⟨hop, harg, rfl⟩
  case inr.inr.inl => rw [hop, encode]
  all_goals rw [hop, harg, encode]

/-- A descriptor that decodes is its command's encoding: `zero`, and for `FILL` also `C`, is 0. -/
theorem encode_of_decodeA {d : Descriptor} {i : Instr} (h : decodeA d = .ok i) : encode i = .audio d := by
  rcases decodeA_ok h with ⟨hop, hzero, hC, rfl⟩ | ⟨hop, hzero, rfl⟩
  · have hd := descriptorA_fields hzero
    rw [hop, hC] at hd
    exact congrArg _ hd
  · have hd := descriptorA_fields hzero
    rw [hop] at hd
    exact congrArg _ hd

/-- What a descriptor decodes to is well-formed: no operand of an audio command is restricted (R86). -/
theorem decodeA_wellFormed {d : Descriptor} {i : Instr} (h : decodeA d = .ok i) : i.wellFormed = true := by
  rcases decodeA_ok h with ⟨-, -, -, rfl⟩ | ⟨-, -, rfl⟩
  · rfl
  · rfl

/-- Settles O5: in either format the fields the decoder has looked at are all the word's bits. -/
theorem encodeOfDecode : Obligations.EncodeOfDecode := by
  unfold Obligations.EncodeOfDecode
  intro w i h
  cases w with
  | control w => exact ⟨decodeK_wellFormed h, encode_of_decodeK h⟩
  | audio d => exact ⟨decodeA_wellFormed h, encode_of_decodeA h⟩

end Sys2Proof
end

section
/-! PROOFS. What a step can do (spec/20_memory.md R62, R66): a turn, and for each agent's turn the states it can answer. The
invariants below are read off these lemmas. -/

namespace Sys2Proof.Machine

/-! ## The step and its turn -/

/-- A step that answers a next state holds the state, or is the next turn. -/
theorem step_next_cases {s t : State} (h : step s = .next t) :
    (s.schedule = [] ∧ t = s) ∨ ∃ u ts, s.schedule = u :: ts ∧ takeTurn u { s with schedule := ts } = .next t := by
  cases hs : s.schedule with
  | nil =>
    rw [step_nil hs] at h
    injection h with h
    exact Or.inl ⟨rfl, h.symm⟩
  | cons u ts => exact Or.inr ⟨u, ts, rfl, step_cons hs ▸ h⟩

/-- What every turn keeps, and what does not look at the schedule, every step keeps. -/
theorem step_keeps {P : State → Prop} {s t : State} (hsched : ∀ ts, P s → P { s with schedule := ts })
    (hturn : ∀ u s t, P s → takeTurn u s = .next t → P t) (hs : P s) (h : step s = .next t) : P t := by
  rcases step_next_cases h with ⟨-, rfl⟩ | ⟨u, ts, -, hu⟩
  · exact hs
  · exact hturn u _ t (hsched ts hs) hu

/-! ## The two agents' turns -/

/-- A control turn leaves every field but `note`, `octave`, `fault`, `shut`, the event stream and the control port (R37). -/
theorem controlTurn_next_frame {s t : State} (h : controlTurn s = .next t) :
    t = { s with
      note := t.note
      octave := t.octave
      fault := t.fault
      shut := t.shut
      events := t.events
      controlPort := t.controlPort } := by
  obtain ⟨n, o, f, sh, ev, p, he, -⟩ := controlTurn_frame s
  rw [he] at h
  injection h with h
  subst h
  rfl

/-- What an audio turn can answer: the next step of the command in progress; with none in progress, nothing but a descriptor
gone and a fault bit set; step Z of a `FILL` that passes both tests; or a `WRS` that passes both tests. -/
theorem audioTurn_next_cases {s t : State} (h : audioTurn s = .next t) :
    (s.fill.busy = true ∧ t = audioContinue s) ∨
    (s.fill.busy = false ∧ ∃ ds f, t = { s with audioPort := ds, fault := f } ∧ f &&& s.fault = s.fault) ∨
    (s.fill.busy = false ∧ ∃ ds dest byteLength,
      fillInRange dest byteLength ∧ regionWritable s.writable dest.toNat byteLength.toNat = true ∧
      t = { s with
        audioPort := ds
        mem := zeroFill s.mem dest byteLength
        fill := fillStarted dest byteLength }) ∨
    (s.fill.busy = false ∧ ∃ ds, ∃ buf start count : Word, wrsInRange buf start count ∧
      t = wrsBody (buf.toNat + 4 * start.toNat) count.toNat { s with audioPort := ds }) := by
  rcases audioTurn_cases s with ⟨hb, e⟩ | ⟨hb, -, e⟩ | ⟨d, ds, hb, -, -, e⟩ | ⟨d, ds, i, hb, -, hd, e⟩ <;> rw [e] at h
  · injection h with h
    exact Or.inl ⟨hb, h.symm⟩
  · injection h with h
    exact Or.inr (Or.inl ⟨hb, s.audioPort, s.fault, h.symm, BitVec.and_self⟩)
  · injection h with h
    exact Or.inr (Or.inl ⟨hb, ds, _, h.symm, setFaultBit_sticky .illegalCommand s.fault⟩)
  · rcases decodeA_ok hd with ⟨-, -, -, rfl⟩ | ⟨-, -, rfl⟩
    · rw [exec_fill] at h
      split_ifs at h with hrange hwritable <;> injection h with h
      · exact Or.inr (Or.inr (Or.inl ⟨hb, ds, _, _, hrange, hwritable, h.symm⟩))
      · exact Or.inr (Or.inl ⟨hb, ds, _, h.symm, setFaultBit_sticky .addrFault s.fault⟩)
    · rw [exec_wrs] at h
      split_ifs at h with hrange hwritable <;> injection h with h
      · exact Or.inr (Or.inr (Or.inr ⟨hb, ds, _, _, _, hrange, h.symm⟩))
      · exact Or.inr (Or.inl ⟨hb, ds, _, h.symm, setFaultBit_sticky .addrFault s.fault⟩)

theorem audioContinue_check {s : State} (h : s.fill.checked = false) : audioContinue s = fillCheck s := by
  rw [audioContinue, h]
  rfl

theorem audioContinue_chunk {s : State} (h : s.fill.checked = true) : audioContinue s = fillChunk s := by
  rw [audioContinue, h]
  rfl

/-! ## The turns of the host and of issuing -/

/-- A turn of no port and no reset writes memory and the ports' queues alone, and memory as one store inside the address
space. -/
theorem takeTurn_other_frame {u : Turn} {s t : State} (hc : u ≠ .control) (ha : u ≠ .audio) (hr : ∀ p, u ≠ .reset p)
    (h : takeTurn u s = .next t) :
    t = { s with mem := t.mem, controlPort := t.controlPort, audioPort := t.audioPort } ∧ (s.mem.wf → t.mem.wf) := by
  cases u with
  | control => exact absurd rfl hc
  | audio => exact absurd rfl ha
  | reset p => exact absurd rfl (hr p)
  | issueControl w =>
    injection h with h
    subst h
    exact ⟨rfl, id⟩
  | issueAudio d =>
    injection h with h
    subst h
    exact ⟨rfl, id⟩
  | hostRead addr len =>
    obtain ⟨rfl, -, -⟩ := hostRead_next h
    exact ⟨rfl, id⟩
  | hostWrite addr bytes =>
    obtain ⟨rfl, -, hrange⟩ := hostWrite_next h
    exact ⟨rfl, fun hm => Memory.store_wf hm hrange⟩

/-- What the turns of the two ports and of reset keep, and what does not look at memory or at the queues, every turn
keeps. -/
theorem takeTurn_keeps {P : State → Prop} (hcontrol : ∀ s t, P s → controlTurn s = .next t → P t)
    (haudio : ∀ s t, P s → audioTurn s = .next t → P t) (hreset : ∀ p s, P s → P (resetEvent p s))
    (hother : ∀ s m cp ap, P s → P { s with mem := m, controlPort := cp, audioPort := ap })
    (u : Turn) (s t : State) (hs : P s) (h : takeTurn u s = .next t) : P t := by
  by_cases hc : u = .control
  · subst hc
    exact hcontrol s t hs h
  by_cases ha : u = .audio
  · subst ha
    exact haudio s t hs h
  by_cases hr : ∃ p, u = .reset p
  · obtain ⟨p, rfl⟩ := hr
    injection h with h
    exact h ▸ hreset p s hs
  · rw [(takeTurn_other_frame hc ha (fun p hp => hr ⟨p, hp⟩) h).1]
    exact hother _ _ _ _ hs

end Sys2Proof.Machine
end

section
/-! PROOFS. The note controller's invariant, its note keys and the shutdown flag (spec/42_note_controller.md R152, R157 to
R163, spec/44_audio_callback.md R219, spec/10_state.md R32). -/

namespace Sys2Proof.Machine

/-! ## The build -/

/-- What a legal build has (R8, R132). -/
theorem legalBuild_iff {p : BuildParams} : legalBuild p = true ↔
    supported p = true ∧ pitchP1 p = true ∧ pitchP2 p = true ∧ pitchP3 p = true ∧ pitchPositive p = true := by
  simp only [legalBuild, Bool.and_eq_true, and_assoc]

/-- P1: `PITCH(57) = 440.0` in every build (R132). -/
theorem PITCH_reference (b : Build) : PITCH b.params 57 = 0x407B800000000000#64 :=
  of_decide_eq_true (legalBuild_iff.1 b.legal).2.1

/-! ## The note key -/

/-- `NOTEKEY` writes `note` and reports it; where the integer fits the register, `note` is that integer (R152, R158). -/
theorem exec_notekey (off : Byte) (s : State) :
    ∃ n : Word,
      exec (.notekey off) s =
        .next { s with note := n, events := s.events ++ [.noteReport n (PITCH s.build.params n.toInt)] } ∧
      n = toRegister (off.toNat + 12 * s.octave.toInt) :=
  ⟨_, rfl, rfl⟩

/-- The word of `NOTEKEY off` is `0x0300 + off`. -/
theorem notekey_word_eq (off : Byte) : BitVec.ofNat 16 (0x0300 + off.toNat) = wordK 0x03#8 off := by
  have := off.isLt
  apply BitVec.eq_of_toNat_eq
  simp only [wordK, toNat_concat, BitVec.toNat_ofNat]
  omega

/-! ## The reachable states of the controller (R163) -/

/-- The invariant with the numbers of Table P. -/
theorem State.controllerInv_iff {s : State} :
    s.controllerInv ↔ 0 ≤ s.octave.toInt ∧ s.octave.toInt ≤ 6 ∧
      (s.note.toInt = 0 ∨ (12 ≤ s.note.toInt ∧ s.note.toInt ≤ 40 + 12 * s.octave.toInt)) := Iff.rfl

/-- A note key of a reachable state lands in `[12, 40 + 12 * octave]`. -/
theorem toInt_noteKey {s : State} {off : Byte} (hs : s.controllerInv) (hoff : legalOffset off) :
    12 ≤ (toRegister (off.toNat + 12 * s.octave.toInt)).toInt ∧
      (toRegister (off.toNat + 12 * s.octave.toInt)).toInt ≤ 40 + 12 * s.octave.toInt := by
  obtain ⟨hlo, hhi, -⟩ := State.controllerInv_iff.1 hs
  obtain ⟨hoff1, hoff2⟩ : 12 ≤ off.toNat ∧ off.toNat ≤ 40 := hoff
  rw [toInt_toRegister (by omega) (by omega)]
  omega

/-- A legal control command keeps the reachable set, and keeps a voice that is on. -/
theorem exec_control_keeps_range {i : Instr} {s t : State} (hp : i.port = .control) (hwf : i.wellFormed = true)
    (hs : s.controllerInv) (h : exec i s = .next t) :
    t.controllerInv ∧ (0 < s.note.toInt → 0 < t.note.toInt) := by
  have hinv := State.controllerInv_iff.1 hs
  cases i with
  | octup =>
    by_cases hmax : s.octave.toInt < 6
    · obtain ⟨o, n, he, ho, hn⟩ := exec_octup_below_max hmax
      rw [he] at h
      injection h with h
      subst h
      rw [State.controllerInv_iff]
      dsimp only
      omega
    · rw [exec_octup_at_max (not_lt.1 hmax)] at h
      injection h with h
      subst h
      exact ⟨hs, id⟩
  | octdn =>
    by_cases hmin : 0 < s.octave.toInt
    · obtain ⟨o, n, he, ho, hn⟩ := exec_octdn_above_min hmin
      rw [he] at h
      injection h with h
      subst h
      rw [State.controllerInv_iff]
      dsimp only
      omega
    · rw [exec_octdn_at_min (not_lt.1 hmin)] at h
      injection h with h
      subst h
      exact ⟨hs, id⟩
  | notekey off =>
    obtain ⟨n, he, rfl⟩ := exec_notekey off s
    rw [he] at h
    injection h with h
    subst h
    have hrange := toInt_noteKey hs (of_decide_eq_true hwf)
    exact ⟨⟨hinv.1, hinv.2.1, Or.inr hrange⟩, fun _ => lt_of_lt_of_le (by norm_num) hrange.1⟩
  | keyother =>
    injection h with h
    exact h ▸ ⟨hs, id⟩
  | keyup =>
    injection h with h
    exact h ▸ ⟨hs, id⟩
  | shutdown =>
    injection h with h
    exact h ▸ ⟨hs, id⟩
  | fill dest byteLength => cases hp
  | wrs buf start count => cases hp

/-- A control turn keeps the reachable set, and keeps a voice that is on. -/
theorem controlTurn_keeps_range {s t : State} (hs : s.controllerInv) (h : controlTurn s = .next t) :
    t.controllerInv ∧ (0 < s.note.toInt → 0 < t.note.toInt) := by
  rcases controlTurn_cases s with ⟨-, e⟩ | ⟨w, ws, -, -, e⟩ | ⟨w, ws, i, -, hd, e⟩ <;> rw [e] at h
  · injection h with h
    exact h ▸ ⟨hs, id⟩
  · injection h with h
    exact h ▸ ⟨hs, id⟩
  · exact exec_control_keeps_range (s := { s with controlPort := ws }) (decodeK_port hd) (decodeK_wellFormed hd) hs h

/-- `OCTAVE_RESET` reads back from its register. -/
theorem toInt_octaveReset (b : Build) : b.octaveReset.toInt = (b.params.octaveReset.val : Int) := by
  have := b.params.octaveReset.isLt
  rw [Build.octaveReset, BitVec.toInt_ofNat', Int.bmod_eq_of_le] <;> omega

/-- The reset state, whatever memory, queues and schedule it has, is in the reachable set (R36). -/
theorem controllerInv_of_reset {t : State} (hn : t.note = 0) (ho : t.octave = t.build.octaveReset) : t.controllerInv := by
  have := t.build.params.octaveReset.isLt
  rw [State.controllerInv_iff, hn, ho, toInt_octaveReset]
  refine ⟨by omega, by omega, Or.inl (by decide)⟩

/-- Settles O20: a control turn computes in integers that stay in range, reset starts in range, and no other turn writes a
register of the controller. -/
theorem controllerRangeIsKept : Obligations.ControllerRangeIsKept := by
  unfold Obligations.ControllerRangeIsKept
  intro s t hs h
  refine step_keeps (P := State.controllerInv) (fun ts h => h)
    (takeTurn_keeps (fun s t hs h => (controlTurn_keeps_range hs h).1) (fun s t hs h => ?_)
      (fun p s hs => controllerInv_of_reset rfl rfl) fun s m cp ap hs => hs) hs h
  rw [audioTurn_frame h]
  exact hs

/-- Settles O16: the report and the frame are the command's equation, and the integers fit their register. -/
theorem noteKey : Obligations.NoteKey := by
  unfold Obligations.NoteKey
  refine ⟨fun s off => ?_, fun off => ?_⟩
  · obtain ⟨n, he, hn⟩ := exec_notekey off s
    refine ⟨n, he, fun hlo hhi => hn ▸ toInt_toRegister hlo hhi, fun hs hoff => ?_, fun hoct hoff => ?_,
      fun hoct hoff => ?_, fun e hev => ?_⟩
    · have hrange := toInt_noteKey hs hoff
      have hoct := (State.controllerInv_iff.1 hs).2.1
      rw [hn]
      omega
    · obtain rfl : n = 57 := by rw [hn, hoct, hoff]; decide
      exact ⟨rfl, PITCH_reference s.build⟩
    · rw [hn, hoct, hoff]
      decide
    · subst hev hn
      rfl
  · rw [notekey_word_eq, decodeK_eq_ok_iff]
    simp [opK_wordK, argK_wordK]

/-! ## The other turns -/

/-- Only a control turn and reset write what the control agent writes (R37). -/
theorem takeTurn_keeps_control_fields {u : Turn} {s t : State} (hc : u ≠ .control) (hr : ∀ p, u ≠ .reset p)
    (h : takeTurn u s = .next t) : t.note = s.note ∧ t.shut = s.shut ∧ t.events = s.events := by
  by_cases ha : u = .audio
  · subst ha
    rw [audioTurn_frame h]
    exact ⟨rfl, rfl, rfl⟩
  · rw [(takeTurn_other_frame hc ha hr h).1]
    exact ⟨rfl, rfl, rfl⟩

/-- R163: no turn but reset turns a voice off that is on in a reachable state. -/
theorem takeTurn_keeps_voice {u : Turn} {s t : State} (hr : ∀ p, u ≠ .reset p) (hs : s.controllerInv)
    (hvoice : 0 < s.note.toInt) (h : takeTurn u s = .next t) : 0 < t.note.toInt := by
  by_cases hc : u = .control
  · subst hc
    exact (controlTurn_keeps_range hs h).2 hvoice
  · rw [(takeTurn_keeps_control_fields hc hr h).1]
    exact hvoice

/-- Settles O22: a control turn keeps the voice on, and only reset beside it writes `note`. -/
theorem voiceNeverTurnsOffByItself : Obligations.VoiceNeverTurnsOffByItself := by
  unfold Obligations.VoiceNeverTurnsOffByItself
  intro s t u ts hsched hr hs hvoice h
  rw [step_cons hsched] at h
  exact takeTurn_keeps_voice (s := { s with schedule := ts }) hr hs hvoice h

/-- R32: a control turn appends at most one event. -/
theorem controlTurn_events {s t : State} (h : controlTurn s = .next t) :
    t.events = s.events ∨ ∃ e, t.events = s.events ++ [e] := by
  obtain ⟨n, o, f, sh, ev, p, he, hlen, -⟩ := controlTurn_frame s
  rw [he] at h
  injection h with h
  subst h
  rcases ev with _ | ⟨e, _ | ⟨e', ev⟩⟩
  · exact Or.inl (List.append_nil _)
  · exact Or.inr ⟨e, rfl⟩
  · simp at hlen

/-- Settles O23: a control turn appends at most one event; no other turn but reset writes the stream. -/
theorem eventStreamIsAppendOnly : Obligations.EventStreamIsAppendOnly := by
  unfold Obligations.EventStreamIsAppendOnly
  intro s t u ts hsched h
  rw [step_cons hsched] at h
  refine ⟨?_, fun hc hr => (takeTurn_keeps_control_fields hc hr h).2.2⟩
  rintro rfl
  exact controlTurn_events (s := { s with schedule := ts }) h

/-- The default build but for `OCTAVE_RESET`, which no condition on a build looks at. -/
def Build.withOctave (o : Fin 7) : Build :=
  { params := { defaultParams with octaveReset := o }, legal := Build.default.legal }

/-- Each note of `[12, 112]` is a legal offset above a multiple of 12 that some octave gives. -/
theorem exists_octave_and_offset {n : Int} (hlo : 12 ≤ n) (hhi : n ≤ 112) :
    ∃ (o : Fin 7) (off : Byte), legalOffset off ∧ (off.toNat : Int) + 12 * o.val = n := by
  obtain ⟨k, rfl⟩ := Int.eq_ofNat_of_zero_le (show 0 ≤ n by omega)
  have hoff : (BitVec.ofNat 8 (k - 12 * min ((k - 12) / 12) 6)).toNat = k - 12 * min ((k - 12) / 12) 6 := by
    rw [BitVec.toNat_ofNat]
    omega
  refine ⟨⟨min ((k - 12) / 12) 6, by omega⟩, BitVec.ofNat 8 (k - 12 * min ((k - 12) / 12) 6), ?_, ?_⟩
  · rw [legalOffset, hoff, Config.keyOffMin_eq, Config.keyOffMax_eq]
    omega
  · rw [hoff]
    dsimp only
    omega

/-- Settles O21: `NOTEKEY off` on a build that resets to octave `o` sounds `off + 12 * o`, which reaches every note. -/
theorem everyNoteOfTheRangeOccurs : Obligations.EveryNoteOfTheRangeOccurs := by
  unfold Obligations.EveryNoteOfTheRangeOccurs
  refine ⟨fun b w => rfl, fun n hlo hhi => ?_⟩
  obtain ⟨o, off, hoff, hn⟩ := exists_octave_and_offset hlo hhi
  have hoct : (State.resetOf (Build.withOctave o) []).octave.toInt = o.val := toInt_octaveReset _
  obtain ⟨note, he, hnote⟩ := exec_notekey off (State.resetOf (Build.withOctave o) [])
  refine ⟨Build.withOctave o, off, _, hoff, he, ?_⟩
  change note.toInt = n
  rw [hnote, hoct, hn, toInt_toRegister (by omega) (by omega)]

/-! ## Shutdown -/

/-- R27: no turn but reset clears `shut`. -/
theorem takeTurn_keeps_shut {u : Turn} {s t : State} (hr : ∀ p, u ≠ .reset p) (hs : s.shut = true)
    (h : takeTurn u s = .next t) : t.shut = true := by
  by_cases hc : u = .control
  · subst hc
    obtain ⟨n, o, f, sh, ev, p, he, -, -, hsh⟩ := controlTurn_frame s
    rw [takeTurn, he] at h
    injection h with h
    subst h
    exact hsh hs
  · rw [(takeTurn_keeps_control_fields hc hr h).2.1]
    exact hs

/-- Settles O18: the command's equation, and that only a control turn and reset write `shut`. -/
theorem shutdownSetsTheFlag : Obligations.ShutdownSetsTheFlag := by
  unfold Obligations.ShutdownSetsTheFlag
  refine ⟨fun s => rfl, fun s t h => ?_, fun s t u ts hsched hr h hs => ?_, rfl⟩
  · injection h with h
    subst h
    rfl
  · rw [step_cons hsched] at h
    exact takeTurn_keeps_shut (s := { s with schedule := ts }) hr hs h

/-- A control command looks at neither `shut` nor memory: what it writes to the other fields does not depend on them, and
it leaves memory and a set `shut` alone (R50, R157). -/
theorem exec_control_uniform {i : Instr} (hp : i.port = .control) (s : State) :
    ∃ (n o : Word) (f : Bool → Bool) (evs : List Event), f true = true ∧ ∀ b m,
      exec i { s with shut := b, mem := m } =
        .next { s with note := n, octave := o, shut := f b, events := evs, mem := m } := by
  cases i with
  | octup =>
    by_cases hmax : s.octave.toInt < Config.octaveMax
    · exact ⟨toRegister (min (s.note.toInt + 12) Config.maxNote), toRegister (s.octave.toInt + 1), id,
        s.events ++ [Event.octaveReport .up (toRegister (s.octave.toInt + 1))], rfl, fun _ _ => if_pos hmax⟩
    · exact ⟨s.note, s.octave, id, s.events ++ [Event.octaveReport .up s.octave], rfl, fun _ _ => if_neg hmax⟩
  | octdn =>
    by_cases hmin : Config.octaveMin < s.octave.toInt
    · exact ⟨toRegister (max (s.note.toInt - 12) Config.minNote), toRegister (s.octave.toInt - 1), id,
        s.events ++ [Event.octaveReport .down (toRegister (s.octave.toInt - 1))], rfl, fun _ _ => if_pos hmin⟩
    · exact ⟨s.note, s.octave, id, s.events ++ [Event.octaveReport .down s.octave], rfl, fun _ _ => if_neg hmin⟩
  | notekey off =>
    exact ⟨toRegister (off.toNat + 12 * s.octave.toInt), s.octave, id,
      s.events ++ [Event.noteReport (toRegister (off.toNat + 12 * s.octave.toInt))
        (PITCH s.build.params (toRegister (off.toNat + 12 * s.octave.toInt)).toInt)], rfl, fun _ _ => rfl⟩
  | keyother => exact ⟨s.note, s.octave, id, s.events, rfl, fun _ _ => rfl⟩
  | keyup => exact ⟨s.note, s.octave, id, s.events, rfl, fun _ _ => rfl⟩
  | shutdown => exact ⟨s.note, s.octave, fun _ => true, s.events, rfl, fun _ _ => rfl⟩
  | fill dest byteLength => cases hp
  | wrs buf start count => cases hp

/-- Settles O19: no control command looks at `shut`. -/
theorem shutdownDoesNotDisableTheControlPort : Obligations.ShutdownDoesNotDisableTheControlPort := by
  unfold Obligations.ShutdownDoesNotDisableTheControlPort
  intro s i hp
  obtain ⟨n, o, f, evs, hf, he⟩ := exec_control_uniform hp s
  exact ⟨_, he s.shut s.mem, (he true s.mem).trans (by rw [hf])⟩

end Sys2Proof.Machine
end

section
/-! PROOFS. Reset (spec/10_state.md R36, spec/70_reset_and_hazards.md R260). -/

namespace Sys2Proof.Machine

/-! ## The abandoned region -/

/-- With a command in progress, reset abandons that command's region. -/
theorem abandonedRegion_busy {struck : Option Port} {s : State} (h : s.fill.busy = true) :
    abandonedRegion struck s = some (s.fill.base.toNat, s.fill.byteLength.toNat) := if_pos h

/-- With none in progress, it abandons at most the region of the oldest waiting descriptor, cut short in its first step. -/
theorem abandonedRegion_idle {struck : Option Port} {s : State} {r : Nat × Nat} (h : s.fill.busy = false)
    (hr : abandonedRegion struck s = some r) :
    struck = some .audio ∧ ∃ d ds, s.audioPort = d :: ds ∧ regionOf s.writable d = some r := by
  unfold abandonedRegion at hr
  rw [h, if_neg (by decide)] at hr
  split at hr
  · next hstruck =>
    split at hr
    · next d ds hport => exact ⟨hstruck, d, ds, hport, hr⟩
    · cases hr
  · cases hr

/-- A region a descriptor's command may write ends inside the address space (R55). -/
theorem regionOf_inside {w : List Region} {d : Descriptor} {r : Nat × Nat} (h : regionOf w d = some r) :
    r.1 + r.2 ≤ Config.addrSpace := by
  unfold regionOf at h
  split at h
  · split at h
    · next hin =>
      injection h with h
      exact h ▸ hin.1
    · cases h
  · cases h

/-- Reset changes no byte outside the region it abandons (R260). -/
theorem memoryAfterReset_read_outside {struck : Option Port} {s : State} {a : Nat}
    (h : ∀ r, abandonedRegion struck s = some r → a < r.1 ∨ r.1 + r.2 ≤ a) :
    (memoryAfterReset struck s).read a = s.mem.read a := by
  unfold memoryAfterReset
  split
  · next r hr => exact Memory.read_store_outside (by simpa [abandonedBytes] using h r hr)
  · rfl

/-- Reset keeps the canonical form of memory where the region it abandons is inside the address space. -/
theorem memoryAfterReset_wf {struck : Option Port} {s : State} (hm : s.mem.wf)
    (h : ∀ r, abandonedRegion struck s = some r → r.1 + r.2 ≤ Config.addrSpace) : (memoryAfterReset struck s).wf := by
  unfold memoryAfterReset
  split
  · next r hr => exact Memory.store_wf hm (by simpa [abandonedBytes] using h r hr)
  · exact hm

/-- With no audio command in progress and none cut short, memory is not touched. -/
theorem memoryAfterReset_untouched {struck : Option Port} {s : State} (h : s.fill.busy = false)
    (hstruck : struck ≠ some .audio) : memoryAfterReset struck s = s.mem := by
  unfold memoryAfterReset
  split
  · next r hr => exact absurd (abandonedRegion_idle h hr).1 hstruck
  · rfl

/-- Settles O2: the turn is the reset event, whose bytes are those of the abandoned region alone. -/
theorem resetTouchesOnlyTheAbandonedRegion : Obligations.ResetTouchesOnlyTheAbandonedRegion := by
  unfold Obligations.ResetTouchesOnlyTheAbandonedRegion
  intro s struck ts hsched
  refine ⟨_, step_cons hsched, rfl, rfl, rfl, ?_, ?_, ?_, fun hbusy a ha => ?_, fun hidle a ha => ?_⟩
  · rintro rfl
    exact ⟨rfl, rfl⟩
  · rintro rfl
    exact ⟨rfl, rfl⟩
  · rintro rfl
    refine ⟨rfl, ?_⟩
    cases hb : s.fill.busy <;> simp [resetEvent, audioPortAfterReset, hb]
  · refine memoryAfterReset_read_outside fun r hr => ?_
    rw [abandonedRegion_busy (s := { s with schedule := ts }) hbusy] at hr
    injection hr with hr
    exact hr ▸ ha
  · refine memoryAfterReset_read_outside fun r hr => ?_
    obtain ⟨hstruck, d, ds, hport, hregion⟩ := abandonedRegion_idle (s := { s with schedule := ts }) hidle hr
    exact ha d ds r hstruck hport hregion

/-! ## The registers after reset -/

theorem units_zero : units 0#64 = 0 := by decide

theorem signBit_zero : signBit 0#64 = false := by decide

/-- The phase of the reset state: 0, with index 0 (R36). -/
theorem phaseInv_of_reset {t : State} (hacc : t.acc = 0#64) (hidx : t.idx = 0) : t.phaseInv := by
  have hU := unitsPerOne_pos
  have hfloor : ffloor 0#64 = some 0 := by
    rw [ffloor, if_pos (by decide), units_zero, Int.zero_ediv]
  rw [State.phaseInv, inTable, hacc, hidx, units_zero, hfloor]
  refine ⟨⟨by decide, le_rfl, ?_⟩, by decide⟩
  rw [Config.tableLen_eq]
  omega

/-- An idle record meets the invariant of the record (log entry 7). -/
theorem fillInv_of_idle {t : State} (h : t.fill = FillRecord.idle) : t.fillInv := by
  refine ⟨fun _ => h, fun hbusy => ?_⟩
  rw [h] at hbusy
  cases hbusy

/-- Settles O1: each register is a field of the reset state, whose octave reads back. -/
theorem resetGivesTheResetValues : Obligations.ResetGivesTheResetValues := by
  unfold Obligations.ResetGivesTheResetValues
  intro s struck
  have hoct : (resetEvent struck s).octave.toInt = _ := toInt_octaveReset s.build
  have hlt := s.build.params.octaveReset.isLt
  refine ⟨rfl, hoct, ?_, ?_, rfl, units_zero, signBit_zero, rfl, rfl, rfl, rfl, rfl, memoryAfterReset_untouched⟩
  · rw [hoct]
    omega
  · rw [hoct]
    omega

/-- Settles O3: memory is empty, the controller and the phase at 0, the record idle. -/
theorem invariantsHoldAtReset : Obligations.InvariantsHoldAtReset := by
  unfold Obligations.InvariantsHoldAtReset
  exact ⟨fun b w => ⟨⟨⟨List.Pairwise.nil, by simp [State.resetOf]⟩, controllerInv_of_reset rfl rfl,
    phaseInv_of_reset rfl rfl, fillInv_of_idle rfl⟩, rfl⟩, rfl⟩

end Sys2Proof.Machine
end

section
/-! PROOFS. The transient record of a `FILL` and the canonical form of memory (spec/10_state.md R28, spec/20_memory.md R50,
R55, R62): every audio turn stays in the region its command was checked for. -/

namespace Sys2Proof.Machine

/-! ## The record -/

/-- What the record of a `FILL` before step C says. -/
theorem State.fillInv.before_check {s : State} (h : s.fillInv) (hbusy : s.fill.busy = true) :
    s.fill.kind = .fill ∧ s.fill.base.toNat + s.fill.byteLength.toNat ≤ 4294967296 ∧
      regionWritable s.writable s.fill.base.toNat s.fill.byteLength.toNat = true :=
  let ⟨hkind, hrange, hwritable, _⟩ := h.2 hbusy
  ⟨hkind, hrange, hwritable⟩

/-- What the record of a `FILL` between two chunks says of the loop. -/
theorem State.fillInv.between_chunks {s : State} (h : s.fillInv) (hbusy : s.fill.busy = true)
    (hchecked : s.fill.checked = true) :
    s.fill.byteLength.toNat = 4 * s.fill.frames ∧ s.fill.cursor < s.fill.frames ∧ s.fill.cursor % 64 = 0 :=
  let ⟨_, _, _, _, hloop⟩ := h.2 hbusy
  hloop hchecked

theorem fillCheck_keeps_fillInv {s : State} (hs : s.fillInv) (hbusy : s.fill.busy = true) : (fillCheck s).fillInv := by
  obtain ⟨hkind, hrange, hwritable⟩ := hs.before_check hbusy
  rw [fillCheck_eq]
  split_ifs with hlen hshut hpos
  · exact fillInv_of_idle rfl
  · exact fillInv_of_idle rfl
  · refine ⟨fun h => absurd (hbusy.symm.trans h) (by decide), fun _ =>
      ⟨hkind, hrange, hwritable, nofun, fun _ => ⟨?_, hpos, rfl⟩⟩⟩
    simp only [Config.frameBytes_eq]
    omega
  · exact fillInv_of_idle rfl

theorem fillChunk_keeps_fillInv {s : State} (hs : s.fillInv) (hbusy : s.fill.busy = true)
    (hchecked : s.fill.checked = true) : (fillChunk s).fillInv := by
  obtain ⟨hkind, hrange, hwritable⟩ := hs.before_check hbusy
  obtain ⟨hlen, hcursor, hmod⟩ := hs.between_chunks hbusy hchecked
  rw [fillChunk_eq, wrsBody_frame]
  split_ifs with hmore
  · refine ⟨fun h => absurd (hbusy.symm.trans h) (by decide), fun _ =>
      ⟨hkind, hrange, hwritable, nofun, fun _ => ⟨hlen, hmore, ?_⟩⟩⟩
    simp only [Config.chunk_eq]
    omega
  · exact fillInv_of_idle rfl

theorem audioContinue_keeps_fillInv {s : State} (hs : s.fillInv) (hbusy : s.fill.busy = true) :
    (audioContinue s).fillInv := by
  cases hc : s.fill.checked with
  | false => exact audioContinue_check hc ▸ fillCheck_keeps_fillInv hs hbusy
  | true => exact audioContinue_chunk hc ▸ fillChunk_keeps_fillInv hs hbusy hc

theorem audioTurn_keeps_fillInv {s t : State} (hs : s.fillInv) (h : audioTurn s = .next t) : t.fillInv := by
  rcases audioTurn_next_cases h with ⟨hbusy, rfl⟩ | ⟨-, ds, f, rfl, -⟩ | ⟨-, ds, dest, len, hrange, hwritable, rfl⟩ |
    ⟨-, ds, buf, start, count, -, rfl⟩
  · exact audioContinue_keeps_fillInv hs hbusy
  · exact hs
  · exact ⟨nofun, fun _ => ⟨rfl, hrange, hwritable, fun _ => ⟨rfl, rfl⟩, nofun⟩⟩
  · rw [wrsBody_frame]
    exact hs

theorem controlTurn_keeps_fillInv {s t : State} (hs : s.fillInv) (h : controlTurn s = .next t) : t.fillInv := by
  rw [controlTurn_next_frame h]
  exact hs

/-- Settles O49: an audio turn moves the record on as the chunk loop does; no other turn but reset writes it. -/
theorem fillRecordInvariantIsKept : Obligations.FillRecordInvariantIsKept := by
  unfold Obligations.FillRecordInvariantIsKept
  intro s t hs h
  exact step_keeps (P := State.fillInv) (fun ts h => h)
    (takeTurn_keeps (fun s t => controlTurn_keeps_fillInv) (fun s t => audioTurn_keeps_fillInv)
      (fun p s _ => fillInv_of_idle rfl) fun s m cp ap hs => hs) hs h

/-! ## The canonical form of memory -/

theorem audioContinue_keeps_wf {s : State} (hm : s.mem.wf) (hs : s.fillInv) (hbusy : s.fill.busy = true) :
    (audioContinue s).mem.wf := by
  cases hc : s.fill.checked with
  | false =>
    rw [audioContinue_check hc, fillCheck_eq]
    split_ifs <;> exact hm
  | true =>
    obtain ⟨-, hrange, -⟩ := hs.before_check hbusy
    obtain ⟨hlen, hcursor, -⟩ := hs.between_chunks hbusy hc
    rw [audioContinue_chunk hc, fillChunk_eq]
    refine wrsBody_wf hm ?_
    rw [Config.addrSpace_eq]
    omega

theorem audioTurn_keeps_wf {s t : State} (hm : s.mem.wf) (hs : s.fillInv) (h : audioTurn s = .next t) : t.mem.wf := by
  rcases audioTurn_next_cases h with ⟨hbusy, rfl⟩ | ⟨-, ds, f, rfl, -⟩ | ⟨-, ds, dest, len, hrange, -, rfl⟩ |
    ⟨-, ds, buf, start, count, hrange, rfl⟩
  · exact audioContinue_keeps_wf hm hs hbusy
  · exact hm
  · exact zeroFill_wf hm hrange
  · refine wrsBody_wf (s := { s with audioPort := ds }) hm ?_
    rw [wrsInRange, Config.frameBytes_eq] at hrange
    omega

theorem resetEvent_keeps_wf {s : State} (hm : s.mem.wf) (hs : s.fillInv) (p : Option Port) :
    (resetEvent p s).mem.wf := by
  refine memoryAfterReset_wf hm fun r hr => ?_
  cases hbusy : s.fill.busy with
  | true =>
    rw [abandonedRegion_busy hbusy] at hr
    injection hr with hr
    exact hr ▸ (hs.before_check hbusy).2.1
  | false =>
    obtain ⟨-, d, ds, -, hregion⟩ := abandonedRegion_idle hbusy hr
    exact regionOf_inside hregion

theorem takeTurn_keeps_wf {u : Turn} {s t : State} (hm : s.mem.wf) (hs : s.fillInv) (h : takeTurn u s = .next t) :
    t.mem.wf := by
  by_cases hc : u = .control
  · subst hc
    rw [controlTurn_next_frame h]
    exact hm
  by_cases ha : u = .audio
  · subst ha
    exact audioTurn_keeps_wf hm hs h
  by_cases hr : ∃ p, u = .reset p
  · obtain ⟨p, rfl⟩ := hr
    injection h with h
    exact h ▸ resetEvent_keeps_wf hm hs p
  · exact (takeTurn_other_frame hc ha (fun p hp => hr ⟨p, hp⟩) h).2 hm

/-- Settles O51: every store of a turn is inside the address space, by the range checks and the record's invariant. -/
theorem memoryStaysCanonical : Obligations.MemoryStaysCanonical := by
  unfold Obligations.MemoryStaysCanonical
  intro s t hm hs h
  rcases step_next_cases h with ⟨-, rfl⟩ | ⟨u, ts, -, hu⟩
  · exact hm
  · exact takeTurn_keeps_wf (s := { s with schedule := ts }) hm hs hu

end Sys2Proof.Machine
end

section
/-! PROOFS. The two ports' turns (spec/20_memory.md R62, R66), the fault bits (spec/60_exceptions.md R230 to R236, R244) and
the configuration (spec/10_state.md R31, R38). -/

namespace Sys2Proof.Machine

/-! ## A step runs the decoded command -/

theorem controlTurn_empty {s : State} (hport : s.controlPort = []) : controlTurn s = .next s := by
  rw [controlTurn, hport]

theorem controlTurn_decoded {s : State} {w : Half} {ws : List Half} {i : Instr} (hport : s.controlPort = w :: ws)
    (hok : decodeK w = .ok i) : controlTurn s = exec i { s with controlPort := ws } := by
  rw [controlTurn, hport]
  simp only [hok]

theorem audioTurn_empty {s : State} (hidle : s.fill.busy = false) (hport : s.audioPort = []) :
    audioTurn s = .next s := by
  rw [audioTurn, hidle, if_neg (by decide), audioAccept, hport]

theorem audioTurn_decoded {s : State} {d : Descriptor} {ds : List Descriptor} {i : Instr} (hidle : s.fill.busy = false)
    (hport : s.audioPort = d :: ds) (hok : decodeA d = .ok i) : audioTurn s = exec i { s with audioPort := ds } := by
  rw [audioTurn, hidle, if_neg (by decide), audioAccept, hport]
  simp only [hok]

/-- Settles O10: the step is the control port's turn on a word that decodes. -/
theorem controlTurnRunsTheDecodedCommand : Obligations.ControlTurnRunsTheDecodedCommand := by
  unfold Obligations.ControlTurnRunsTheDecodedCommand
  intro s ts w ws i hsched hport hok
  rw [step_control hsched]
  exact controlTurn_decoded (s := { s with schedule := ts }) hport hok

/-- Settles O11: the step is the idle audio port's turn on a descriptor that decodes. -/
theorem audioTurnRunsTheDecodedCommand : Obligations.AudioTurnRunsTheDecodedCommand := by
  unfold Obligations.AudioTurnRunsTheDecodedCommand
  intro s ts d ds i hsched hidle hport hok
  rw [step_audio hsched]
  exact audioTurn_decoded (s := { s with schedule := ts }) hidle hport hok

/-- Settles O13: each of the three steps has nothing to accept. -/
theorem idleBlockHoldsItsState : Obligations.IdleBlockHoldsItsState := by
  unfold Obligations.IdleBlockHoldsItsState
  refine fun s => ⟨step_nil, fun ts hsched hport => ?_, fun ts hsched hidle hport => ?_⟩
  · rw [step_control hsched]
    exact controlTurn_empty (s := { s with schedule := ts }) hport
  · rw [step_audio hsched]
    exact audioTurn_empty (s := { s with schedule := ts }) hidle hport

/-! ## The fault bits -/

/-- A step of the command in progress raises at most `LenFault`, and that only where the length is no multiple of 4. -/
theorem audioContinue_fault (s : State) :
    (audioContinue s).fault = s.fault ∨
      (s.fill.byteLength.toNat % 4 ≠ 0 ∧ (audioContinue s).fault = setFaultBit .lenFault s.fault) := by
  cases hc : s.fill.checked with
  | false =>
    rw [audioContinue_check hc, fillCheck_eq]
    split_ifs with hlen
    · exact Or.inr ⟨hlen, rfl⟩
    all_goals exact Or.inl rfl
  | true =>
    rw [audioContinue_chunk hc, fillChunk_eq, wrsBody_frame]
    exact Or.inl rfl

theorem audioTurn_fault_sticky {s t : State} (h : audioTurn s = .next t) : t.fault &&& s.fault = s.fault := by
  rcases audioTurn_next_cases h with ⟨-, rfl⟩ | ⟨-, ds, f, rfl, hf⟩ | ⟨-, ds, dest, len, -, -, rfl⟩ |
    ⟨-, ds, buf, start, count, -, rfl⟩
  · rcases audioContinue_fault s with he | ⟨-, he⟩ <;> rw [he]
    · exact BitVec.and_self
    · exact setFaultBit_sticky _ _
  · exact hf
  · exact BitVec.and_self
  · rw [wrsBody_frame]
    exact BitVec.and_self

theorem controlTurn_fault_sticky {s t : State} (h : controlTurn s = .next t) : t.fault &&& s.fault = s.fault := by
  obtain ⟨n, o, f, sh, ev, p, he, -, hf, -⟩ := controlTurn_frame s
  rw [he] at h
  injection h with h
  exact h ▸ hf

/-- R26: no turn but reset clears a fault bit. -/
theorem takeTurn_fault_sticky {u : Turn} {s t : State} (hr : ∀ p, u ≠ .reset p) (h : takeTurn u s = .next t) :
    t.fault &&& s.fault = s.fault := by
  by_cases hc : u = .control
  · subst hc
    exact controlTurn_fault_sticky h
  by_cases ha : u = .audio
  · subst ha
    exact audioTurn_fault_sticky h
  · rw [(takeTurn_other_frame hc ha hr h).1]
    exact BitVec.and_self

/-- Settles O57: the turns of the two ports only set bits, and no other turn but reset writes `fault`. -/
theorem faultBitsAreSticky : Obligations.FaultBitsAreSticky := by
  unfold Obligations.FaultBitsAreSticky
  intro s t u ts hsched hr h
  rw [step_cons hsched] at h
  exact takeTurn_fault_sticky (s := { s with schedule := ts }) hr h

/-- A `FILL` in range raises nothing in step Z (R210). -/
theorem exec_fill_keeps_fault {s t : State} {dest byteLength : Word} (hrange : fillInRange dest byteLength)
    (h : exec (.fill dest byteLength) s = .next t) : t.fault = s.fault := by
  rw [exec_fill, if_pos hrange] at h
  split at h
  · injection h with h
    rw [← h]
  · cases h

/-- A command of the control port raises nothing (R86). -/
theorem exec_control_keeps_fault {s t : State} {i : Instr} (hp : i.port = .control) (h : exec i s = .next t) :
    t.fault = s.fault := by
  obtain ⟨n, o, sh, ev, he, -⟩ := exec_control hp s
  rw [he] at h
  injection h with h
  rw [← h]

/-- Settles O58: the range checks pass, the length check passes, and nothing else raises. -/
theorem legalOperandsRaiseNothing : Obligations.LegalOperandsRaiseNothing := by
  unfold Obligations.LegalOperandsRaiseNothing
  refine ⟨fun s t i hlegal h => ?_, fun s hlen => ?_⟩
  · cases i with
    | fill dest byteLength =>
      exact exec_fill_keeps_fault (of_decide_eq_true (Bool.and_eq_true_iff.1 hlegal).1) h
    | wrs buf start count => exact exec_wrs_keeps_fault (of_decide_eq_true hlegal) h
    | _ => exact exec_control_keeps_fault rfl h
  · exact (audioContinue_fault s).resolve_right fun hraise => hraise.1 hlen

/-! ## The configuration -/

/-- Settles O60: no turn's frame has the build or the launch memory among what it writes, and reset keeps both. -/
theorem configurationIsFixed : Obligations.ConfigurationIsFixed := by
  unfold Obligations.ConfigurationIsFixed
  intro s t h
  refine step_keeps (P := fun r => r.build = s.build ∧ r.writable = s.writable) (fun ts h => h)
    (takeTurn_keeps (fun r r' hr h => ?_) (fun r r' hr h => ?_) (fun p r hr => hr) fun r m cp ap hr => hr) ⟨rfl, rfl⟩ h
  · rw [controlTurn_next_frame h]
    exact hr
  · rw [audioTurn_frame h]
    exact hr

/-! ## The turns of the host and of issuing, and the borrowed regions (R59) -/

/-- Settles O56: each turn's own equation. -/
theorem hostAndIssueTurnsWriteNoRegister : Obligations.HostAndIssueTurnsWriteNoRegister := by
  unfold Obligations.HostAndIssueTurnsWriteNoRegister
  refine fun s t ts h => ⟨fun a n hsched => ?_, fun a bs hsched => ?_, fun w hsched => ?_, fun d hsched => ?_⟩
  all_goals rw [step_cons hsched] at h
  · exact (hostRead_next h).1
  · obtain ⟨rfl, -, -⟩ := hostWrite_next h
    rfl
  · injection h with h
    exact h.symm
  · injection h with h
    exact h.symm

/-- Settles O53: the borrowed regions as the two queues' commands name them; a `FILL` just accepted has its region in its
record. -/
theorem bufferIsBorrowedFromIssueToCompletion : Obligations.BufferIsBorrowedFromIssueToCompletion := by
  unfold Obligations.BufferIsBorrowedFromIssueToCompletion
  refine ⟨fun s r => ?_, fun s ts d r hsched hr => ?_, fun s t ts dest len d ds hsched hidle hport hok h hrange => ?_⟩
  · rw [mem_borrowedRegions]
    simp only [namedRegion_iff, and_or_left, exists_or]
  · exact ⟨_, step_cons hsched, mem_borrowedRegions.2 (Or.inr ⟨d, by simp [issueAudio], hr⟩)⟩
  · rw [audioTurnRunsTheDecodedCommand s ts d ds _ hsched hidle hport hok, exec_fill, if_pos hrange] at h
    split at h
    · injection h with h
      exact mem_borrowedRegions.2 (Or.inl (h ▸ ⟨rfl, rfl⟩))
    · cases h

/-- Settles O54: an access is refused exactly when one of its addresses is borrowed; a write is one store. -/
theorem hostKeepsOffTheBorrowedBuffer : Obligations.HostKeepsOffTheBorrowedBuffer := by
  unfold Obligations.HostKeepsOffTheBorrowedBuffer
  refine fun s addr bytes => ⟨fun hmeet => ?_, fun hfree hinside => ?_⟩
  · have hborrowed := borrowed_iff.2 hmeet
    exact ⟨if_pos hborrowed, if_pos hborrowed⟩
  · have hborrowed : ¬ borrowed s addr bytes.length = true := by
      rw [borrowed_iff]
      rintro ⟨a, hlo, hhi, r, hr, hin⟩
      have := hfree a hlo hhi r hr
      omega
    refine ⟨?_, { s with mem := s.mem.store addr bytes }, ?_, rfl, fun a => Memory.read_store s.mem addr a bytes⟩
    · rw [takeTurn, hostRead, if_neg hborrowed, if_pos hinside]
    · rw [takeTurn, hostWrite, if_neg hborrowed, if_pos hinside]
      rfl

end Sys2Proof.Machine
end

section
/-! PROOFS. The steps of a `FILL` after step Z, and that chunking is transparent (spec/44_audio_callback.md R210 to R222):
the chunks are one run of the sample writer cut at every 64th frame. -/

namespace Sys2Proof.Machine

/-! ## The checks before any effect -/

/-- `FILL` out of range sets `fault.ADDR` and does nothing else (R210). -/
theorem exec_fill_outOfRange {s : State} {dest byteLength : Word} (h : ¬ fillInRange dest byteLength) :
    exec (.fill dest byteLength) s = .next { s with fault := s.fault ||| 0b010#3 } := by
  rw [exec_fill, if_neg h]

/-- Settles O42: the range check of step Z fails. -/
theorem fillAddressFault : Obligations.FillAddressFault := by
  unfold Obligations.FillAddressFault
  exact fun s dest len h => exec_fill_outOfRange (not_le.2 h)

/-- Settles O48: the range check passes and the test of the launch memory, which comes next, does not. -/
theorem unwritableRegionIsStuck : Obligations.UnwritableRegionIsStuck := by
  unfold Obligations.UnwritableRegionIsStuck
  refine ⟨fun s dest len hrange hw => ?_, fun s buf start count hrange hw => ?_⟩
  · rw [exec_fill, if_pos hrange, if_neg (by simp [hw])]
  · rw [exec_wrs, if_pos hrange, if_neg (by simp [hw])]

/-! ## Step C -/

/-- A step of the audio port with a command in progress. -/
theorem step_busy {s : State} {ts : List Turn} (hsched : s.schedule = .audio :: ts) (hbusy : s.fill.busy = true) :
    step s = .next (audioContinue { s with schedule := ts }) := by
  rw [step_audio hsched]
  exact audioTurn_busy hbusy

/-- The length check comes first (R212). -/
theorem fillCheck_badLength {s : State} (h : s.fill.byteLength.toNat % 4 ≠ 0) :
    fillCheck s = { s with fault := s.fault ||| 0b001#3, fill := FillRecord.idle } := by
  rw [fillCheck_eq, if_pos h]

/-- Then the read of `shut` (R213). -/
theorem fillCheck_shut {s : State} (hlen : s.fill.byteLength.toNat % 4 = 0) (hshut : s.shut = true) :
    fillCheck s = { s with fill := FillRecord.idle } := by
  rw [fillCheck_eq, if_neg (not_not.2 hlen), if_pos hshut]

/-- Then the first chunk (R216). -/
theorem fillCheck_frames {s : State} (hlen : s.fill.byteLength.toNat % 4 = 0) (hshut : s.shut = false)
    (hframes : 0 < s.fill.byteLength.toNat / 4) :
    fillCheck s =
      { s with fill := { s.fill with checked := true, frames := s.fill.byteLength.toNat / 4, cursor := 0 } } := by
  rw [fillCheck_eq, if_neg (not_not.2 hlen), hshut, if_neg (by decide), if_pos hframes]

/-- A `FILL` with no frame completes in step C (R216). -/
theorem fillCheck_noFrame {s : State} (hlen : s.fill.byteLength.toNat = 0) (hshut : s.shut = false) :
    fillCheck s = { s with fill := FillRecord.idle } := by
  rw [fillCheck_eq, hlen, if_neg (by decide), hshut, if_neg (by decide), if_neg (by decide)]

/-- Settles O43: the four outcomes of step C. -/
theorem fillChecksLengthThenShutdown : Obligations.FillChecksLengthThenShutdown := by
  unfold Obligations.FillChecksLengthThenShutdown
  intro s ts hsched hbusy hunchecked
  rw [step_busy hsched hbusy, audioContinue_check (by exact hunchecked)]
  refine ⟨fun hlen => ?_, fun hlen hshut => ?_, fun hlen hshut hne => ?_, fun hzero hshut => ?_⟩
  · rw [fillCheck_badLength (by exact hlen)]
  · rw [fillCheck_shut (by exact hlen) (by exact hshut)]
  · have hpos : s.fill.byteLength.toNat ≠ 0 := fun h => hne (BitVec.eq_of_toNat_eq h)
    have hframes : 0 < s.fill.byteLength.toNat / 4 := by omega
    rw [fillCheck_frames (by exact hlen) (by exact hshut) (by exact hframes)]
  · have hlen : s.fill.byteLength.toNat = 0 := by rw [hzero]; rfl
    rw [fillCheck_noFrame (by exact hlen) (by exact hshut)]

/-- Settles O59: the first `FILL` fails the range check; the second passes it, zeroes, and fails the length check. -/
theorem faultChecksAreOrdered : Obligations.FaultChecksAreOrdered := by
  unfold Obligations.FaultChecksAreOrdered
  refine fun s => ⟨exec_fill_outOfRange (by decide), fun hwritable hidle => ?_⟩
  have hlen : (6#32).toNat % 4 ≠ 0 := by decide
  refine ⟨_, exec_fill_completes (by decide) hwritable, zeroFill_read s.mem 0x1000 6, ?_⟩
  rw [audioContinue_check rfl, fillCheck_badLength (by exact hlen), ← hidle]

/-! ## The turns left (R222) -/

theorem turnsLeft_of_unchecked {r : FillRecord} (hbusy : r.busy = true) (h : r.checked = false) :
    turnsLeft r = 1 + (r.byteLength.toNat / 4 + 63) / 64 := by
  simp [turnsLeft, hbusy, h]

theorem turnsLeft_of_checked {r : FillRecord} (hbusy : r.busy = true) (h : r.checked = true) :
    turnsLeft r = (r.frames - r.cursor + 63) / 64 := by
  simp [turnsLeft, hbusy, h]

theorem turnsLeft_idle : turnsLeft FillRecord.idle = 0 := rfl

/-- Step C leaves the turns of its chunks, or none. -/
theorem turnsLeft_fillCheck {s : State} (hbusy : s.fill.busy = true) (hunchecked : s.fill.checked = false) :
    turnsLeft (fillCheck s).fill < turnsLeft s.fill := by
  rw [turnsLeft_of_unchecked hbusy hunchecked, fillCheck_eq]
  split_ifs
  · simp [turnsLeft_idle]
  · simp [turnsLeft_idle]
  · rw [turnsLeft_of_checked (by exact hbusy) (by rfl)]
    dsimp only
    omega
  · simp [turnsLeft_idle]

/-- A chunk leaves one turn less. -/
theorem turnsLeft_fillChunk {s : State} (hbusy : s.fill.busy = true) (hchecked : s.fill.checked = true)
    (hcursor : s.fill.cursor < s.fill.frames) : turnsLeft (fillChunk s).fill < turnsLeft s.fill := by
  rw [turnsLeft_of_checked hbusy hchecked, fillChunk_eq]
  split_ifs
  · rw [turnsLeft_of_checked (by exact hbusy) (by rfl)]
    dsimp only
    omega
  · rw [turnsLeft_idle]
    omega

/-- Settles O47: step C and each chunk leave fewer turns, and the record is the audio agent's own. -/
theorem fillAlwaysCompletes : Obligations.FillAlwaysCompletes := by
  unfold Obligations.FillAlwaysCompletes
  refine ⟨fun s ts hs hbusy hsched => ⟨_, step_busy hsched hbusy, ?_⟩, fun s t ts hsched h => ?_,
    fun s t dest len h hbusy hidle => ?_, fun r hzero hbusy => ?_⟩
  · cases hc : s.fill.checked with
    | false =>
      rw [audioContinue_check (by exact hc)]
      exact turnsLeft_fillCheck (s := { s with schedule := ts }) hbusy hc
    | true =>
      rw [audioContinue_chunk (by exact hc)]
      exact turnsLeft_fillChunk (s := { s with schedule := ts }) hbusy hc (hs.between_chunks hbusy hc).2.1
  · exact (step_control_keeps_audio_fields hsched h).2.2.1
  · rw [exec_fill] at h
    split_ifs at h <;> injection h with h <;> subst h
    · exact (turnsLeft_of_unchecked rfl rfl).le
    · exact absurd (hbusy.symm.trans hidle) (by decide)
  · cases hc : r.checked with
    | false =>
      rw [turnsLeft_of_unchecked hbusy hc] at hzero
      omega
    | true =>
      rw [turnsLeft_of_checked hbusy hc] at hzero
      exact ⟨rfl, by omega⟩

/-! ## A chunk is the body of a `WRS` (R214, R215) -/

/-- Settles O44: the chunk's frames lie in the region step Z was checked for, so its `WRS` passes both tests. -/
theorem fillChunkIsAWriteSamples : Obligations.FillChunkIsAWriteSamples := by
  unfold Obligations.FillChunkIsAWriteSamples
  intro s ts hsched hs hbusy hchecked
  obtain ⟨-, hrange, hwritable⟩ := hs.before_check hbusy
  obtain ⟨hlen, hcursor, -⟩ := hs.between_chunks hbusy hchecked
  have hlt := s.fill.byteLength.isLt
  have hstart : (BitVec.ofNat 32 s.fill.cursor).toNat = s.fill.cursor := by
    rw [BitVec.toNat_ofNat]
    omega
  have hcount : (BitVec.ofNat 32 (min 64 (s.fill.frames - s.fill.cursor))).toNat =
      min 64 (s.fill.frames - s.fill.cursor) := by
    rw [BitVec.toNat_ofNat]
    omega
  have hexec := exec_wrs_completes (s := { s with schedule := ts }) (buf := s.fill.base)
    (start := BitVec.ofNat 32 s.fill.cursor) (count := BitVec.ofNat 32 (min 64 (s.fill.frames - s.fill.cursor)))
    (by rw [wrsInRange, hstart, hcount, Config.frameBytes_eq, Config.addrSpace_eq]; omega)
    (regionWritable_part hwritable (by omega) (by omega))
  refine ⟨_, hexec, ?_⟩
  rw [step_busy hsched hbusy, audioContinue_chunk (by exact hchecked), fillChunk_eq, hstart, hcount, ← hchecked]

/-! ## Splitting a `WRS` (R191) -/

/-- Settles O40: the body splits, and both parts lie in the whole's region, so both pass the whole's tests. -/
theorem splitEqualsWhole : Obligations.SplitEqualsWhole := by
  unfold Obligations.SplitEqualsWhole
  intro s t buf start c1 c2 hsum hrange h
  have hcount : (c1 + c2).toNat = c1.toNat + c2.toNat := by
    rw [BitVec.toNat_add]
    omega
  have hstart : (start + c1).toNat = start.toNat + c1.toNat := by
    rw [BitVec.toNat_add]
    omega
  rw [exec_wrs, if_pos hrange] at h
  rw [wrsInRange, hcount, Config.frameBytes_eq] at hrange
  split at h
  · next hwritable =>
    injection h with h
    rw [hcount] at hwritable h
    refine ⟨_, exec_wrs_completes (by rw [wrsInRange, Config.frameBytes_eq]; omega)
      (regionWritable_part hwritable le_rfl (by omega)), ?_⟩
    rw [exec_wrs_completes (by rw [wrsInRange, Config.frameBytes_eq, hstart]; omega) ?_, hstart, ← h, wrsBody_add,
      Nat.mul_add, Nat.add_assoc]
    rw [wrsBody_frame, hstart]
    exact regionWritable_part hwritable (by omega) (by omega)
  · cases h

/-! ## A whole `FILL` (R217, R218) -/

/-- The loop looks at neither the record nor the schedule. -/
theorem frameLoop_with_fill_schedule (inc : F64) (k a : Nat) (s : State) (r : FillRecord) (ts : List Turn) :
    frameLoop inc k a { s with fill := r, schedule := ts } =
      { frameLoop inc k a s with fill := r, schedule := ts } := by
  induction k generalizing a s with
  | zero => rfl
  | succ k ih => exact ih (a + 4) (frameStep inc a s)

/-- Nor does the body of `WRS`. -/
theorem wrsBody_with_fill_schedule (a k : Nat) (s : State) (r : FillRecord) (ts : List Turn) :
    wrsBody a k { s with fill := r, schedule := ts } = { wrsBody a k s with fill := r, schedule := ts } := by
  by_cases hoff : s.note.toInt ≤ 0
  · rw [wrsBody_off hoff, wrsBody_off (by exact hoff)]
  · rw [wrsBody_on (not_le.1 hoff), wrsBody_on (by exact not_le.1 hoff)]
    exact frameLoop_with_fill_schedule _ _ _ _ _ _

/-- One step of a run, on any machine. -/
theorem run_succ (M : Host.Core) {s t : M.State} (n : Nat) (h : M.step s = .next t) : M.run (n + 1) s = M.run n t := by
  rw [Host.Core.run, h]

/-- One step of a run. -/
theorem run_of_step (n : Nat) {s t : State} (h : step s = .next t) :
    Host.Core.run Sys2Proof.core (n + 1) s = Host.Core.run Sys2Proof.core n t := run_succ Sys2Proof.core n h

/-- The step of a chunk, in the state `z` but for the record of the `FILL` in progress and the schedule. -/
theorem step_chunk (z : State) {r : FillRecord} (rest : List Turn) (hbusy : r.busy = true) (hchecked : r.checked = true) :
    step { z with fill := r, schedule := .audio :: rest } =
      .next { wrsBody (r.base.toNat + 4 * r.cursor) (min 64 (r.frames - r.cursor)) z with
        fill :=
          if r.cursor + min 64 (r.frames - r.cursor) < r.frames then
            { r with checked := true, cursor := r.cursor + min 64 (r.frames - r.cursor) }
          else FillRecord.idle
        schedule := rest } := by
  rw [step_busy rfl (by exact hbusy), audioContinue_chunk (by exact hchecked), fillChunk_eq]
  dsimp only
  rw [wrsBody_with_fill_schedule]

/-- The chunks still to come are one run of the sample writer from the cursor on (R217). -/
theorem run_chunks (n : Nat) (z : State) {r : FillRecord} (ts : List Turn) (hbusy : r.busy = true)
    (hchecked : r.checked = true) (hcursor : r.cursor < r.frames) (hn : n = (r.frames - r.cursor + 63) / 64) :
    Host.Core.run Sys2Proof.core n { z with fill := r, schedule := List.replicate n .audio ++ ts } =
      .next { wrsBody (r.base.toNat + 4 * r.cursor) (r.frames - r.cursor) z with
        fill := FillRecord.idle
        schedule := ts } := by
  induction n generalizing z r with
  | zero => omega
  | succ n ih =>
    refine (run_of_step n (step_chunk z (List.replicate n .audio ++ ts) hbusy hchecked)).trans ?_
    by_cases hmore : r.cursor + min 64 (r.frames - r.cursor) < r.frames
    · have hmin : min 64 (r.frames - r.cursor) = 64 := by omega
      have hsplit : r.frames - r.cursor = 64 + (r.frames - (r.cursor + 64)) := by omega
      rw [if_pos hmore, hmin]
      refine (ih _ (r := { r with checked := true, cursor := r.cursor + 64 }) hbusy rfl
        (by dsimp only; omega) (by dsimp only; omega)).trans ?_
      rw [hsplit, wrsBody_add, Nat.mul_add, Nat.add_assoc]
    · obtain rfl : n = 0 := by omega
      rw [if_neg hmore, show min 64 (r.frames - r.cursor) = r.frames - r.cursor by omega]
      rfl

/-- Step Z as the first step of a run: the descriptor is gone, the buffer zeroed, the record started. -/
theorem step_fill {s : State} {dest len : Word} {d : Descriptor} {ds : List Descriptor} {rest : List Turn}
    (hsched : s.schedule = .audio :: rest) (hidle : s.fill = FillRecord.idle) (hport : s.audioPort = d :: ds)
    (hok : decodeA d = .ok (.fill dest len)) (hrange : fillInRange dest len)
    (hwritable : regionWritable s.writable dest.toNat len.toNat = true) :
    step s = .next { s with
      audioPort := ds
      mem := zeroFill s.mem dest len
      fill := fillStarted dest len
      schedule := rest } := by
  rw [audioTurnRunsTheDecodedCommand s rest d ds _ hsched (by rw [hidle]; rfl) hport hok]
  exact exec_fill_completes (s := { s with schedule := rest, audioPort := ds }) hrange hwritable

/-- With `shut` set the run is over after step C (R213). -/
theorem run_fill_shut {s : State} {dest len : Word} {d : Descriptor} {ds : List Descriptor} {ts : List Turn}
    (hsched : s.schedule = List.replicate 2 .audio ++ ts) (hidle : s.fill = FillRecord.idle)
    (hport : s.audioPort = d :: ds) (hok : decodeA d = .ok (.fill dest len)) (hrange : fillInRange dest len)
    (hwritable : regionWritable s.writable dest.toNat len.toNat = true) (hlen : len.toNat % 4 = 0)
    (hshut : s.shut = true) :
    Host.Core.run Sys2Proof.core 2 s =
      .next { s with audioPort := ds, schedule := ts, mem := zeroFill s.mem dest len } := by
  refine (run_of_step 1 (step_fill hsched hidle hport hok hrange hwritable)).trans ?_
  refine (run_of_step 0 (step_busy (ts := ts) rfl rfl)).trans ?_
  rw [audioContinue_check rfl, fillCheck_shut (by exact hlen) (by exact hshut), ← hidle]
  rfl

/-- With `shut` clear the run is the zero-fill and one run of the sample writer over the whole buffer (R217). -/
theorem run_fill {s : State} {dest len : Word} {d : Descriptor} {ds : List Descriptor} {ts : List Turn}
    (hsched : s.schedule = List.replicate (2 + (len.toNat / 4 + 63) / 64) .audio ++ ts)
    (hidle : s.fill = FillRecord.idle) (hport : s.audioPort = d :: ds) (hok : decodeA d = .ok (.fill dest len))
    (hrange : fillInRange dest len) (hwritable : regionWritable s.writable dest.toNat len.toNat = true)
    (hlen : len.toNat % 4 = 0) (hshut : s.shut = false) :
    Host.Core.run Sys2Proof.core (2 + (len.toNat / 4 + 63) / 64) s =
      .next (wrsBody dest.toNat (len.toNat / 4)
        { s with audioPort := ds, schedule := ts, mem := zeroFill s.mem dest len }) := by
  rw [Nat.add_comm 2] at hsched ⊢
  refine (run_of_step _ (step_fill hsched hidle hport hok hrange hwritable)).trans ?_
  refine (run_of_step _ (step_busy rfl rfl)).trans ?_
  rw [audioContinue_check rfl]
  by_cases hframes : 0 < len.toNat / 4
  · rw [fillCheck_frames (by exact hlen) (by exact hshut) (by exact hframes)]
    refine (run_chunks _ { s with audioPort := ds, schedule := ts, mem := zeroFill s.mem dest len }
      (r := { fillStarted dest len with checked := true, frames := len.toNat / 4, cursor := 0 }) ts
      rfl rfl hframes rfl).trans ?_
    rw [← hidle]
    exact congrArg _ (wrsBody_with_fill_schedule _ _ _ s.fill ts).symm
  · have hzero : len.toNat = 0 := by omega
    rw [fillCheck_noFrame (by exact hzero) (by exact hshut), ← hidle, hzero, wrsBody_zero]
    rfl

/-- Settles O45: the run's state is the body of the one `WRS`, which passes its tests where the `FILL` did. -/
theorem fillEqualsZeroFillThenWriteSamples : Obligations.FillEqualsZeroFillThenWriteSamples := by
  unfold Obligations.FillEqualsZeroFillThenWriteSamples
  intro s dest len d ds ts hidle hport hok hsched hshut hlen hrange hwritable
  have hlt := len.isLt
  have hcount : (BitVec.ofNat 32 (len.toNat / 4)).toNat = len.toNat / 4 := by
    rw [BitVec.toNat_ofNat]
    omega
  have hstart : (0#32).toNat = 0 := rfl
  refine ⟨_, run_fill hsched hidle hport hok hrange hwritable hlen hshut, ?_⟩
  have hbytes : 4 * (len.toNat / 4) = len.toNat := by omega
  have hrange' : wrsInRange dest 0 (BitVec.ofNat 32 (len.toNat / 4)) := by
    rw [wrsInRange, hcount, Config.frameBytes_eq, BitVec.ofNat_eq_ofNat, hstart, Nat.zero_add, hbytes]
    exact hrange
  rw [exec_wrs, if_pos hrange', hcount, hbytes]
  exact if_pos hwritable

/-- Settles O46: with `shut` set no chunk runs; with the voice off the one run of the sample writer is the identity. -/
theorem fillIsSilentWhenShutOrVoiceOff : Obligations.FillIsSilentWhenShutOrVoiceOff := by
  unfold Obligations.FillIsSilentWhenShutOrVoiceOff
  rintro s dest len d ds ts k hidle hport hok hsched hlen hrange hwritable (⟨hshut, rfl⟩ | ⟨hshut, hoff, rfl⟩)
  · exact run_fill_shut hsched hidle hport hok hrange hwritable hlen hshut
  · rw [run_fill hsched hidle hport hok hrange hwritable hlen hshut, wrsBody_off (by exact hoff)]

end Sys2Proof.Machine
end

section
/-! PROOFS. Memory influences nothing (spec/20_memory.md R50, spec/44_audio_callback.md R221 (g)): run twice, on two memories,
a turn answers states that differ in memory alone, and each byte is then untouched in both or the same in both. -/

namespace Sys2Proof.Machine

/-- The next states `t` and `t'` of two states that differ in memory alone, which was `m` and `m'`: they differ in memory
alone, and no byte of it is written from what memory held. -/
def SameButMemory (m m' : Memory) (t t' : State) : Prop :=
  { t' with mem := t.mem } = t ∧
    ∀ a, (t.mem.read a = m.read a ∧ t'.mem.read a = m'.read a) ∨ t.mem.read a = t'.mem.read a

/-- Memory is left as it was. -/
theorem SameButMemory.of_untouched {m m' : Memory} {t t' : State} (hm : t.mem = m) (h : t' = { t with mem := m' }) :
    SameButMemory m m' t t' := by
  subst hm h
  exact ⟨rfl, fun _ => Or.inl ⟨rfl, rfl⟩⟩

/-- Memory takes the same store. -/
theorem SameButMemory.of_store {m m' : Memory} {t t' : State} {a : Nat} {bs : List Byte} (hm : t.mem = m.store a bs)
    (h : t' = { t with mem := m'.store a bs }) : SameButMemory m m' t t' := by
  subst h
  refine ⟨rfl, fun x => ?_⟩
  dsimp only
  rw [hm, Memory.read_store, Memory.read_store]
  split_ifs
  · exact Or.inr rfl
  · exact Or.inl ⟨rfl, rfl⟩

/-- The record of the audio command may be written on top. -/
theorem SameButMemory.with_fill {m m' : Memory} {t t' : State} (h : SameButMemory m m' t t') (r : FillRecord) :
    SameButMemory m m' { t with fill := r } { t' with fill := r } :=
  ⟨congrArg (fun u : State => { u with fill := r }) h.1, h.2⟩

/-! ## The sample writer -/

theorem frameLoop_with_mem (inc : F64) (k a : Nat) (s : State) (m' : Memory) :
    { frameLoop inc k a { s with mem := m' } with mem := (frameLoop inc k a s).mem } = frameLoop inc k a s := by
  induction k generalizing a s m' with
  | zero => rfl
  | succ k ih => exact ih (a + 4) (frameStep inc a s) (frameStep inc a { s with mem := m' }).mem

/-- The bytes of the loop's frames are samples, or left alone; the others are left alone. -/
theorem frameLoop_sameButMemory (inc : F64) (k a : Nat) (s : State) (m' : Memory) :
    SameButMemory s.mem m' (frameLoop inc k a s) (frameLoop inc k a { s with mem := m' }) := by
  refine ⟨frameLoop_with_mem inc k a s m', fun x => ?_⟩
  by_cases hout : x < a ∨ a + 4 * k ≤ x
  · exact Or.inl ⟨frameLoop_read_outside hout, frameLoop_read_outside hout⟩
  · obtain ⟨f, j, hf, hj, rfl⟩ : ∃ f j, f < k ∧ j < 4 ∧ x = a + 4 * f + j :=
      ⟨(x - a) / 4, (x - a) % 4, by omega, by omega, by omega⟩
    rw [frameLoop_read_frame inc a s hf hj, frameLoop_read_frame inc a { s with mem := m' } hf hj]
    cases sampleOfFrame inc s.acc f with
    | none => exact Or.inl ⟨rfl, rfl⟩
    | some v => exact Or.inr rfl

theorem wrsBody_sameButMemory (a k : Nat) (s : State) (m' : Memory) :
    SameButMemory s.mem m' (wrsBody a k s) (wrsBody a k { s with mem := m' }) := by
  by_cases hoff : s.note.toInt ≤ 0
  · rw [wrsBody_off hoff, wrsBody_off (by exact hoff)]
    exact SameButMemory.of_untouched rfl rfl
  · rw [wrsBody_on (not_le.1 hoff), wrsBody_on (by exact not_le.1 hoff)]
    exact frameLoop_sameButMemory _ k a s m'

/-! ## The turns -/

theorem audioContinue_sameButMemory (s : State) (m' : Memory) :
    SameButMemory s.mem m' (audioContinue s) (audioContinue { s with mem := m' }) := by
  cases hc : s.fill.checked with
  | false =>
    rw [audioContinue_check hc, audioContinue_check (by exact hc), fillCheck_eq, fillCheck_eq]
    dsimp only
    split_ifs <;> exact SameButMemory.of_untouched rfl rfl
  | true =>
    rw [audioContinue_chunk hc, audioContinue_chunk (by exact hc), fillChunk_eq, fillChunk_eq]
    exact (wrsBody_sameButMemory _ _ s m').with_fill _

/-- An audio command that answers a next state does so on any memory. -/
theorem exec_audio_sameButMemory {i : Instr} {s t : State} (hp : i.port = .audio) (m' : Memory)
    (h : exec i s = .next t) : ∃ t', exec i { s with mem := m' } = .next t' ∧ SameButMemory s.mem m' t t' := by
  cases i with
  | fill dest byteLength =>
    rw [exec_fill] at h ⊢
    split_ifs at h ⊢ <;> injection h with h <;> subst h
    · exact ⟨_, rfl, SameButMemory.of_store rfl rfl⟩
    · exact ⟨_, rfl, SameButMemory.of_untouched rfl rfl⟩
  | wrs buf start count =>
    rw [exec_wrs] at h ⊢
    split_ifs at h ⊢ <;> injection h with h <;> subst h
    · exact ⟨_, rfl, wrsBody_sameButMemory _ _ s m'⟩
    · exact ⟨_, rfl, SameButMemory.of_untouched rfl rfl⟩
  | _ => cases hp

theorem controlTurn_sameButMemory {s t : State} (m' : Memory) (h : controlTurn s = .next t) :
    ∃ t', controlTurn { s with mem := m' } = .next t' ∧ SameButMemory s.mem m' t t' := by
  rcases controlTurn_cases s with ⟨hport, e⟩ | ⟨w, ws, hport, hill, e⟩ | ⟨w, ws, i, hport, hok, e⟩ <;> rw [e] at h
  · injection h with h
    exact h ▸ ⟨_, controlTurn_empty (by exact hport), SameButMemory.of_untouched rfl rfl⟩
  · injection h with h
    exact h ▸ ⟨_, controlTurn_illegal (by exact hport) hill, SameButMemory.of_untouched rfl rfl⟩
  · obtain ⟨n, o, f, evs, -, he⟩ := exec_control_uniform (decodeK_port hok) { s with controlPort := ws }
    rw [he s.shut s.mem] at h
    injection h with h
    exact h ▸ ⟨_, (controlTurn_decoded (by exact hport) hok).trans (he s.shut m'), SameButMemory.of_untouched rfl rfl⟩

theorem audioTurn_sameButMemory {s t : State} (m' : Memory) (h : audioTurn s = .next t) :
    ∃ t', audioTurn { s with mem := m' } = .next t' ∧ SameButMemory s.mem m' t t' := by
  rcases audioTurn_cases s with ⟨hbusy, e⟩ | ⟨hidle, hport, e⟩ | ⟨d, ds, hidle, hport, hill, e⟩ |
    ⟨d, ds, i, hidle, hport, hok, e⟩ <;> rw [e] at h
  · injection h with h
    exact h ▸ ⟨_, audioTurn_busy (by exact hbusy), audioContinue_sameButMemory s m'⟩
  · injection h with h
    exact h ▸ ⟨_, audioTurn_empty (by exact hidle) (by exact hport), SameButMemory.of_untouched rfl rfl⟩
  · injection h with h
    exact h ▸ ⟨_, audioTurn_illegal (by exact hidle) (by exact hport) hill, SameButMemory.of_untouched rfl rfl⟩
  · obtain ⟨t', he, hsame⟩ := exec_audio_sameButMemory (decodeA_port hok) m' h
    exact ⟨t', (audioTurn_decoded (by exact hidle) (by exact hport) hok).trans he, hsame⟩

/-- What reset stores in the abandoned region does not depend on memory. -/
theorem resetEvent_sameButMemory (p : Option Port) (s : State) (m' : Memory) :
    SameButMemory s.mem m' (resetEvent p s) (resetEvent p { s with mem := m' }) := by
  have hregion : abandonedRegion p { s with mem := m' } = abandonedRegion p s := rfl
  unfold resetEvent memoryAfterReset
  rw [hregion]
  cases abandonedRegion p s with
  | none => exact SameButMemory.of_untouched rfl rfl
  | some r => exact SameButMemory.of_store rfl rfl

theorem takeTurn_sameButMemory {u : Turn} {s t : State} (m' : Memory) (h : takeTurn u s = .next t) :
    ∃ t', takeTurn u { s with mem := m' } = .next t' ∧ SameButMemory s.mem m' t t' := by
  cases u with
  | control => exact controlTurn_sameButMemory m' h
  | audio => exact audioTurn_sameButMemory m' h
  | reset p =>
    injection h with h
    exact h ▸ ⟨_, rfl, resetEvent_sameButMemory p s m'⟩
  | issueControl w =>
    injection h with h
    exact h ▸ ⟨_, rfl, SameButMemory.of_untouched rfl rfl⟩
  | issueAudio d =>
    injection h with h
    exact h ▸ ⟨_, rfl, SameButMemory.of_untouched rfl rfl⟩
  | hostRead addr len =>
    obtain ⟨rfl, hfree, hrange⟩ := hostRead_next h
    exact ⟨_, (if_neg (Bool.eq_false_iff.1 hfree)).trans (if_pos hrange), SameButMemory.of_untouched rfl rfl⟩
  | hostWrite addr bytes =>
    obtain ⟨rfl, hfree, hrange⟩ := hostWrite_next h
    exact ⟨_, (if_neg (Bool.eq_false_iff.1 hfree)).trans (if_pos hrange), SameButMemory.of_store rfl rfl⟩

/-- Settles O52: so for each turn, and a step with none left holds the state. -/
theorem memoryNeverInfluencesTheBlock : Obligations.MemoryNeverInfluencesTheBlock := by
  unfold Obligations.MemoryNeverInfluencesTheBlock
  intro s t m' h
  rcases step_next_cases h with ⟨hsched, rfl⟩ | ⟨u, ts, hsched, hu⟩
  · exact ⟨_, step_nil (by exact hsched), SameButMemory.of_untouched rfl rfl⟩
  · obtain ⟨t', hu', hsame⟩ := takeTurn_sameButMemory m' hu
    exact ⟨t', (step_cons (by exact hsched)).trans hu', hsame⟩

end Sys2Proof.Machine
end

section
/-! PROOFS. The wavetable's range, symmetries and sums (spec/40_wavetable.md R112): one evaluation of the table each. -/

namespace Sys2Proof.Machine

/-- (b), (c): there is an entry at every index below `N`, of magnitude at most 32767. -/
theorem wave?_range : ∀ i < 1024, ∃ w ∈ wave? i, -32767 ≤ w ∧ w ≤ 32767 := by decide +kernel

/-- (d): half a period on, the entry is the negative. -/
theorem wave?_add_half : ∀ i < 512, wave? (i + 512) = (wave? i).map (fun w => -w) := by decide +kernel

/-- (e): the first half is its own mirror image. -/
theorem wave?_mirror : ∀ i ≤ 256, wave? (512 - i) = wave? i := by decide +kernel

/-- (f): the table is odd. -/
theorem wave?_neg : ∀ i < 1024, wave? ((1024 - i) % 1024) = (wave? i).map (fun w => -w) := by decide +kernel

/-- (g): the first quarter rises strictly. -/
theorem wave?_rising : ∀ i < 256, ∃ w ∈ wave? i, ∃ w' ∈ wave? (i + 1), w < w' := by decide +kernel

theorem wave?_sum : ((List.range 1024).filterMap wave?).sum = 0 := by decide +kernel

theorem wave?_sum_natAbs : (((List.range 1024).filterMap wave?).map Int.natAbs).sum = 21360666 := by decide +kernel

/-- Settles O27: the properties above, and the four entries at the quarters. -/
theorem wavetableSymmetriesAndSums : Obligations.WavetableSymmetriesAndSums := by
  unfold Obligations.WavetableSymmetriesAndSums
  refine ⟨rfl, rfl, rfl, rfl, wave?_range, wave?_add_half, wave?_mirror, wave?_neg, fun i hi => ?_, wave?_sum,
    wave?_sum_natAbs⟩
  obtain ⟨w, hw, w', hw', hlt⟩ := wave?_rising i hi
  exact ⟨w, w', hw, hw', hlt⟩

end Sys2Proof.Machine
end

section
/-! PROOFS. Comparison, floor and conversion of an integer (spec/00_scope.md R14). -/

namespace Sys2Proof.Machine

theorem fge_iff {a b : F64} (ha : isFinite a = true) (hb : isFinite b = true) :
    fge a b = true ↔ units b ≤ units a := by
  simp [fge, ha, hb]

theorem ffloor_eq {a : F64} (ha : isFinite a = true) : ffloor a = some (units a / unitsPerOne) := if_pos ha

theorem fadd_finite {a b : F64} (ha : isFinite a = true) (hb : isFinite b = true) :
    fadd a b = addFinite a b (Config.f64Unstated .add a b) := by
  simp [fadd, ha, hb]

theorem fsub_finite {a b : F64} (ha : isFinite a = true) (hb : isFinite b = true) :
    fsub a b = addFinite a (fneg b) (Config.f64Unstated .sub a b) := by
  simp [fsub, ha, hb]

/-- The floor is the greatest integer not above the value. -/
theorem le_floor_iff (a : F64) (j : Int) : j ≤ units a / unitsPerOne ↔ j * unitsPerOne ≤ units a :=
  Int.le_ediv_iff_mul_le (by exact_mod_cast unitsPerOne_pos)

theorem lt_of_magOfBits_lt {b c : Nat} (h : magOfBits b < magOfBits c) : b < c :=
  not_le.1 fun hle => absurd (magOfBits_le_iff.2 hle) (not_le.2 h)

/-- A significand of `2^53`, too, times a power of two is the magnitude of some fields. -/
theorem exists_magOfBits_le {e m : Nat} (h : m ≤ 2 ^ 53) : ∃ b, magOfBits b = m * 2 ^ e ∧ b < (e + 3) * 2 ^ 52 := by
  rcases Nat.eq_or_lt_of_le h with rfl | hlt
  · obtain ⟨b, hb⟩ := exists_magOfBits (e := e + 1) (m := 2 ^ 52) (by norm_num)
    exact ⟨b, by rw [hb]; ring, lt_of_magOfBits_eq (by norm_num) (Nat.lt_succ_self _) hb⟩
  · obtain ⟨b, hb⟩ := exists_magOfBits (e := e) hlt
    exact ⟨b, hb, (lt_of_magOfBits_eq hlt (Nat.lt_succ_self _) hb).trans (by omega)⟩

/-- `f64(k)` is exact up to `2^53` in magnitude, the bound included. -/
theorem units_f64 {k : Int} (h : k.natAbs ≤ 2 ^ 53) : isFinite (f64 k) = true ∧ units (f64 k) = k * unitsPerOne := by
  obtain ⟨b, hb, hlt⟩ := exists_magOfBits_le (e := 1074) h
  rw [← unitsPerOne_eq] at hb
  have hfinite : b < 2047 * 2 ^ 52 := hlt.trans (by norm_num)
  have hround : roundMag (k.natAbs * unitsPerOne) 1 = b := roundMag_exact one_pos (by rw [hb, Nat.mul_one])
  rw [f64, if_pos h, hround]
  refine ⟨(packF64_spec hfinite).1, ?_⟩
  rw [units_packF64 hfinite, hb, Nat.cast_mul]
  split_ifs with hneg
  · rw [← neg_mul, Int.ofNat_natAbs_of_nonpos (of_decide_eq_true hneg).le, neg_neg]
  · rw [Int.natAbs_of_nonneg (not_lt.1 fun hc => hneg (decide_eq_true hc))]

/-- Settles O25: the comparison and the floor are on the exact values, and integers up to `2^53` are representable. -/
theorem comparisonFloorAndConversionAreExact : Obligations.ComparisonFloorAndConversionAreExact := by
  unfold Obligations.ComparisonFloorAndConversionAreExact
  refine ⟨fun a b => fge_iff, fun a ha => ⟨_, ffloor_eq ha, le_floor_iff a⟩, fun k hk => units_f64 ?_⟩
  rw [Int.abs_eq_natAbs] at hk
  exact_mod_cast hk

end Sys2Proof.Machine
end

section
/-! PROOFS. The phase accumulator (spec/43_oscillator.md R183 to R185, R193): a phase and an increment below `N` sum, after
rounding, to less than `2N`, and from `N` on the subtraction of `N` is exact. -/

namespace Sys2Proof.Machine

/-! ## The fields around `N` and `2N` -/

/-- In units of the last place `p` below `N = 2^53 * p`: the largest magnitudes below `N` and below `2N`. -/
theorem exists_ulp_below_N : ∃ p, 1024 * unitsPerOne = 2 ^ 53 * p ∧ magOfBits (1033 * 2 ^ 52) = 2 ^ 53 * p ∧
    magOfBits (1033 * 2 ^ 52 - 1) = (2 ^ 53 - 1) * p ∧ magOfBits (1034 * 2 ^ 52 - 1) = (2 ^ 53 - 1) * (2 * p) :=
  ⟨2 ^ 1031, by decide +kernel⟩

theorem magOfBits_N : magOfBits (1033 * 2 ^ 52) = 1024 * unitsPerOne := by
  obtain ⟨p, hN, hb, -⟩ := exists_ulp_below_N
  rw [hN, hb]

/-- A value of `[0, N)` is a magnitude, at most the largest below `N`. -/
theorem inTable.exists_magOfBits {a : F64} (h : inTable a) :
    ∃ b, units a = magOfBits b ∧ magOfBits b ≤ magOfBits (1033 * 2 ^ 52 - 1) := by
  obtain ⟨hfinite, hnonneg, hlt⟩ := h
  have hmag : units a = magOfBits (a.toNat % 2 ^ 63) := by
    rw [← Int.natAbs_of_nonneg hnonneg, units_natAbs, magUnits]
  have hltN : a.toNat % 2 ^ 63 < 1033 * 2 ^ 52 := by
    refine lt_of_magOfBits_lt ?_
    rw [magOfBits_N]
    rw [hmag] at hlt
    exact_mod_cast hlt
  exact ⟨a.toNat % 2 ^ 63, hmag, magOfBits_le_iff.2 (by omega)⟩

/-- Magnitudes of one exponent have one unit in the last place, so the least of them less is again a magnitude. -/
theorem exists_magOfBits_sub {e b : Nat} (hlo : (e + 1) * 2 ^ 52 ≤ b) (hhi : b < (e + 2) * 2 ^ 52) :
    ∃ d ≤ b, magOfBits b = magOfBits d + magOfBits ((e + 1) * 2 ^ 52) := by
  obtain ⟨m, rfl⟩ := Nat.exists_eq_add_of_le hlo
  have hb : magOfBits ((e + 1) * 2 ^ 52 + m) = (2 ^ 52 + m) * 2 ^ e := by
    rw [Nat.succ_mul, Nat.add_assoc]
    exact magOfBits_normal (by omega) (by omega)
  have hleast : magOfBits ((e + 1) * 2 ^ 52) = 2 ^ 52 * 2 ^ e := by
    rw [Nat.succ_mul]
    exact magOfBits_normal le_rfl (by norm_num)
  obtain ⟨d, hd⟩ := exists_magOfBits (e := e) (m := m) (by omega)
  have hsum : magOfBits ((e + 1) * 2 ^ 52 + m) = magOfBits d + magOfBits ((e + 1) * 2 ^ 52) := by
    rw [hb, hd, hleast, Nat.add_comm, Nat.add_mul, Nat.add_comm]
  exact ⟨d, magOfBits_le_iff.1 (by omega), hsum⟩

/-! ## One advance (R183, R184) -/

/-- The rounded sum of a phase and an increment is finite, not negative, and below `2N`. -/
theorem fadd_inTable {acc inc : F64} (hacc : inTable acc) (hinc : inTable inc) :
    isFinite (fadd acc inc) = true ∧ ∃ b < 1034 * 2 ^ 52, units (fadd acc inc) = magOfBits b := by
  obtain ⟨x, hx, hxle⟩ := hacc.exists_magOfBits
  obtain ⟨y, hy, hyle⟩ := hinc.exists_magOfBits
  have hround : roundMag (units acc + units inc).natAbs 1 ≤ 1034 * 2 ^ 52 - 1 := by
    refine roundMag_le one_pos ?_
    obtain ⟨p, -, -, hbelow, htwice⟩ := exists_ulp_below_N
    rw [hx, hy, htwice]
    omega
  have hlt : roundMag (units acc + units inc).natAbs 1 < 2047 * 2 ^ 52 := lt_of_le_of_lt hround (by norm_num)
  obtain ⟨hfinite, hunits⟩ := addFinite_units (u := Config.f64Unstated .add acc inc) (by omega) hlt
  rw [fadd_finite hacc.1 hinc.1]
  exact ⟨hfinite, _, lt_of_le_of_lt hround (by norm_num), hunits⟩

/-- From `N` up to `2N`, the subtraction of `N` is exact. -/
theorem fsub_N_exact {a : F64} {b : Nat} (hfinite : isFinite a = true) (ha : units a = magOfBits b)
    (hlo : 1033 * 2 ^ 52 ≤ b) (hhi : b < 1034 * 2 ^ 52) :
    isFinite (fsub a (f64 Config.tableLen)) = true ∧
      units (fsub a (f64 Config.tableLen)) = units a - 1024 * unitsPerOne := by
  obtain ⟨hN, hNunits⟩ := units_f64 (k := Config.tableLen) (by decide)
  obtain ⟨d, hdb, hd⟩ := exists_magOfBits_sub (e := 1032) hlo hhi
  rw [magOfBits_N] at hd
  have hdiff : units a + units (fneg (f64 Config.tableLen)) = magOfBits d := by
    rw [units_fneg, hNunits, ha, hd, Config.tableLen_eq]
    push_cast
    ring
  have hround : roundMag (units a + units (fneg (f64 Config.tableLen))).natAbs 1 = d := by
    rw [hdiff]
    exact roundMag_exact one_pos (by simp)
  obtain ⟨hf, hu⟩ := addFinite_units (a := a) (b := fneg (f64 Config.tableLen))
    (u := Config.f64Unstated .sub a (f64 Config.tableLen)) (by omega) (by omega)
  rw [fsub_finite hfinite hN]
  refine ⟨hf, ?_⟩
  rw [hu, hround, ← hdiff, units_fneg, hNunits]
  rfl

/-- R193: one advance of a phase in `[0, N)` stays there; `N` is subtracted, exactly, where the rounded sum is `N` or
more. -/
theorem advancePhase_spec {acc inc : F64} (hacc : inTable acc) (hinc : inTable inc) :
    inTable (advancePhase inc acc) ∧
    units (advancePhase inc acc) =
      if 1024 * (unitsPerOne : Int) ≤ units (fadd acc inc) then units (fadd acc inc) - 1024 * unitsPerOne
      else units (fadd acc inc) := by
  obtain ⟨hfinite, b, hb, hunits⟩ := fadd_inTable hacc hinc
  obtain ⟨hN, hNunits⟩ := units_f64 (k := Config.tableLen) (by decide)
  have hge := fge_iff hfinite hN
  rw [hNunits, Config.tableLen_eq] at hge
  rw [advancePhase]
  by_cases hwrap : 1024 * (unitsPerOne : Int) ≤ units (fadd acc inc)
  · have hlo : 1033 * 2 ^ 52 ≤ b := by
      rw [← magOfBits_le_iff, magOfBits_N]
      rw [hunits] at hwrap
      exact_mod_cast hwrap
    obtain ⟨hf, hu⟩ := fsub_N_exact hfinite hunits hlo hb
    rw [if_pos (hge.2 hwrap), if_pos hwrap]
    refine ⟨⟨hf, by omega, ?_⟩, hu⟩
    have hlt := magOfBits_le_iff.2 (Nat.le_sub_one_of_lt hb)
    obtain ⟨p, hp, -, -, htwice⟩ := exists_ulp_below_N
    have hU := unitsPerOne_pos
    rw [htwice] at hlt
    rw [hu, Config.tableLen_eq]
    omega
  · rw [if_neg (fun h => hwrap (hge.1 h)), if_neg hwrap]
    refine ⟨⟨hfinite, by omega, ?_⟩, rfl⟩
    rw [Config.tableLen_eq]
    omega

/-- The index of a phase in `[0, N)` is its floor, in `[0, N - 1]` (R193). -/
theorem phaseIndex_inTable {a : F64} (h : inTable a) :
    ffloor a = some (phaseIndex a).toInt ∧ 0 ≤ (phaseIndex a).toInt ∧ (phaseIndex a).toInt ≤ 1023 := by
  obtain ⟨hfinite, hnonneg, hlt⟩ := h
  have hU : (0 : Int) < unitsPerOne := by exact_mod_cast unitsPerOne_pos
  have hlo : 0 ≤ units a / unitsPerOne := Int.ediv_nonneg hnonneg hU.le
  have hhi : units a / unitsPerOne < 1024 := Int.ediv_lt_of_lt_mul hU hlt
  have hindex : (phaseIndex a).toInt = units a / unitsPerOne := by
    have hfits : -2 ^ 31 ≤ units a / (unitsPerOne : Int) ∧ units a / (unitsPerOne : Int) < 2 ^ 31 := by omega
    have hreg := toInt_toRegister hfits.1 hfits.2
    rw [toRegister, if_pos hfits] at hreg
    rw [phaseIndex, ffloor_eq hfinite]
    dsimp only
    rw [if_pos hfits, hreg]
  rw [hindex]
  exact ⟨ffloor_eq hfinite, hlo, by omega⟩

/-- Settles O34: one advance, and the index of the phase it gives. -/
theorem wrapKeepsThePhaseInTheTable : Obligations.WrapKeepsThePhaseInTheTable := by
  unfold Obligations.WrapKeepsThePhaseInTheTable
  intro acc inc hacc hinc _
  obtain ⟨hin, hunits⟩ := advancePhase_spec hacc hinc
  obtain ⟨hfloor, hlo, hhi⟩ := phaseIndex_inTable hin
  exact ⟨hin, hfloor, hlo, hhi, (fadd_inTable hacc hinc).1, hunits⟩

/-! ## The increment of a reachable note -/

/-- In a legal build, `0 < PINC(n) < N` for every reachable note that sounds (R8, R163). -/
theorem PINC_inTable (b : Build) {n : Int} (hlo : 12 ≤ n) (hhi : n ≤ 112) : inTable (PINC b.params n) := by
  obtain ⟨hsupported, -⟩ := legalBuild_iff.1 b.legal
  rw [supported, Bool.and_eq_true, List.all_eq_true] at hsupported
  have hfits := hsupported.2 (n - 12).toNat (List.mem_range.2 (by omega))
  rw [show (((n - 12).toNat + 12 : Nat) : Int) = n by omega] at hfits
  simp only [incrementFits, isPositive, Bool.and_eq_true, decide_eq_true_eq] at hfits
  obtain ⟨⟨hfinite, hpos⟩, hlt⟩ := hfits
  exact ⟨hfinite, hpos.le, hlt⟩

theorem PINC_inTable_of_voiced {s : State} (hs : s.controllerInv) (hvoice : 0 < s.note.toInt) :
    inTable (PINC s.build.params s.note.toInt) := by
  have := State.controllerInv_iff.1 hs
  exact PINC_inTable s.build (by omega) (by omega)

/-! ## The phase invariant -/

theorem phaseAfter_inTable {inc acc : F64} (hinc : inTable inc) (hacc : inTable acc) (k : Nat) :
    inTable (phaseAfter inc k acc) := by
  induction k generalizing acc with
  | zero => exact hacc
  | succ k ih => exact ih (advancePhase_spec hacc hinc).1

/-- The sample writer keeps the phase in the table and the index its floor (R193). -/
theorem wrsBody_keeps_phaseInv {s : State} (hs : s.controllerInv) (hphase : s.phaseInv) (a k : Nat) :
    (wrsBody a k s).phaseInv := by
  by_cases hoff : s.note.toInt ≤ 0
  · rw [wrsBody_off hoff]
    exact hphase
  · have hinc := PINC_inTable_of_voiced hs (not_le.1 hoff)
    rw [wrsBody_on (not_le.1 hoff)]
    rcases Nat.eq_zero_or_pos k with rfl | hk
    · exact hphase
    · have hin := phaseAfter_inTable hinc hphase.1 k
      rw [State.phaseInv, frameLoop_idx _ _ _ hk.ne', frameLoop_acc]
      exact ⟨hin, (phaseIndex_inTable hin).1⟩

theorem audioContinue_keeps_phaseInv {s : State} (hs : s.controllerInv) (hphase : s.phaseInv) :
    (audioContinue s).phaseInv := by
  cases hc : s.fill.checked with
  | false =>
    rw [audioContinue_check hc, fillCheck_eq]
    split_ifs <;> exact hphase
  | true =>
    rw [audioContinue_chunk hc, fillChunk_eq]
    exact wrsBody_keeps_phaseInv hs hphase _ _

theorem audioTurn_keeps_phaseInv {s t : State} (hs : s.controllerInv) (hphase : s.phaseInv)
    (h : audioTurn s = .next t) : t.phaseInv := by
  rcases audioTurn_next_cases h with ⟨-, rfl⟩ | ⟨-, ds, f, rfl, -⟩ | ⟨-, ds, dest, len, -, -, rfl⟩ |
    ⟨-, ds, buf, start, count, -, rfl⟩
  · exact audioContinue_keeps_phaseInv hs hphase
  · exact hphase
  · exact hphase
  · exact wrsBody_keeps_phaseInv (s := { s with audioPort := ds }) hs hphase _ _

/-- Settles O35: only the sample writer and reset write the phase; a reachable note's increment keeps it in the table. -/
theorem phaseInvariantIsKept : Obligations.PhaseInvariantIsKept := by
  unfold Obligations.PhaseInvariantIsKept
  intro s t hs hphase h
  refine (step_keeps (P := fun s => s.controllerInv ∧ s.phaseInv) (fun ts h => h)
    (takeTurn_keeps (fun s t hs h => ⟨(controlTurn_keeps_range hs.1 h).1, ?_⟩)
      (fun s t hs h => ⟨?_, audioTurn_keeps_phaseInv hs.1 hs.2 h⟩)
      (fun p s _ => ⟨controllerInv_of_reset rfl rfl, phaseInv_of_reset rfl rfl⟩)
      fun s m cp ap hs => hs) ⟨hs, hphase⟩ h).2
  · rw [controlTurn_next_frame h]
    exact hs.2
  · rw [audioTurn_frame h]
    exact hs.1

/-! ## No frame is skipped -/

/-- A phase in the table has an entry, whose attenuation is within `3 * 32767 / 10` (R185, R186). -/
theorem lookupEntry_inTable {a : F64} (h : inTable a) :
    ∃ e, lookupEntry (phaseIndex a) = some e ∧ -9830 ≤ attenuate e ∧ attenuate e ≤ 9830 := by
  obtain ⟨-, hlo, hhi⟩ := phaseIndex_inTable h
  obtain ⟨e, he, helo, hehi⟩ := wave?_range (phaseIndex a).toInt.toNat (by omega)
  refine ⟨e, ?_, attenuationTruncatesTheExactProduct.2.2.1 e (by omega) (by omega)⟩
  rw [lookupEntry, if_pos ⟨hlo, by rw [Config.tableLen_eq]; omega⟩]
  exact he

/-- Settles O37: every phase of the run is in the table. -/
theorem noFrameIsSkipped : Obligations.NoFrameIsSkipped := by
  unfold Obligations.NoFrameIsSkipped
  intro s f hs hphase hvoice
  obtain ⟨e, he, hlo, hhi⟩ :=
    lookupEntry_inTable (phaseAfter_inTable (PINC_inTable_of_voiced hs hvoice) hphase.1 (f + 1))
  exact ⟨attenuate e, by rw [sampleOfFrame, he]; rfl, hlo, hhi⟩

end Sys2Proof.Machine
end

section
/-! PROOFS. Round to nearest, ties to even (spec/00_scope.md R14). A fraction between two neighbouring magnitudes is at
least as far from every other magnitude as from the neighbour on its side; the sign is carried along. -/

namespace Sys2Proof.Machine

/-! ## Magnitudes -/

/-- The value `v` in units of `1 / den` is at least as near to `x` as `c` is, and if equally near and other than `c`, it is
even. -/
def NearestEven (den x v : Int) (even : Prop) (c : Int) : Prop :=
  |v * den - x| ≤ |c * den - x| ∧ (|v * den - x| = |c * den - x| → c ≠ v → even)

/-- The neighbours of `num / den`: a magnitude not above it, and the next, which is above it. -/
theorem roundMag_neighbours {num den : Nat} (hd : 0 < den) : ∃ b, ∃ lo hi : Nat,
    magOfBits b * den + lo = num ∧ num + hi = magOfBits (b + 1) * den ∧ 0 < hi ∧
    (roundMag num den = b ∧ lo < hi ∨ roundMag num den = b + 1 ∧ hi < lo ∨
      lo = hi ∧ (roundMag num den = b ∨ roundMag num den = b + 1) ∧ roundMag num den % 2 = 0) := by
  obtain ⟨e, m, r, hnum, hr, hm, hnorm, hround⟩ := roundMag_split (num := num) hd
  have hlo : magOfBits (e * 2 ^ 52 + m) * den = m * (den * 2 ^ e) := by
    rw [magOfBits_of_significand hm.le hnorm]
    ring
  have hhi : magOfBits (e * 2 ^ 52 + m + 1) * den = m * (den * 2 ^ e) + den * 2 ^ e := by
    rw [magOfBits_succ_of_significand hm hnorm]
    ring
  refine ⟨e * 2 ^ 52 + m, r, den * 2 ^ e - r, by omega, by omega, by omega, ?_⟩
  rw [hround]
  split_ifs with hbelow habove
  · exact Or.inl ⟨rfl, by omega⟩
  · exact Or.inr (Or.inl ⟨by omega, by omega⟩)
  · exact Or.inr (Or.inr ⟨by omega, by omega, by omega⟩)

/-- How far a magnitude is from `num`, in units of `1 / den`: at least as far as the neighbour on its side. -/
theorem magOfBits_distance {num : Int} {den b lo hi : Nat} (hd : 0 < den) (hlo : (magOfBits b : Int) * den - num = -lo)
    (hhi : (magOfBits (b + 1) : Int) * den - num = hi) (c : Nat) :
    ((lo : Int) ≤ |(magOfBits c : Int) * den - num| ∧ (|(magOfBits c : Int) * den - num| = lo → c = b)) ∧ c ≤ b ∨
    ((hi : Int) ≤ |(magOfBits c : Int) * den - num| ∧ (|(magOfBits c : Int) * den - num| = hi → c = b + 1)) ∧ b < c := by
  have hscale : ∀ {x y : Nat}, x < y → (magOfBits x : Int) * den < magOfBits y * den :=
    fun h => by exact_mod_cast Nat.mul_lt_mul_of_pos_right (magOfBits_lt h) hd
  rcases Nat.lt_or_ge b c with hc | hc
  · refine Or.inr ⟨?_, hc⟩
    rcases Nat.eq_or_lt_of_le (show b + 1 ≤ c from hc) with rfl | hc
    · exact ⟨by rw [hhi, Nat.abs_cast], fun _ => rfl⟩
    · have hfar : (hi : Int) < |(magOfBits c : Int) * den - num| :=
        lt_of_lt_of_le (by have := hscale hc; omega) (le_abs_self _)
      exact ⟨hfar.le, fun h => absurd h hfar.ne'⟩
  · refine Or.inl ⟨?_, hc⟩
    rcases Nat.eq_or_lt_of_le hc with rfl | hc
    · exact ⟨by rw [hlo, abs_neg, Nat.abs_cast], fun _ => rfl⟩
    · have hfar : (lo : Int) < |(magOfBits c : Int) * den - num| :=
        lt_of_lt_of_le (by have := hscale hc; omega) (neg_le_abs _)
      exact ⟨hfar.le, fun h => absurd h hfar.ne'⟩

/-- `roundMag` is nearest among the magnitudes, ties to even. -/
theorem roundMag_nearest {num den : Nat} (hd : 0 < den) (c : Nat) :
    NearestEven den num (magOfBits (roundMag num den)) (roundMag num den % 2 = 0) (magOfBits c) := by
  obtain ⟨b, lo, hi, hlo, hhi, hpos, hcases⟩ := roundMag_neighbours (num := num) hd
  have hlo' : (magOfBits b : Int) * den - num = -lo := by
    rw [← hlo]
    push_cast
    ring
  have hhi' : (magOfBits (b + 1) : Int) * den - num = hi := by
    have : ((num + hi : Nat) : Int) = (magOfBits (b + 1) * den : Nat) := by rw [hhi]
    push_cast at this
    linarith
  have hdist := magOfBits_distance hd hlo' hhi' c
  have hother : ∀ {v}, (magOfBits c : Int) ≠ magOfBits v → c ≠ v := fun hne h => hne (by rw [h])
  rw [NearestEven]
  rcases hcases with ⟨hv, hlt⟩ | ⟨hv, hlt⟩ | ⟨heq, hv | hv, heven⟩
  · rw [hv, hlo', abs_neg, Nat.abs_cast]
    exact ⟨by omega, fun htie hne => by have := hother hne; omega⟩
  · rw [hv, hhi', Nat.abs_cast]
    exact ⟨by omega, fun htie hne => by have := hother hne; omega⟩
  · rw [hv, hlo', abs_neg, Nat.abs_cast]
    exact ⟨by omega, fun _ _ => hv ▸ heven⟩
  · rw [hv, hhi', Nat.abs_cast]
    exact ⟨by omega, fun _ _ => hv ▸ heven⟩

/-! ## Signed values -/

/-- A magnitude with a sign. -/
def signed (negative : Bool) (n : Nat) : Int := if negative then -(n : Int) else n

theorem units_eq_signed (a : F64) : units a = signed (signBit a) (magUnits a) := rfl

theorem units_eq_signed_magOfBits (a : F64) : ∃ q k, units a = signed q (magOfBits k) := ⟨_, _, rfl⟩

theorem neg_signed_not (q : Bool) (n : Nat) : -signed (!q) n = signed q n := by
  cases q <;> simp [signed]

theorem signed_mul (p q : Bool) (m n : Nat) : signed p m * signed q n = signed (p ^^ q) (m * n) := by
  cases p <;> cases q <;> simp [signed]

theorem signed_natAbs (k : Int) : signed (decide (k < 0)) k.natAbs = k := by
  unfold signed
  split_ifs with hneg
  · have := of_decide_eq_true hneg
    omega
  · have : ¬ k < 0 := fun h => hneg (decide_eq_true h)
    omega

theorem abs_signed (p : Bool) (n : Nat) : |signed p n| = n := by
  cases p <;> simp [signed]

/-- Against competitors of both signs: one of the other sign is farther than 0, which is a magnitude. -/
theorem roundMag_nearest_signed {num den : Nat} (hd : 0 < den) (q : Bool) (c : Nat) :
    NearestEven den num (magOfBits (roundMag num den)) (roundMag num den % 2 = 0) (signed q (magOfBits c)) := by
  cases q with
  | false => exact roundMag_nearest hd c
  | true =>
    rcases Nat.eq_zero_or_pos (magOfBits c) with hzero | hpos
    · have h := roundMag_nearest (num := num) hd c
      rw [hzero] at h ⊢
      exact h
    · obtain ⟨hle, -⟩ := roundMag_nearest (num := num) hd 0
      have hfar : |((magOfBits 0 : Nat) : Int) * den - num| < |signed true (magOfBits c) * den - num| := by
        have hpos' : (0 : Int) < magOfBits c * den := by exact_mod_cast Nat.mul_pos hpos hd
        rw [magOfBits_zero, signed, if_pos rfl, Nat.cast_zero, zero_mul, zero_sub, abs_neg, Nat.abs_cast, neg_mul,
          ← neg_add', abs_neg, abs_of_nonneg (by positivity)]
        omega
      exact ⟨(hle.trans_lt hfar).le, fun htie => absurd htie (hle.trans_lt hfar).ne⟩

/-- The sign may be put on the value, the exact result and the competitor. -/
theorem NearestEven.neg {den x v c : Int} {even : Prop} (h : NearestEven den x v even c) :
    NearestEven den (-x) (-v) even (-c) := by
  have hflip : ∀ y : Int, |-y * den - -x| = |y * den - x| := fun y => by
    rw [← abs_neg]
    congr 1
    ring
  rw [NearestEven, hflip, hflip]
  exact ⟨h.1, fun htie hne => h.2 htie fun hcv => hne (by rw [hcv])⟩

/-- The fraction of a packed result is even when its fields are. -/
theorem packF64_even_iff {neg : Bool} {bits : Nat} {u : F64} (h : bits < 2047 * 2 ^ 52) :
    (packF64 neg bits u).toNat % 2 = 0 ↔ bits % 2 = 0 := by
  rw [toNat_packF64 h]
  split_ifs <;> omega

/-- The largest finite magnitude. -/
def maxMag : Nat := magOfBits (2047 * 2 ^ 52 - 1)

/-- A packed rounded result that does not overflow is finite and nearest to the signed exact one. -/
theorem packF64_nearest {neg : Bool} {num den : Nat} {u : F64} (hd : 0 < den)
    (hmax : num ≤ maxMag * den) (c : F64) :
    isFinite (packF64 neg (roundMag num den) u) = true ∧
      NearestEven den (signed neg num) (units (packF64 neg (roundMag num den) u))
        ((packF64 neg (roundMag num den) u).toNat % 2 = 0) (units c) := by
  rw [maxMag] at hmax
  have hlt : roundMag num den < 2047 * 2 ^ 52 := lt_of_le_of_lt (roundMag_le hd hmax) (by norm_num)
  refine ⟨(packF64_spec hlt).1, ?_⟩
  obtain ⟨q, k, hc⟩ := units_eq_signed_magOfBits c
  rw [packF64_even_iff hlt, units_packF64 hlt, hc]
  cases neg with
  | false => simpa only [signed, Bool.false_eq_true, if_false] using roundMag_nearest_signed hd q k
  | true =>
    have h := (roundMag_nearest_signed (num := num) hd (!q) k).neg
    rw [neg_signed_not] at h
    simpa only [signed, if_true] using h

/-! ## The four operations -/

theorem units_negZero : units 0x8000000000000000#64 = 0 := by decide

/-- A sum rounds to nearest; an exact zero sum is a zero of either sign. -/
theorem addFinite_nearest {a b u : F64} (hmax : |units a + units b| ≤ maxMag) (c : F64) :
    isFinite (addFinite a b u) = true ∧ NearestEven (1 : Nat) (units a + units b) (units (addFinite a b u))
      ((addFinite a b u).toNat % 2 = 0) (units c) := by
  unfold addFinite
  by_cases hzero : units a + units b = 0
  · rw [hzero, if_pos rfl]
    cases signBit a && signBit b
    · exact ⟨by decide, by simp [units_zero], by simp⟩
    · exact ⟨by decide, by simp [units_negZero], by simp⟩
  · rw [Int.abs_eq_natAbs, Int.ofNat_le, ← Nat.mul_one maxMag] at hmax
    rw [if_neg hzero]
    have h := packF64_nearest (neg := decide (units a + units b < 0)) (u := u) Nat.one_pos hmax c
    rwa [signed_natAbs] at h

/-- A product rounds to nearest: the signs combine, the magnitudes multiply. -/
theorem fmul_nearest {a b : F64} (ha : isFinite a = true) (hb : isFinite b = true)
    (hmax : |units a * units b| ≤ maxMag * unitsPerOne) (c : F64) :
    isFinite (fmul a b) = true ∧ NearestEven unitsPerOne (units a * units b) (units (fmul a b))
      ((fmul a b).toNat % 2 = 0) (units c) := by
  have hfmul : fmul a b = packF64 (signBit a ^^ signBit b) (roundMag (magUnits a * magUnits b) unitsPerOne)
      (Config.f64Unstated .mul a b) := by
    simp [fmul, ha, hb]
  rw [units_eq_signed a, units_eq_signed b, signed_mul] at hmax ⊢
  rw [abs_signed] at hmax
  rw [hfmul]
  exact packF64_nearest unitsPerOne_pos (by exact_mod_cast hmax) c

/-- The distance of a quotient, multiplied out by a divisor of either sign. -/
theorem abs_mul_signed_sub (y : Int) (p q : Bool) (m n k : Nat) :
    |y * signed q n - signed p m * k| = |y * n - signed (p ^^ q) (m * k)| := by
  cases q with
  | false => cases p <;> simp [signed]
  | true =>
    rw [← abs_neg]
    congr 1
    cases p <;> simp [signed] <;> ring

/-- A quotient rounds to nearest, compared after multiplying out. -/
theorem fdiv_nearest {a b : F64} (ha : isFinite a = true) (hb : isFinite b = true) (hne : units b ≠ 0)
    (hmax : |units a| * unitsPerOne ≤ maxMag * |units b|) (c : F64) :
    isFinite (fdiv a b) = true ∧
      |units (fdiv a b) * units b - units a * unitsPerOne| ≤ |units c * units b - units a * unitsPerOne| ∧
      (|units (fdiv a b) * units b - units a * unitsPerOne| = |units c * units b - units a * unitsPerOne| →
        units c ≠ units (fdiv a b) → (fdiv a b).toNat % 2 = 0) := by
  have hpos : 0 < magUnits b := by
    rw [← units_natAbs]
    omega
  have hfdiv : fdiv a b = packF64 (signBit a ^^ signBit b) (roundMag (magUnits a * unitsPerOne) (magUnits b))
      (Config.f64Unstated .div a b) := by
    simp [fdiv, ha, hb, hpos.ne']
  rw [units_eq_signed a, units_eq_signed b, abs_signed, abs_signed] at hmax
  rw [units_eq_signed a, units_eq_signed b, hfdiv]
  simp only [abs_mul_signed_sub]
  exact packF64_nearest hpos (by exact_mod_cast hmax) c

/-- Settles O24: each operation packs the rounded magnitude of the exact result; a difference is the sum with `-b`. -/
theorem arithmeticRoundsToNearestEven : Obligations.ArithmeticRoundsToNearestEven := by
  unfold Obligations.ArithmeticRoundsToNearestEven
  intro M U a b c ha hb hc
  have hsum : ∀ {b : F64} (u : F64), |units a + units b| ≤ M →
      isFinite (addFinite a b u) = true ∧
      |units (addFinite a b u) - (units a + units b)| ≤ |units c - (units a + units b)| ∧
      (|units (addFinite a b u) - (units a + units b)| = |units c - (units a + units b)| →
        units c ≠ units (addFinite a b u) → (addFinite a b u).toNat % 2 = 0) := fun u hmax => by
    simpa only [NearestEven, Nat.cast_one, mul_one] using addFinite_nearest (u := u) hmax c
  refine ⟨fun hmax => ?_, fun hmax => ?_, fun hmax => fmul_nearest ha hb hmax c,
    fun hne hmax => fdiv_nearest ha hb hne hmax c⟩
  · rw [fadd_finite ha hb]
    exact hsum _ hmax
  · rw [fsub_finite ha hb, sub_eq_add_neg (units a), ← units_fneg]
    rw [sub_eq_add_neg (units a), ← units_fneg] at hmax
    exact hsum _ hmax

end Sys2Proof.Machine
end

section
/-! PROOFS. The pitch mapper and the phase increment (spec/41_pitch_mapper.md). A twelfth power makes the equal temperament
an integer comparison: the twelfth power of `440 * 2^((n-57)/12)` is `440^12 * 2^(n-57)`. -/

namespace Sys2Proof.Machine

/-! ## The default pitch -/

/-- The significand of the default pitch by the residue of the note modulo 12 (R134). -/
def pitchSignificand (j : Nat) : Nat := 2 ^ 52 + pitchFraction.getD j 0

/-- Every printed fraction is positive and has 52 bits. -/
theorem pitchSignificand_range : ∀ j < 12, 2 ^ 52 < pitchSignificand j ∧ pitchSignificand j < 2 ^ 53 := by decide

/-- The default pitch where it is a normal number. -/
theorem defaultPitch_spec {n : Int} (hlo : -1026 ≤ n / 12) (hhi : n / 12 ≤ 1019) :
    isFinite (defaultPitch n) = true ∧
      units (defaultPitch n) = (pitchSignificand (n % 12).toNat * 2 ^ (n / 12 + 1026).toNat : Nat) := by
  obtain ⟨hm1, hm2⟩ := pitchSignificand_range (n % 12).toNat (by omega)
  have hbits : (4 + n / 12 + 1023).toNat * 2 ^ 52 + pitchFraction.getD (n % 12).toNat 0 =
      (n / 12 + 1026).toNat * 2 ^ 52 + pitchSignificand (n % 12).toNat := by
    rw [pitchSignificand]
    omega
  have hfinite : (n / 12 + 1026).toNat * 2 ^ 52 + pitchSignificand (n % 12).toNat < 2047 * 2 ^ 52 := by omega
  have hpack : defaultPitch n =
      packF64 false ((n / 12 + 1026).toNat * 2 ^ 52 + pitchSignificand (n % 12).toNat) 0 := by
    rw [packF64_pos hfinite, ← hbits, defaultPitch, if_pos (by omega)]
  rw [hpack, units_packF64 hfinite, magOfBits_normal hm1.le hm2]
  exact ⟨(packF64_spec hfinite).1, rfl⟩

/-- Settles O30: an octave up is one more in the exponent. -/
theorem defaultPitchDoublesPerOctave : Obligations.DefaultPitchDoublesPerOctave := by
  unfold Obligations.DefaultPitchDoublesPerOctave
  refine ⟨fun n hlo hhi => ?_, rfl, rfl⟩
  have hdiv : (n + 12) / 12 = n / 12 + 1 := by omega
  have hmod : (n + 12) % 12 = n % 12 := by omega
  have hexp : (n / 12 + 1 + 1026).toNat = (n / 12 + 1026).toNat + 1 := by omega
  rw [(defaultPitch_spec (n := n + 12) (by omega) (by omega)).2, (defaultPitch_spec hlo (by omega)).2, hdiv, hmod, hexp,
    Nat.pow_succ]
  push_cast
  ring

/-- Settles O31: the 131 rows, evaluated. -/
theorem defaultIncrementTable : Obligations.DefaultIncrementTable := by
  unfold Obligations.DefaultIncrementTable
  decide +kernel

/-! ## The equal temperament -/

/-- The pitch of the equal temperament in hertz, `440 * 2^((n-57)/12)` (R132). -/
noncomputable def equalTempered (n : Int) : ℝ := 440 * (2 : ℝ) ^ (((n : ℝ) - 57) / 12)

theorem equalTempered_pos (n : Int) : 0 < equalTempered n := by
  rw [equalTempered]
  positivity

theorem equalTempered_pow (n : Int) : equalTempered n ^ 12 = 440 ^ 12 * (2 : ℝ) ^ (n - 57) := by
  have hexp : ((n : ℝ) - 57) / 12 * (12 : Nat) = ((n - 57 : Int) : ℝ) := by
    push_cast
    ring
  rw [equalTempered, mul_pow, ← Real.rpow_mul_natCast (by norm_num), hexp, Real.rpow_intCast]

/-- Twelfth powers compare as their bases do. -/
theorem le_of_pow_twelve_le {a b : ℝ} (hb : 0 ≤ b) (h : a ^ 12 ≤ b ^ 12) : a ≤ b :=
  le_of_pow_le_pow_left₀ (by norm_num) hb h

theorem unitsPerOne_pos_real : (0 : ℝ) < unitsPerOne := by exact_mod_cast unitsPerOne_pos

/-! ## The named properties (R132) -/

theorem isPositive_iff {a : F64} : isPositive a = true ↔ isFinite a = true ∧ 0 < units a := by
  rw [isPositive, Bool.and_eq_true, decide_eq_true_eq]

/-- The default pitch is positive and finite everywhere, whatever value it has out of the range of normal numbers. -/
theorem defaultPitch_positive (n : Int) : isFinite (defaultPitch n) = true ∧ 0 < units (defaultPitch n) := by
  by_cases hnormal : 1 ≤ 4 + n / 12 + 1023 ∧ 4 + n / 12 + 1023 ≤ 2046
  · obtain ⟨hfinite, hunits⟩ := defaultPitch_spec (n := n) (by omega) (by omega)
    have hm := (pitchSignificand_range (n % 12).toNat (by omega)).1
    refine ⟨hfinite, ?_⟩
    rw [hunits]
    exact_mod_cast Nat.mul_pos (by omega) (Nat.two_pow_pos _)
  · rw [defaultPitch, if_neg hnormal]
    exact positive_ofNat (Nat.succ_pos _) (by have := (Config.pitchUnstated n).isLt; omega)

theorem PITCH_positive (b : Build) (n : Int) : isFinite (PITCH b.params n) = true ∧ 0 < units (PITCH b.params n) := by
  obtain ⟨-, -, -, -, htable⟩ := legalBuild_iff.1 b.legal
  unfold PITCH
  split
  · next v hv =>
    obtain ⟨l₁, l₂, hmem, -⟩ := List.lookup_eq_some_iff.1 hv
    exact isPositive_iff.1 (List.all_eq_true.1 htable (n, v) (by simp [hmem]))
  · exact defaultPitch_positive n

/-- P2 for one note, as the integer comparison of twelfth powers. -/
theorem pitchNear_iff {p : BuildParams} {n : Nat} : pitchNear p n = true ↔
    (isFinite (PITCH p n) = true ∧ 0 < units (PITCH p n)) ∧
    (10 ^ 12 - 1) ^ 12 * (440 ^ 12 * 2 ^ n * unitsPerOne ^ 12) ≤ (10 ^ 12 * magUnits (PITCH p n)) ^ 12 * 2 ^ 57 ∧
    (10 ^ 12 * magUnits (PITCH p n)) ^ 12 * 2 ^ 57 ≤ (10 ^ 12 + 1) ^ 12 * (440 ^ 12 * 2 ^ n * unitsPerOne ^ 12) := by
  simp only [pitchNear, Bool.and_eq_true, decide_eq_true_eq, isPositive_iff, and_assoc]

theorem pitchNear_of_pitchP2 {p : BuildParams} (h : pitchP2 p = true) {n : Nat} (hlo : 1 ≤ n) (hhi : n ≤ 131) :
    pitchNear p n = true := by
  have := List.all_eq_true.1 h (n - 1) (List.mem_range.2 (by omega))
  rwa [Nat.sub_add_cancel hlo] at this

/-- The integer comparison is the relative error of P2. -/
theorem abs_sub_equalTempered_le {p : BuildParams} {n : Nat} (h : pitchNear p n = true) :
    |(units (PITCH p n) : ℝ) / unitsPerOne - equalTempered n| ≤ 1 / 10 ^ 12 * equalTempered n := by
  obtain ⟨⟨-, hpos⟩, hlo, hhi⟩ := pitchNear_iff.1 h
  rw [show 10 ^ 12 - 1 = 999999999999 by norm_num] at hlo
  have hU := unitsPerOne_pos_real
  have hT := equalTempered_pos n
  have hmag : (units (PITCH p n) : ℝ) = magUnits (PITCH p n) := by
    rw [← units_natAbs, Nat.cast_natAbs, abs_of_pos hpos]
  rw [hmag]
  generalize magUnits (PITCH p n) = m at hlo hhi
  have hscale : (equalTempered n * unitsPerOne) ^ 12 * 2 ^ 57 = 440 ^ 12 * 2 ^ n * unitsPerOne ^ 12 := by
    rw [mul_pow, equalTempered_pow, zpow_sub₀ two_ne_zero, zpow_natCast]
    field_simp
  have hlo' : 999999999999 * (equalTempered n * unitsPerOne) ≤ 10 ^ 12 * m := by
    refine le_of_pow_twelve_le (by positivity) (le_of_mul_le_mul_right ?_ (show (0 : ℝ) < 2 ^ 57 by norm_num))
    rw [mul_pow, mul_assoc, hscale]
    exact_mod_cast hlo
  have hhi' : 10 ^ 12 * m ≤ (10 ^ 12 + 1) * (equalTempered n * unitsPerOne) := by
    refine le_of_pow_twelve_le (by positivity) (le_of_mul_le_mul_right ?_ (show (0 : ℝ) < 2 ^ 57 by norm_num))
    rw [mul_pow (10 ^ 12 + 1), mul_assoc, hscale]
    exact_mod_cast hhi
  rw [abs_sub_le_iff, div_sub' hU.ne', div_le_iff₀ hU, sub_div' hU.ne', div_le_iff₀ hU]
  constructor <;> linarith

/-- P3, from neighbouring notes to any two. -/
theorem PITCH_strictMonoOn {p : BuildParams} (h : pitchP3 p = true) :
    StrictMonoOn (fun n : Int => units (PITCH p n)) (Set.Icc 1 131) := by
  refine strictMonoOn_of_lt_succ Set.ordConnected_Icc fun n _ hn hsucc => ?_
  rw [Order.succ_eq_add_one] at hsucc ⊢
  have hstep := of_decide_eq_true (List.all_eq_true.1 h (n - 1).toNat (List.mem_range.2 (by
    have := hn.1
    have := hsucc.2
    omega)))
  have hn1 := hn.1
  rwa [show (((n - 1).toNat + 1 : Nat) : Int) = n by omega, show (((n - 1).toNat + 2 : Nat) : Int) = n + 1 by omega]
    at hstep

/-- The reference pitch is `440.0` exactly. -/
theorem units_reference : units 0x407B800000000000#64 = 440 * unitsPerOne := by decide +kernel

/-- Settles O28: the conditions a legal build has passed, read as statements about reals. -/
theorem pitchHasItsNamedProperties : Obligations.PitchHasItsNamedProperties := by
  unfold Obligations.PitchHasItsNamedProperties
  intro b
  obtain ⟨-, -, hP2, hP3, -⟩ := legalBuild_iff.1 b.legal
  refine ⟨PITCH_positive b, PITCH_reference b, by rw [PITCH_reference, units_reference], fun n hlo hhi => ?_,
    fun n m hlo hlt hhi => PITCH_strictMonoOn hP3 ⟨hlo, by omega⟩ ⟨by omega, hhi⟩ hlt⟩
  have hnear := abs_sub_equalTempered_le (pitchNear_of_pitchP2 hP2 (n := n.toNat) (by omega) (by omega))
  rwa [Int.toNat_of_nonneg (by omega)] at hnear

/-! ## The default pitch is correctly rounded -/

/-- Half an ulp around each significand holds the pitch it stands for: the twelfth power of twice the pitch, scaled to
the significand's place, is `440^12 * 2^(j+531)`. -/
theorem pitchSignificand_nearest : ∀ j < 12,
    (2 * pitchSignificand j - 1) ^ 12 ≤ 440 ^ 12 * 2 ^ (j + 531) ∧
      440 ^ 12 * 2 ^ (j + 531) ≤ (2 * pitchSignificand j + 1) ^ 12 := by decide +kernel

/-- The twelfth power of twice the exact pitch, in units of the last place `2 ^ (k - 1074)` of note `n`, whose octave is
`k - 1026`. -/
theorem scaled_equalTempered_pow {n : Int} {j k : Nat} (hn : n = j + 12 * ((k : Int) - 1026)) :
    (2 * (equalTempered n * unitsPerOne / 2 ^ k)) ^ 12 = 440 ^ 12 * 2 ^ (j + 531) := by
  obtain ⟨a, ha, hU⟩ : ∃ a : Int, a = 1074 ∧ (unitsPerOne : ℝ) = 2 ^ a :=
    ⟨1074, rfl, by rw [unitsPerOne_eq, Nat.cast_pow, Nat.cast_ofNat]; exact (zpow_natCast (2 : ℝ) 1074).symm⟩
  have hexp : ((j + 531 : Nat) : Int) = 12 + (n - 57) + a * (12 : Nat) - k * (12 : Nat) := by
    push_cast
    omega
  rw [hU, ← zpow_natCast 2 (j + 531), hexp, zpow_sub₀ two_ne_zero, zpow_add₀ two_ne_zero, zpow_add₀ two_ne_zero,
    zpow_mul, zpow_mul, zpow_natCast, zpow_natCast, zpow_natCast, mul_pow, div_pow, mul_pow, equalTempered_pow]
  norm_num
  ring

/-- The exact pitch in units of the default pitch's last place is within one half of the significand. -/
theorem abs_scaled_equalTempered_sub_le {n : Int} {j k : Nat} (hj : j < 12) (hn : n = j + 12 * ((k : Int) - 1026)) :
    |equalTempered n * unitsPerOne / 2 ^ k - pitchSignificand j| ≤ 1 / 2 := by
  have hT : 0 ≤ 2 * (equalTempered n * unitsPerOne / 2 ^ k) := by
    have := equalTempered_pos n
    positivity
  have hpow := scaled_equalTempered_pow hn
  obtain ⟨hbelow, habove⟩ := pitchSignificand_nearest j hj
  have hm := (pitchSignificand_range j hj).1
  generalize equalTempered n * unitsPerOne / 2 ^ k = x at hpow hT ⊢
  generalize pitchSignificand j = m at *
  have hlo : ((2 * m - 1 : Nat) : ℝ) ≤ 2 * x := by
    refine le_of_pow_twelve_le hT ?_
    rw [hpow]
    exact_mod_cast hbelow
  have hhi : 2 * x ≤ ((2 * m + 1 : Nat) : ℝ) := by
    refine le_of_pow_twelve_le (Nat.cast_nonneg _) ?_
    rw [hpow]
    exact_mod_cast habove
  rw [Nat.cast_sub (by omega)] at hlo
  push_cast at hlo hhi
  rw [abs_sub_le_iff]
  constructor <;> linarith

/-- Around a value with the significand `m` strictly inside its binade, every other value is a unit of the last place or
more away. -/
theorem units_gap {m k : Nat} (hlo : 2 ^ 52 < m) (hhi : m < 2 ^ 53) (c : F64) :
    units c = (m * 2 ^ k : Nat) ∨ units c ≤ ((m - 1) * 2 ^ k : Nat) ∨ ((m + 1) * 2 ^ k : Nat) ≤ units c := by
  have hbelow : magOfBits (k * 2 ^ 52 + (m - 1)) = (m - 1) * 2 ^ k := magOfBits_normal (by omega) (by omega)
  have hself : magOfBits (k * 2 ^ 52 + m) = m * 2 ^ k := magOfBits_normal hlo.le hhi
  have habove : magOfBits (k * 2 ^ 52 + (m + 1)) = (m + 1) * 2 ^ k := magOfBits_of_significand hhi (by omega)
  obtain ⟨q, b, hc⟩ := units_eq_signed_magOfBits c
  rw [hc, ← hbelow, ← hself, ← habove]
  cases q with
  | true =>
    rw [signed, if_pos rfl]
    omega
  | false =>
    rw [signed, if_neg (by decide), Int.ofNat_le, Int.ofNat_le, Int.ofNat_inj, magOfBits_le_iff, magOfBits_le_iff]
    by_cases hb : b = k * 2 ^ 52 + m
    · exact Or.inl (by rw [hb])
    · omega

/-- Of a value within half a unit of the last place of `x`, strictly inside its binade, no other is nearer to `x`. -/
theorem abs_sub_le_of_half_ulp {m k : Nat} (hlo : 2 ^ 52 < m) (hhi : m < 2 ^ 53) {x : ℝ}
    (hx : |x / 2 ^ k - m| ≤ 1 / 2) (c : F64) : |((m * 2 ^ k : Nat) : ℝ) - x| ≤ |(units c : ℝ) - x| := by
  have hp : (0 : ℝ) < 2 ^ k := by positivity
  obtain ⟨y, rfl⟩ : ∃ y, x = y * 2 ^ k := ⟨x / 2 ^ k, (div_mul_cancel₀ x hp.ne').symm⟩
  rw [mul_div_cancel_right₀ y hp.ne', abs_sub_le_iff] at hx
  have hhalf : |((m * 2 ^ k : Nat) : ℝ) - y * 2 ^ k| ≤ 1 / 2 * 2 ^ k := by
    push_cast
    rw [← sub_mul, abs_mul, abs_of_pos hp]
    refine mul_le_mul_of_nonneg_right ?_ hp.le
    rw [abs_sub_le_iff]
    constructor <;> linarith
  rcases units_gap (k := k) hlo hhi c with hc | hc | hc
  · rw [hc]
    rfl
  · refine hhalf.trans (le_trans ?_ (neg_le_abs _))
    have hc' : (units c : ℝ) ≤ (m - 1) * 2 ^ k := by
      have : (units c : ℝ) ≤ (((m - 1) * 2 ^ k : Nat) : ℝ) := by exact_mod_cast hc
      rwa [Nat.cast_mul, Nat.cast_sub (by omega), Nat.cast_pow, Nat.cast_one, Nat.cast_ofNat] at this
    nlinarith
  · refine hhalf.trans (le_trans ?_ (le_abs_self _))
    have hc' : ((m : ℝ) + 1) * 2 ^ k ≤ units c := by exact_mod_cast hc
    nlinarith

/-- Settles O29: the exact pitch is within half a unit of the last place of the default one, whose fraction is never 0. -/
theorem defaultPitchIsCorrectlyRounded : Obligations.DefaultPitchIsCorrectlyRounded := by
  unfold Obligations.DefaultPitchIsCorrectlyRounded
  intro n c hlo hhi _
  obtain ⟨hfinite, hunits⟩ := defaultPitch_spec hlo hhi
  refine ⟨hfinite, ?_⟩
  obtain ⟨hm1, hm2⟩ := pitchSignificand_range (n % 12).toNat (by omega)
  have hnear := abs_sub_le_of_half_ulp hm1 hm2 (abs_scaled_equalTempered_sub_le (n := n) (k := (n / 12 + 1026).toNat)
    (show (n % 12).toNat < 12 by omega) (by omega)) c
  have hU := unitsPerOne_pos_real
  have hscale : ∀ v : ℝ, |v / unitsPerOne - equalTempered n| = |v - equalTempered n * unitsPerOne| / unitsPerOne := by
    intro v
    rw [div_sub' hU.ne', abs_div, abs_of_pos hU, mul_comm]
  change |_ - equalTempered n| ≤ |_ - equalTempered n|
  rw [hscale, hscale, hunits]
  exact div_le_div_of_nonneg_right (by exact_mod_cast hnear) hU.le

end Sys2Proof.Machine
end

section
/-! PROOFS. The phase increment at 44100 Hz (spec/41_pitch_mapper.md R136, R138): P2 bounds the pitch by powers of two, and
rounding keeps bounds that are representable. -/

namespace Sys2Proof.Machine

/-! ## Rounding keeps representable bounds -/

/-- A product of values without sign, between two magnitudes, is rounded between them. -/
theorem fmul_bounds {a b : F64} {lo hi : Nat} (ha : isFinite a = true) (hb : isFinite b = true)
    (hsa : signBit a = false) (hsb : signBit b = false) (hhi : hi < 2047 * 2 ^ 52)
    (hle : magOfBits lo * unitsPerOne ≤ magUnits a * magUnits b)
    (hge : magUnits a * magUnits b ≤ magOfBits hi * unitsPerOne) :
    isFinite (fmul a b) = true ∧ (magOfBits lo : Int) ≤ units (fmul a b) ∧ units (fmul a b) ≤ magOfBits hi := by
  have hround := roundMag_le unitsPerOne_pos hge
  have hlt := hround.trans_lt hhi
  have hfmul : fmul a b = packF64 false (roundMag (magUnits a * magUnits b) unitsPerOne) (Config.f64Unstated .mul a b) := by
    simp [fmul, ha, hb, hsa, hsb]
  rw [hfmul, units_packF64 hlt, if_neg (by decide), Int.ofNat_le, Int.ofNat_le, magOfBits_le_iff, magOfBits_le_iff]
  exact ⟨(packF64_spec hlt).1, le_roundMag unitsPerOne_pos hle, hround⟩

/-- A quotient of values without sign, between two magnitudes, is rounded between them. -/
theorem fdiv_bounds {a b : F64} {lo hi : Nat} (ha : isFinite a = true) (hb : isFinite b = true)
    (hsa : signBit a = false) (hsb : signBit b = false) (hpos : 0 < magUnits b) (hhi : hi < 2047 * 2 ^ 52)
    (hle : magOfBits lo * magUnits b ≤ magUnits a * unitsPerOne)
    (hge : magUnits a * unitsPerOne ≤ magOfBits hi * magUnits b) :
    isFinite (fdiv a b) = true ∧ signBit (fdiv a b) = false ∧ magOfBits lo ≤ magUnits (fdiv a b) ∧
      magUnits (fdiv a b) ≤ magOfBits hi := by
  have hround := roundMag_le hpos hge
  have hlt := hround.trans_lt hhi
  have hfdiv : fdiv a b = packF64 false (roundMag (magUnits a * unitsPerOne) (magUnits b)) (Config.f64Unstated .div a b) := by
    simp [fdiv, ha, hb, hsa, hsb, hpos.ne']
  obtain ⟨hfinite, hmag, hsign⟩ := packF64_spec (neg := false) (u := Config.f64Unstated .div a b) hlt
  rw [hfdiv, hmag, magOfBits_le_iff, magOfBits_le_iff]
  exact ⟨hfinite, hsign, le_roundMag hpos hle, hround⟩

/-! ## The increment -/

/-- Twelfth powers compare as their bases do, here with P2's factors on both sides. -/
theorem le_of_scaled_pow_le {a b : Nat} (h : (10 ^ 12 * a) ^ 12 * 2 ^ 57 ≤ (10 ^ 12 * b) ^ 12 * 2 ^ 57) : a ≤ b :=
  Nat.le_of_mul_le_mul_left ((Nat.pow_le_pow_iff_left (by norm_num)).1 (Nat.le_of_mul_le_mul_right h (by norm_num)))
    (by norm_num : 0 < 10 ^ 12)

/-- By P2 a pitch of `[1, 131]` is between 16 and 32768 hertz. -/
theorem magUnits_bounds_of_pitchNear {p : BuildParams} {n : Nat} (h : pitchNear p n = true) (hlo : 1 ≤ n) (hhi : n ≤ 131) :
    16 * unitsPerOne ≤ magUnits (PITCH p n) ∧ magUnits (PITCH p n) ≤ 32768 * unitsPerOne := by
  obtain ⟨-, hle, hge⟩ := pitchNear_iff.1 h
  have hn1 : 2 ^ 1 ≤ 2 ^ n := Nat.pow_le_pow_right (by norm_num) hlo
  have hn2 : 2 ^ n ≤ 2 ^ 131 := Nat.pow_le_pow_right (by norm_num) hhi
  have hclosed1 : (10 ^ 12 * 16) ^ 12 * 2 ^ 57 ≤ (10 ^ 12 - 1) ^ 12 * (440 ^ 12 * 2 ^ 1) := by norm_num
  have hclosed2 : (10 ^ 12 + 1) ^ 12 * (440 ^ 12 * 2 ^ 131) ≤ (10 ^ 12 * 32768) ^ 12 * 2 ^ 57 := by norm_num
  generalize magUnits (PITCH p n) = m at hle hge ⊢
  generalize unitsPerOne = U at hle hge ⊢
  generalize 2 ^ n = x at hle hge hn1 hn2
  constructor
  · refine le_of_scaled_pow_le ?_
    calc (10 ^ 12 * (16 * U)) ^ 12 * 2 ^ 57 = (10 ^ 12 * 16) ^ 12 * 2 ^ 57 * U ^ 12 := by ring
      _ ≤ (10 ^ 12 - 1) ^ 12 * (440 ^ 12 * 2 ^ 1) * U ^ 12 := Nat.mul_le_mul_right _ hclosed1
      _ ≤ (10 ^ 12 - 1) ^ 12 * (440 ^ 12 * x) * U ^ 12 := by gcongr
      _ = (10 ^ 12 - 1) ^ 12 * (440 ^ 12 * x * U ^ 12) := Nat.mul_assoc _ _ _
      _ ≤ (10 ^ 12 * m) ^ 12 * 2 ^ 57 := hle
  · refine le_of_scaled_pow_le ?_
    calc (10 ^ 12 * m) ^ 12 * 2 ^ 57 ≤ (10 ^ 12 + 1) ^ 12 * (440 ^ 12 * x * U ^ 12) := hge
      _ = (10 ^ 12 + 1) ^ 12 * (440 ^ 12 * x) * U ^ 12 := (Nat.mul_assoc _ _ _).symm
      _ ≤ (10 ^ 12 + 1) ^ 12 * (440 ^ 12 * 2 ^ 131) * U ^ 12 := by gcongr
      _ ≤ (10 ^ 12 * 32768) ^ 12 * 2 ^ 57 * U ^ 12 := Nat.mul_le_mul_right _ hclosed2
      _ = (10 ^ 12 * (32768 * U)) ^ 12 * 2 ^ 57 := by ring

/-- The bounds of the quotient, `2^-12` and `3/4`, and of the increment, `1/4` and 768, are magnitudes. -/
theorem exists_increment_bounds : ∃ p, 0 < p ∧ unitsPerOne = 4096 * p ∧
    magOfBits (1011 * 2 ^ 52) = p ∧ magOfBits (1022 * 2 ^ 52 + 2 ^ 51) = 3072 * p ∧
    magOfBits (1021 * 2 ^ 52) = 1024 * p ∧ magOfBits (1032 * 2 ^ 52 + 2 ^ 51) = 3145728 * p :=
  ⟨2 ^ 1062, by decide +kernel⟩

theorem signBit_of_pos {a : F64} (h : 0 < units a) : signBit a = false := by
  cases hs : signBit a with
  | false => rfl
  | true =>
    rw [units_eq_signed, hs, signed, if_pos rfl] at h
    omega

/-- At 44100 Hz a pitch between 16 and 32768 hertz has an increment between 1/4 and 768. -/
theorem PINC_bounds {p : BuildParams} {n : Int} (hrate : p.sampleRate = 44100)
    (hfinite : isFinite (PITCH p n) = true) (hpos : 0 < units (PITCH p n))
    (hlo : 16 * unitsPerOne ≤ magUnits (PITCH p n)) (hhi : magUnits (PITCH p n) ≤ 32768 * unitsPerOne) :
    isFinite (PINC p n) = true ∧ 0 < units (PINC p n) ∧ units (PINC p n) < 1024 * (unitsPerOne : Int) := by
  obtain ⟨q, hq, hU, hb1, hb2, hb3, hb4⟩ := exists_increment_bounds
  obtain ⟨hrfinite, hrmag, hrsign⟩ := f64_spec (k := (44100 : Nat)) (by norm_num)
  obtain ⟨hNfinite, hNmag, hNsign⟩ := f64_spec (k := Config.tableLen) (by norm_num)
  rw [PINC, hrate]
  have hrmag' : magUnits (f64 (44100 : Nat)) = 44100 * unitsPerOne := hrmag
  have hNmag' : magUnits (f64 Config.tableLen) = 1024 * unitsPerOne := hNmag
  obtain ⟨hdfinite, hdsign, hdlo, hdhi⟩ := fdiv_bounds (lo := 1011 * 2 ^ 52) (hi := 1022 * 2 ^ 52 + 2 ^ 51)
    hfinite hrfinite (signBit_of_pos hpos) (hrsign.trans (by decide)) (by rw [hrmag']; omega) (by norm_num)
    (by rw [hb1, hrmag', ← Nat.mul_assoc]; exact Nat.mul_le_mul_right _ (by omega)) (by rw [hb2, hrmag', ← Nat.mul_assoc]; exact Nat.mul_le_mul_right _ (by omega))
  obtain ⟨hmfinite, hmlo, hmhi⟩ := fmul_bounds (lo := 1021 * 2 ^ 52) (hi := 1032 * 2 ^ 52 + 2 ^ 51)
    hdfinite hNfinite hdsign (hNsign.trans (by decide)) (by norm_num)
    (by rw [hb3, hNmag', ← Nat.mul_assoc]; exact Nat.mul_le_mul_right _ (by omega)) (by rw [hb4, hNmag', ← Nat.mul_assoc]; exact Nat.mul_le_mul_right _ (by omega))
  rw [hb3] at hmlo
  rw [hb4] at hmhi
  refine ⟨hmfinite, by omega, ?_⟩
  rw [hU]
  omega

/-- Settles O32: P2 alone bounds the pitch. -/
theorem incrementBelowTableLength : Obligations.IncrementBelowTableLength := by
  unfold Obligations.IncrementBelowTableLength
  intro p n hrate _ hP2 _ hlo hhi
  obtain ⟨k, rfl⟩ := Int.eq_ofNat_of_zero_le (show 0 ≤ n by omega)
  have hnear := pitchNear_of_pitchP2 hP2 (n := k) (by omega) (by omega)
  obtain ⟨hfinite, hpos⟩ := (pitchNear_iff.1 hnear).1
  obtain ⟨hmlo, hmhi⟩ := magUnits_bounds_of_pitchNear hnear (by omega) (by omega)
  exact PINC_bounds hrate hfinite hpos hmlo hmhi

end Sys2Proof.Machine
end
